-- ==== Sys2Proof/Word.lean ====
section
/-! DEFINITION. The two kinds of word the block decodes: the 12-bit command word the host presents and the
8-bit data byte the transport delivers (30_encoding.md rules R50 and R56). Every datum is one byte (R30). -/

namespace Sys2Proof

/-- One byte, unsigned (R5). -/
abbrev Byte := BitVec 8

/-- A command word: the operation in bits 11..8, its argument in bits 7..0 (R50). -/
abbrev CommandWord := BitVec 12

/-- What the block can be given to decode: a command word at its host interface (R50), or one input byte at the
data level (R56). -/
inductive InputWord where
  | command (w : CommandWord)
  | data (b : Byte)
deriving DecidableEq, Repr

end Sys2Proof
end

