-- ==== Sys2Proof/Syntax.lean ====
section
/-! DEFINITION. The instructions: one constructor for every row of opcode_table.json. The eight operations and the
eight reserved operation codes are command words (30_encoding.md rules R50, R53); the eight byte classes are the
instructions of the data level (00_scope.md rule R1, 30_encoding.md rule R56). -/

namespace Sys2Proof

inductive Instr where
  /-- AVAIL, op 0x1, `arg` ignored (R71). -/
  | avail
  /-- RDBYTE, op 0x2, `arg` ignored (R76). -/
  | rdbyte
  /-- FEED, op 0x3, `arg` is the byte (R91). -/
  | feed (c : Byte)
  /-- EXTRACT, op 0x4, `arg` ignored (R118). -/
  | extract
  /-- RECEIVE, op 0x5, `arg` ignored (R145). -/
  | receive
  /-- SEND, op 0x6, `arg` is the length of the body, saturated at 255 (R51, R132). -/
  | send (len : Byte)
  /-- SETMODE, op 0x7, `arg[1:0]` is the mode code, `arg[7:2]` ignored (R148). -/
  | setmode (code : BitVec 2)
  /-- GETMODE, op 0x8, `arg` ignored (R149). -/
  | getmode
  /-- Reserved operation code 0x0 (R53). -/
  | reserved0
  /-- Reserved operation code 0x9 (R53). -/
  | reserved9
  /-- Reserved operation code 0xA (R53). -/
  | reservedA
  /-- Reserved operation code 0xB (R53). -/
  | reservedB
  /-- Reserved operation code 0xC (R53). -/
  | reservedC
  /-- Reserved operation code 0xD (R53). -/
  | reservedD
  /-- Reserved operation code 0xE (R53). -/
  | reservedE
  /-- Reserved operation code 0xF (R53). -/
  | reservedF
  /-- Data byte 0x0A (R56). -/
  | lf
  /-- Data byte 0x24, the start marker (R56). -/
  | dollar
  /-- Data byte 0x2A (R56). -/
  | star
  /-- Data byte `001xxxxx` other than `dollar` and `star` (R56). -/
  | accA (x : BitVec 5)
  /-- Data byte `010xxxxx` (R56). -/
  | accB (x : BitVec 5)
  /-- Data byte `000xxxxx` other than `lf` (R56). -/
  | rejCtl (x : BitVec 5)
  /-- Data byte `011xxxxx` (R56). -/
  | rejLow (x : BitVec 5)
  /-- Data byte `1xxxxxxx` (R56). -/
  | rejHigh (x : BitVec 7)
deriving DecidableEq, Repr

end Sys2Proof
end

