-- ==== Sys2Proof/WellFormed.lean ====
section
/-! DEFINITION. Which terms of `Instr` stand for a word. A data byte belongs to the FIRST row of the class table it
matches, and the three exact rows come before the range rows (30_encoding.md rule R56); so a range constructor may
not carry the bits of an exact row. Every command constructor is well formed at every operand (rules R50, R60). -/

namespace Sys2Proof

/-- The well-formedness check on instructions (R50, R56). -/
def Instr.wellFormed : Instr → Bool
  | .avail => true
  | .rdbyte => true
  | .feed _ => true
  | .extract => true
  | .receive => true
  | .send _ => true
  | .setmode _ => true
  | .getmode => true
  | .reserved0 => true
  | .reserved9 => true
  | .reservedA => true
  | .reservedB => true
  | .reservedC => true
  | .reservedD => true
  | .reservedE => true
  | .reservedF => true
  | .lf => true
  | .dollar => true
  | .star => true
  | .accA x => x != 0x04#5 && x != 0x0A#5
  | .accB _ => true
  | .rejCtl x => x != 0x0A#5
  | .rejLow _ => true
  | .rejHigh _ => true

end Sys2Proof
end

