-- ==== Sys2Proof/Decode.lean ====
section
/-! DEFINITION. The two decoders, total on every word (command words: 30_encoding.md rule R50 with the reserved codes
of R53; data bytes: the priority order of R56), the encoder written from the same tables, the rows of
opcode_table.json, and the host's numbering of a row's bits. -/

namespace Sys2Proof

/-! ### Fields -/

/-- `op`, bits 11..8 of a command word (R50). -/
def opField (w : CommandWord) : BitVec 4 := w.extractLsb' 8 4

/-- `arg`, bits 7..0 of a command word (R50). -/
def argField (w : CommandWord) : Byte := w.extractLsb' 0 8

/-! ### Decoding -/

/-- The command decoder. It ignores `arg` where the operation has no operand and `arg[7:2]` of SETMODE (R50). -/
def decodeCommand (w : CommandWord) : Instr :=
  match (opField w).toNat with
  | 0x0 => .reserved0
  | 0x1 => .avail
  | 0x2 => .rdbyte
  | 0x3 => .feed (argField w)
  | 0x4 => .extract
  | 0x5 => .receive
  | 0x6 => .send (argField w)
  | 0x7 => .setmode ((argField w).extractLsb' 0 2)
  | 0x8 => .getmode
  | 0x9 => .reserved9
  | 0xA => .reservedA
  | 0xB => .reservedB
  | 0xC => .reservedC
  | 0xD => .reservedD
  | 0xE => .reservedE
  | _ => .reservedF

/-- The byte classifier: the first row of R56 that the byte matches. -/
def decodeByte (b : Byte) : Instr :=
  if b = 0x0A#8 then .lf
  else if b = 0x24#8 then .dollar
  else if b = 0x2A#8 then .star
  else if b.extractLsb' 5 3 = 0b001#3 then .accA (b.extractLsb' 0 5)
  else if b.extractLsb' 5 3 = 0b010#3 then .accB (b.extractLsb' 0 5)
  else if b.extractLsb' 5 3 = 0b000#3 then .rejCtl (b.extractLsb' 0 5)
  else if b.extractLsb' 5 3 = 0b011#3 then .rejLow (b.extractLsb' 0 5)
  else .rejHigh (b.extractLsb' 0 7)

/-- The decoder. -/
def decode : InputWord → Instr
  | .command w => decodeCommand w
  | .data b => decodeByte b

/-! ### Encoding -/

/-- `cmd = op, arg` (R50). -/
def commandWord (op : BitVec 4) (arg : Byte) : InputWord := .command (op ++ arg)

/-- The encoder: ignored bits are written as 0 (R50, R56). -/
def encode : Instr → InputWord
  | .avail => commandWord 0x1#4 0#8
  | .rdbyte => commandWord 0x2#4 0#8
  | .feed c => commandWord 0x3#4 c
  | .extract => commandWord 0x4#4 0#8
  | .receive => commandWord 0x5#4 0#8
  | .send len => commandWord 0x6#4 len
  | .setmode code => commandWord 0x7#4 (0#6 ++ code)
  | .getmode => commandWord 0x8#4 0#8
  | .reserved0 => commandWord 0x0#4 0#8
  | .reserved9 => commandWord 0x9#4 0#8
  | .reservedA => commandWord 0xA#4 0#8
  | .reservedB => commandWord 0xB#4 0#8
  | .reservedC => commandWord 0xC#4 0#8
  | .reservedD => commandWord 0xD#4 0#8
  | .reservedE => commandWord 0xE#4 0#8
  | .reservedF => commandWord 0xF#4 0#8
  | .lf => .data 0x0A#8
  | .dollar => .data 0x24#8
  | .star => .data 0x2A#8
  | .accA x => .data (0b001#3 ++ x)
  | .accB x => .data (0b010#3 ++ x)
  | .rejCtl x => .data (0b000#3 ++ x)
  | .rejLow x => .data (0b011#3 ++ x)
  | .rejHigh x => .data (0b1#1 ++ x)

/-- The word with the bits its operation ignores cleared: `arg` where there is no operand, `arg[7:2]` of SETMODE
(R50). Two command words with one `clearIgnored` are one command. -/
def clearIgnored : InputWord → InputWord
  | .data b => .data b
  | .command w =>
    if opField w = 0x3#4 ∨ opField w = 0x6#4 then .command w
    else if opField w = 0x7#4 then .command (w &&& 0xF03#12)
    else .command (w &&& 0xF00#12)

/-! ### The rows of the opcode table -/

/-- One row of opcode_table.json: a word of `width` bits belongs to it when, masked, it equals `pattern`. -/
structure OpcodeRow where
  mnemonic : String
  width : Nat
  pattern : Nat
  mask : Nat
deriving DecidableEq, Repr

/-- The row of opcode_table.json each constructor stands for. -/
def Instr.row : Instr → OpcodeRow
  | .avail => ⟨"AVAIL", 12, 0x100, 0xF00⟩
  | .rdbyte => ⟨"RDBYTE", 12, 0x200, 0xF00⟩
  | .feed _ => ⟨"FEED", 12, 0x300, 0xF00⟩
  | .extract => ⟨"EXTRACT", 12, 0x400, 0xF00⟩
  | .receive => ⟨"RECEIVE", 12, 0x500, 0xF00⟩
  | .send _ => ⟨"SEND", 12, 0x600, 0xF00⟩
  | .setmode _ => ⟨"SETMODE", 12, 0x700, 0xF00⟩
  | .getmode => ⟨"GETMODE", 12, 0x800, 0xF00⟩
  | .reserved0 => ⟨"RESERVED_0", 12, 0x000, 0xF00⟩
  | .reserved9 => ⟨"RESERVED_9", 12, 0x900, 0xF00⟩
  | .reservedA => ⟨"RESERVED_A", 12, 0xA00, 0xF00⟩
  | .reservedB => ⟨"RESERVED_B", 12, 0xB00, 0xF00⟩
  | .reservedC => ⟨"RESERVED_C", 12, 0xC00, 0xF00⟩
  | .reservedD => ⟨"RESERVED_D", 12, 0xD00, 0xF00⟩
  | .reservedE => ⟨"RESERVED_E", 12, 0xE00, 0xF00⟩
  | .reservedF => ⟨"RESERVED_F", 12, 0xF00, 0xF00⟩
  | .lf => ⟨"LF", 8, 0x0A, 0xFF⟩
  | .dollar => ⟨"DOLLAR", 8, 0x24, 0xFF⟩
  | .star => ⟨"STAR", 8, 0x2A, 0xFF⟩
  | .accA _ => ⟨"ACC_A", 8, 0x20, 0xE0⟩
  | .accB _ => ⟨"ACC_B", 8, 0x40, 0xE0⟩
  | .rejCtl _ => ⟨"REJ_CTL", 8, 0x00, 0xE0⟩
  | .rejLow _ => ⟨"REJ_LOW", 8, 0x60, 0xE0⟩
  | .rejHigh _ => ⟨"REJ_HIGH", 8, 0x80, 0x80⟩

/-- The command rows, in the table's order (R50, R53). -/
def commandRows : List OpcodeRow :=
  [Instr.avail.row, Instr.rdbyte.row, (Instr.feed 0#8).row, Instr.extract.row, Instr.receive.row,
    (Instr.send 0#8).row, (Instr.setmode 0#2).row, Instr.getmode.row, Instr.reserved0.row, Instr.reserved9.row,
    Instr.reservedA.row, Instr.reservedB.row, Instr.reservedC.row, Instr.reservedD.row, Instr.reservedE.row,
    Instr.reservedF.row]

/-- The byte-class rows, in the table's priority order (R56). -/
def byteRows : List OpcodeRow :=
  [Instr.lf.row, Instr.dollar.row, Instr.star.row, (Instr.accA 0#5).row, (Instr.accB 0#5).row,
    (Instr.rejCtl 0#5).row, (Instr.rejLow 0#5).row, (Instr.rejHigh 0#7).row]

/-- An input word's width and bits, as the table writes them. -/
def InputWord.bits : InputWord → Nat × Nat
  | .command w => (12, w.toNat)
  | .data b => (8, b.toNat)

/-- The word belongs to the row. -/
def OpcodeRow.matchesWord (r : OpcodeRow) (w : InputWord) : Bool :=
  w.bits.1 == r.width && (w.bits.2 &&& r.mask) == r.pattern

/-! ### The host's numbering -/

/-- Why a number is no word of the table. -/
inductive DecodeError where
  /-- No row of the table has this width: a data byte is one byte, a command 12 bits carried in two. -/
  | widthUnknown (nbits : Nat)
  /-- The number has bits above the row's width. -/
  | wordTooWide (w : Nat)
deriving DecidableEq, Repr

/-- The input word that a row's number stands for: a row of at most 8 bits is a data byte, one of 9 to 16 bits (12
bits, in whole bytes 16) a command word, bit 0 the least significant bit (log entry 1). -/
def wordOfTable (nbits w : Nat) : Except DecodeError InputWord :=
  if nbits = 0 ∨ 16 < nbits then .error (.widthUnknown nbits)
  else if nbits ≤ 8 then
    if w < 256 then .ok (.data (BitVec.ofNat 8 w)) else .error (.wordTooWide w)
  else
    if w < 4096 then .ok (.command (BitVec.ofNat 12 w)) else .error (.wordTooWide w)

/-- What the decoder reads from a row's number, or none where it refuses it. -/
def decodeTableWord (nbits w : Nat) : Option Instr :=
  match wordOfTable nbits w with
  | .ok iw => some (decode iw)
  | .error _ => none

end Sys2Proof
end

