-- ==== Sys2Proof/Machine/Constants.lean ====
section
/-! DEFINITION. The fixed constants of 00_scope.md rule R4, each once (92_eei_decisions.md D5 asks for that, so that
an audit can change them in one place). The character codes are ASCII (93_implementation_defined.md U9, log entry
20). -/

namespace Sys2Proof.Machine

open Sys2Proof

/-- `CAPACITY`, the number of cells of `BUF` (R4). -/
def capacity : Nat := 83

/-- `FORCE_AT`, the cursor value at which completion is forced (R4, R98). -/
def forceAt : Nat := capacity - 2

/-- `SEND_MAX`, the clamp of SEND's length (R4, R130). -/
def sendMax : Nat := capacity - 6

/-- `OUT_CAP`, the number of cells of `OUT` (R4, R19). -/
def outCap : Nat := capacity + 2

/-- `FILTER_LO` (R4, R92). -/
def filterLo : Byte := 0x20#8

/-- `FILTER_HI` (R4, R92). -/
def filterHi : Byte := 0x5F#8

/-- `CH_DOLLAR` (R4). -/
def chDollar : Byte := 0x24#8

/-- `CH_STAR` (R4). -/
def chStar : Byte := 0x2A#8

/-- `CH_CR` (R4). -/
def chCr : Byte := 0x0D#8

/-- `CH_LF` (R4). -/
def chLf : Byte := 0x0A#8

/-- `CH_NUL` (R4). -/
def chNul : Byte := 0x00#8

end Sys2Proof.Machine
end

