-- ==== Sys2Proof/Config.lean ====
section
/-! DEFINITION. What the spec leaves OPEN (00_scope.md rule R4, 92_eei_decisions.md D6, D7, D8) and the one free
value of the model. Every constant here is opaque: it has no body, so no proof can learn its value. -/

namespace Sys2Proof

/-- The Output Mode (10_state.md rule R17). Its numeric codes are in Machine/Operands.lean. -/
inductive OutputMode where
  | bodyOnly
  | textVisible
  | fullSentence
deriving DecidableEq, Repr, Inhabited

/-- The three OPEN parameters of rule R4, as one record: a machine is given one when it is built and no operation
writes it. `frameCap` is FRAME_CAP with its range (an integer of at least 1), `devAddr` is the opaque bus address
DEV_ADDR, `modeReset` is MODE_RESET. -/
structure Params where
  frameCap : Nat
  frameCapPos : 0 < frameCap
  devAddr : Nat
  modeReset : OutputMode
deriving DecidableEq, Repr

/-- FRAME_CAP less one, OPEN (D6): log entry 2. -/
opaque Config.frameCapPred : Nat

/-- DEV_ADDR, OPEN (D7): log entry 3. -/
opaque Config.devAddr : Nat

/-- MODE_RESET, OPEN (D8): log entry 4. -/
opaque Config.modeReset : OutputMode

/-- Free value: the n-th host memory byte that a SEND reads past the bytes the host has put in `BODY`
(log entry 15). -/
opaque Config.freeBodyByte : Nat → Byte

/-- The parameters of the machine that `State.reset` describes; any FRAME_CAP of at least 1, any address, any mode. -/
def Config.params : Params where
  frameCap := Config.frameCapPred + 1
  frameCapPos := Nat.succ_pos _
  devAddr := Config.devAddr
  modeReset := Config.modeReset

end Sys2Proof
end

