-- ==== Sys2Proof/Machine/State.lean ====
section
/-! DEFINITION. The state of the machine (10_state.md rules R10 to R26, 20_memory.md rules R36 to R41), as plain
data, the reasons a step can stop, and the state after reset. -/

namespace Sys2Proof.Machine

open Sys2Proof

/-- A byte memory: pairs of index and byte, indices strictly rising, an unlisted index holding no value. The two
index spaces of bytes are `BUF`, 0..82, and `OUT`, 0..84 (R21). -/
abbrev Memory := List Host.Cell

/-- The Search State `SS` (R13). Its numeric codes are in Operands.lean. -/
inductive SearchState where
  | searching
  | inBody
  | cks1
  | cks2
  | complete
deriving DecidableEq, Repr

/-- The Result of EXTRACT and RECEIVE (R54, R160 to R164). -/
inductive ResultCode where
  | valid
  | checksumFailed
  | framingOverrun
  | noData
deriving DecidableEq, Repr

/-- The response wires (R52). A field is `none` where the last operation does not drive it: it is then unspecified
and nothing is claimed of it (log entry 13). -/
structure Response where
  flag : Option Bool
  result : Option ResultCode
  data : Option Byte
deriving DecidableEq, Repr

/-- A call of a transport primitive, as the bus sees it (R43). `queued_count` is not recorded: how often it is
sampled is not architectural (R36). -/
inductive TransportCall where
  /-- `request_block(n)`, which the device answered with `granted` bytes (R38). -/
  | requestBlock (n granted : Nat)
  /-- `read_one()`, which returned `b` (R37). -/
  | readOne (b : Byte)
  /-- `begin_frame(a)` (R39). -/
  | beginFrame (address : Nat)
  /-- `write_one(b)` (R40). -/
  | writeOne (b : Byte)
  /-- `end_frame()`, its status discarded (R41). -/
  | endFrame
deriving DecidableEq, Repr

/-- What the device does once its listed output is used up (log entry 10): it grants nothing any more, or it goes on
without end. Nothing is assumed of the bytes (93_implementation_defined.md U18); a GPS receiver repeats the line feed
(40_transport_gate.md rule R78). -/
inductive DeviceIdle where
  | silent
  /-- It grants every request in full with one byte. -/
  | filler (b : Byte)
  /-- It lists the same bursts again whenever its listed output is used up; with none it is silent. -/
  | repeats (bursts : List (List Byte))
deriving DecidableEq, Repr

/-- What reaches the block from outside, one at a time (00_scope.md rule R6, log entry 22). -/
inductive HostEvent where
  /-- A command of the host (R18), or one byte at the data level (R56, log entry 16). -/
  | word (w : InputWord)
  /-- The host asserts reset between two operations (R180). -/
  | reset
  /-- The external setup collaborator ends connection setup; `acknowledged` is what `ping` answered (R42, R184). -/
  | setup (acknowledged : Bool)
  /-- The host puts bytes in its own `BODY` buffer (R20). -/
  | loadBody (bytes : List Byte)
  /-- The device adds one burst to its pending output (R24, R38). -/
  | deviceBurst (bytes : List Byte)
  /-- The device's behaviour after its listed output changes (U18). -/
  | deviceIdle (idle : DeviceIdle)
deriving DecidableEq, Repr

/-- Everything the spec gives the block, its caller-owned buffers and its environment, and three fields of the
model's own (`bodyDraws`, `inbox`, and `resp`, which holds wires). -/
structure State where
  /-- `BUF[0..82]`, the Sentence Buffer (R10); a cell nothing has written holds no value (R11). -/
  buf : Memory
  /-- `CUR`, the Write Cursor, range 0..82 (R12). -/
  cur : Nat
  /-- `SS`, the Search State (R13). -/
  ss : SearchState
  /-- `MODE`, the Output Mode (R17). -/
  mode : OutputMode
  /-- `PLF`, the Pending-Double-Linefeed flag (R15). -/
  plf : Bool
  /-- `LOOK`, the Lookahead Byte's value (R16). -/
  look : Byte
  /-- `LOOK_V`, the Lookahead Byte's validity flag (R16). -/
  lookV : Bool
  /-- `CKS`, the running checksum (R22). -/
  cks : Byte
  /-- `TXCNT`, the chunking counter (R23). -/
  txCnt : Nat
  /-- `OUT[0..84]`, the caller's output buffer (R19); a cell above `OUT_LEN` holds no value. -/
  out : Memory
  /-- `OUT_LEN` (R19). -/
  outLen : Nat
  /-- `BODY[0..BODY_LEN-1]`, the host's body buffer; `BODY_LEN` is its length (R20). -/
  body : List Byte
  /-- `RXQ`, the transport's receive queue, head first (R36). -/
  rxq : List Byte
  /-- `DEV`, the device's pending output, cut into the bursts it grants (R24, R38, log entry 10). -/
  dev : List (List Byte)
  /-- What the device does after `dev` (U18, log entry 10). -/
  devIdle : DeviceIdle
  /-- The transmission frame that is open, if one is (R39). -/
  txOpen : Option (List Byte)
  /-- `TXLOG`, the closed transmission frames, oldest first (R24, R40). -/
  txLog : List (List Byte)
  /-- The transport primitives called so far, oldest first (R43). -/
  busLog : List TransportCall
  /-- `READY`: connection setup has succeeded (R184). -/
  ready : Bool
  /-- The response wires as the last operation left them (R18, R52). -/
  resp : Response
  /-- The OPEN parameters (R4); no step writes them. -/
  params : Params
  /-- The model's own: how many free body bytes have been drawn (log entry 15). -/
  bodyDraws : Nat
  /-- The model's own: what will reach the block, first first (log entry 22). -/
  inbox : List HostEvent
deriving DecidableEq, Repr

/-- Why a step stops. -/
inductive Fault where
  /-- Raised by EXTRACT and RECEIVE, when they read `BUF[index]` and nothing has written it. Safe: R11 says a model
  may do so, and no operation sequence from reset reaches it. -/
  | bufUnwritten (index : Nat)
  /-- Raised by every operation that stores into or scans `BUF`, at an index outside 0..82. Safe: by R31 and R33 no
  rule forms such an index, and no operation sequence from reset reaches it. -/
  | bufIndex (index : Nat)
  /-- Raised by EXTRACT and RECEIVE for an output that does not fit the 85 cells of `OUT`. Safe: by R19 no operation
  sequence from reset reaches it. -/
  | outIndex (length : Nat)
  /-- Raised by `read_one` on an empty queue. Safe: R37 asks for it and says it is unreachable. -/
  | readEmpty
  /-- Raised by `begin_frame` inside a frame, and by `write_one` and `end_frame` outside one or beyond FRAME_CAP
  bytes. Safe: by R39, R40 and R183 no operation sequence from reset reaches it. -/
  | frameProtocol
  /-- Raised by RECEIVE when its loop never ends (R146, R191): a stuck state, since there is no next one. Safe: the
  hardware answers nothing either. -/
  | receiveNeverReturns
deriving DecidableEq, Repr

/-- Why a step is refused. -/
inductive Refusal where
  /-- An instruction that has no meaning yet; raised by `exec` alone. Safe: it claims nothing. -/
  | notModelled (mnemonic : String)
  /-- A reserved operation code; raised by the eight reserved instructions. Safe: R53 and U1 ask the model to refuse. -/
  | reservedCommand (op : BitVec 4)
  /-- A transport operation before connection setup; raised by AVAIL, RDBYTE, EXTRACT, RECEIVE, SEND. Safe: R184
  and U15 give the case no meaning. -/
  | notReady (mnemonic : String)
deriving DecidableEq, Repr

/-- No field driven (R52). -/
def Response.undriven : Response := ⟨none, none, none⟩

/-- The machine with parameters `p` right after reset (R26), before anything has happened outside it (log entry 9).
`LOOK` is unspecified after reset and held at 0 here (log entry 6). -/
def State.resetWith (p : Params) : State where
  buf := []
  cur := 0
  ss := .searching
  mode := p.modeReset
  plf := false
  look := 0#8
  lookV := false
  cks := 0#8
  txCnt := 0
  out := [(0, 0#8)]
  outLen := 0
  body := []
  rxq := []
  dev := []
  devIdle := .silent
  txOpen := none
  txLog := []
  busLog := []
  ready := true
  resp := .undriven
  params := p
  bodyDraws := 0
  inbox := []

/-- The machine right after reset, its OPEN parameters free (R4, R26). -/
def State.reset : State := State.resetWith Config.params

end Sys2Proof.Machine
end

