-- ==== Sys2Proof/Machine/Operands.lean ====
section
/-! DEFINITION. Operand forms and encodings of values: the enumeration codes (R13, R17, R54), the filter band (R5,
R92), hexadecimal digits (R59), SETMODE's operand (R60, R148), SEND's length and body (R51, R130, R132). -/

namespace Sys2Proof.Machine

open Sys2Proof

/-! ### Enumeration codes -/

/-- The code of a Search State, 3 bits (R13). -/
def SearchState.code : SearchState → BitVec 3
  | .searching => 0#3
  | .inBody => 1#3
  | .cks1 => 2#3
  | .cks2 => 3#3
  | .complete => 4#3

/-- The code of an Output Mode, 2 bits (R17). -/
def modeCode : OutputMode → BitVec 2
  | .bodyOnly => 0#2
  | .textVisible => 1#2
  | .fullSentence => 2#2

/-- The Output Mode of a code; code 3 is reserved (R17). -/
def modeOfCode (c : BitVec 2) : Option OutputMode :=
  if c = 0#2 then some .bodyOnly
  else if c = 1#2 then some .textVisible
  else if c = 2#2 then some .fullSentence
  else none

/-- The code of a Result, 2 bits (R54). -/
def ResultCode.code : ResultCode → BitVec 2
  | .valid => 0#2
  | .checksumFailed => 1#2
  | .framingOverrun => 2#2
  | .noData => 3#2

/-- GETMODE's response data, six zero bits and `MODE` (R52, R149). -/
def modeData (m : OutputMode) : Byte := 0#6 ++ modeCode m

/-! ### Bytes -/

/-- `accepted(c)`: the byte lies in 0x20..0x5F (R5, R92). -/
def accepted (c : Byte) : Bool := decide (filterLo ≤ c) && decide (c ≤ filterHi)

/-- `hexdigit(n)`: the ASCII byte of the uppercase hexadecimal digit (R5, R59). -/
def hexdigit (n : BitVec 4) : Byte :=
  if n ≤ 9#4 then 0x30#8 + n.setWidth 8 else 0x37#8 + n.setWidth 8

/-- The first checksum character, of the high nibble (R59, R30 (e)). -/
def hexHi (cks : Byte) : Byte := hexdigit (cks.extractLsb' 4 4)

/-- The second checksum character, of the low nibble (R59, R30 (e)). -/
def hexLo (cks : Byte) : Byte := hexdigit (cks.extractLsb' 0 4)

/-! ### SEND's operands -/

/-- SEND's length `L`: the length the command gives, clamped to SEND_MAX (R51, R60, R130). -/
def sendLength (len : Byte) : Nat := min len.toNat sendMax

/-- How many of the first `n` body bytes the host has not put in `BODY` (log entry 15). -/
def bodyMissing (s : State) (n : Nat) : Nat := n - s.body.length

/-- `BODY[0..n-1]` as SEND reads it (R20, R132): the bytes the host has put there, and a free value for each byte
past them (log entry 15). -/
def bodyBytes (s : State) (n : Nat) : List Byte :=
  s.body.take n ++ (List.range (bodyMissing s n)).map fun k => Config.freeBodyByte (s.bodyDraws + k)

/-- The bytes of the body that are written: a leading `$` is skipped, and the first `*` ends the body (R132). -/
def writtenBody (src : List Byte) : List Byte :=
  (if src.head? = some chDollar then src.tail else src).takeWhile fun b => b != chStar

/-- The trailer: `*`, the two checksum characters, carriage return, line feed (R57, R133). -/
def sentenceTrailer (cks : Byte) : List Byte := [chStar, hexHi cks, hexLo cks, chCr, chLf]

end Sys2Proof.Machine
end

