-- ==== Sys2Proof/Machine/Flags.lean ====
section
/-! DEFINITION. The block's flags and tests: the two Gate flags (R15, R16), the XOR engine (R22, R150) and the
classification of a scanned sentence (R112, R113). It has no carry, zero, sign or overflow flag (R16). -/

namespace Sys2Proof.Machine

open Sys2Proof

/-- A byte is delivered: a line feed sets `PLF`, any other byte leaves it (R15, R76 line 7). -/
def noteDelivered (b : Byte) (s : State) : State :=
  if b = chLf then { s with plf := true } else s

/-- AVAIL stages the byte it fetched and clears the pending flag (R73). -/
def stageLook (b : Byte) (s : State) : State :=
  { s with plf := false, look := b, lookV := true }

/-- The XOR engine run over bytes, from 0x00 (R22, R150). -/
def xorBytes (bs : List Byte) : Byte := bs.foldl (fun acc b => acc ^^^ b) 0#8

/-- The checksum of a sentence image: the XOR of the bytes before the first `*` (R111). -/
def imageChecksum (image : List Byte) : Byte := xorBytes (image.takeWhile fun b => b != chStar)

/-- The framing check: the third byte from the end is `*`, and there is one (R112). -/
def framingOk (image : List Byte) : Bool :=
  decide (3 ≤ image.length) && image[image.length - 3]? == some chStar

/-- The checksum check: the last two bytes are the characters of the checksum (R113). -/
def checksumOk (image : List Byte) (cks : Byte) : Bool :=
  image[image.length - 2]? == some (hexHi cks) && image[image.length - 1]? == some (hexLo cks)

/-- The Result of a scanned image: framing first, then checksum (R112, R113, R166). -/
def classify (image : List Byte) (cks : Byte) : ResultCode :=
  if framingOk image then
    if checksumOk image cks then .valid else .checksumFailed
  else .framingOverrun

/-- The output for an image (R111, R114, R115): the `$` prefix unless BodyOnly, the image less its trailer when Valid
in BodyOnly, the line end in FullSentence. -/
def formatOutput (mode : OutputMode) (res : ResultCode) (image : List Byte) : List Byte :=
  (if mode = .bodyOnly then [] else [chDollar])
    ++ (if res = .valid ∧ mode = .bodyOnly then image.take (image.length - 3) else image)
    ++ (if mode = .fullSentence then [chCr, chLf] else [])

end Sys2Proof.Machine
end

