-- ==== Sys2Proof/Machine/Ops.lean ====
section
/-! DEFINITION. The named operations over the buffers and the transport: byte memories (R21), the store of `feed`
(R93), the output buffer (R19), the transport primitives (R36 to R41), the response (R52). The block takes no
exception: an abnormal outcome is a Result in the response (60_exceptions.md rule R160), and `reportNoData` is the
one shared operation for the Result that EXTRACT and RECEIVE can both raise themselves (R161). -/

namespace Sys2Proof.Machine

open Sys2Proof

/-! ### Byte memories -/

/-- What an index that is not listed reads as: no value (R11, R19, log entries 5 and 7). -/
def unlistedCell : Option Byte := none

/-- Read one cell. -/
def Memory.read : Memory → Nat → Option Byte
  | [], _ => unlistedCell
  | c :: m, a => if c.1 = a then some c.2 else Memory.read m a

/-- Write one cell, keeping the indices strictly rising. -/
def Memory.write : Memory → Nat → Byte → Memory
  | [], a, v => [(a, v)]
  | c :: m, a, v =>
    if a < c.1 then (a, v) :: c :: m
    else if a = c.1 then (a, v) :: m
    else c :: Memory.write m a v

/-- The canonical form: indices strictly rising. No entry equals what an unlisted index reads as, since that is no
value at all. -/
def Memory.wf : Memory → Bool
  | [] => true
  | [_] => true
  | c :: d :: m => decide (c.1 < d.1) && Memory.wf (d :: m)

/-- Every listed index lies below `n`. -/
def Memory.below (n : Nat) (m : Memory) : Bool := m.all fun c => decide (c.1 < n)

/-- The memory that holds `bs` at indices `a`, `a+1`, ... and nothing else. -/
def Memory.ofBytes : Nat → List Byte → Memory
  | _, [] => []
  | a, b :: bs => (a, b) :: Memory.ofBytes (a + 1) bs

/-- Read cell `i` of `BUF`. An index outside 0..82 and a cell nothing has written stop the model (R11, R31). -/
def readBuf (m : Memory) (i : Nat) : Except Fault Byte :=
  if i < capacity then
    match m.read i with
    | some b => .ok b
    | none => .error (.bufUnwritten i)
  else .error (.bufIndex i)

/-- The `n` cells of `BUF` from index `i` on, in order. -/
def readCells (m : Memory) : Nat → Nat → Except Fault (List Byte)
  | 0, _ => .ok []
  | n + 1, i => do
    let b ← readBuf m i
    let bs ← readCells m n (i + 1)
    return b :: bs

/-- The scan: the bytes from index `i` up to the first 0x00, which is not among them (R111). It reads at most `n`
cells, and the caller gives as many as `BUF` has. -/
def scanBuf (m : Memory) : Nat → Nat → Except Fault (List Byte)
  | 0, i => .error (.bufIndex i)
  | n + 1, i => do
    let b ← readBuf m i
    if b = chNul then return []
    let bs ← scanBuf m n (i + 1)
    return b :: bs

/-- The state after `BUF[CUR] <- v; CUR <- CUR + 1` (R93). -/
def State.stored (s : State) (v : Byte) : State :=
  { s with buf := s.buf.write s.cur v, cur := s.cur + 1 }

/-- `store(v)` (R93). -/
def store (v : Byte) (s : State) : Except Fault State :=
  if s.cur < capacity then .ok (s.stored v) else .error (.bufIndex s.cur)

/-- The Framer's state set back at the start of the tail shift (R116 (2)). The cells of `BUF`, now all at or above
`CUR`, are stale and R11 and U7 leave them unspecified; that they keep their bytes is the model's choice (log entry
29). -/
def State.restarted (s : State) : State := { s with ss := .searching, cur := 0 }

/-! ### The output buffer -/

/-- `OUT` holds `bs` and a null after them, `OUT_LEN` is their count, and the cells above hold no value (R19). -/
def State.withOutput (s : State) (bs : List Byte) : State :=
  { s with out := Memory.ofBytes 0 (bs ++ [chNul]), outLen := bs.length }

/-- Write the formatted output into the 85 cells of `OUT` (R19, R115, R193). -/
def writeOut (bs : List Byte) (s : State) : Except Fault State :=
  if bs.length < outCap then .ok (s.withOutput bs) else .error (.outIndex bs.length)

/-- The NoData outcome: `OUT_LEN <- 0`, `OUT[0] <- 0x00`, nothing else (R161, R167). -/
def reportNoData (s : State) : State := s.withOutput []

/-! ### The response -/

/-- The operation ends and drives the response wires (R18, R52). -/
def State.respond (s : State) (r : Response) : State := { s with resp := r }

/-- The response of AVAIL and FEED (R52). -/
def flagResponse (b : Bool) : Response := ⟨some b, none, none⟩

/-- The response of RDBYTE (R52, R77): the data wires are driven only when a byte is delivered. -/
def byteResponse : Option Byte → Response
  | some b => ⟨some true, none, some b⟩
  | none => ⟨some false, none, none⟩

/-- The response of EXTRACT and RECEIVE: the Result, and `OUT_LEN` as data (R52). -/
def resultResponse (res : ResultCode) (s : State) : Response :=
  ⟨none, some res, some (BitVec.ofNat 8 s.outLen)⟩

/-- The response of GETMODE (R52, R149). -/
def modeResponse (m : OutputMode) : Response := ⟨none, none, some (modeData m)⟩

/-! ### The transport: receive side -/

/-- `queued_count()` (R36). -/
def queuedCount (s : State) : Nat := s.rxq.length

/-- The queue's head `b` has been taken, leaving `q`. -/
def State.popped (s : State) (b : Byte) (q : List Byte) : State :=
  { s with rxq := q, busLog := s.busLog ++ [.readOne b] }

/-- `read_one()` (R37). -/
def readOne (s : State) : Except Fault (Byte × State) :=
  match s.rxq with
  | [] => .error .readEmpty
  | b :: q => .ok (b, s.popped b q)

/-- The device has answered `request_block(n)` with the bytes `got` and keeps `rest` as pending output. -/
def State.granted (s : State) (n : Nat) (got : List Byte) (rest : List (List Byte)) : State :=
  { s with rxq := s.rxq ++ got, dev := rest, busLog := s.busLog ++ [.requestBlock n got.length] }

/-- What is left of the device's bursts when `n` bytes of the first are granted. -/
def burstsAfter (n : Nat) (burst : List Byte) (rest : List (List Byte)) : List (List Byte) :=
  if burst.length ≤ n then rest else burst.drop n :: rest

/-- The bursts an idle device answers a request of `n` bytes from (log entry 10). -/
def idleBursts (n : Nat) : DeviceIdle → List (List Byte)
  | .silent => []
  | .filler b => [List.replicate n b]
  | .repeats bursts => bursts

/-- The bursts the device answers a request of `n` bytes from: the listed ones, else those of its idling. -/
def pendingBursts (n : Nat) (s : State) : List (List Byte) :=
  if s.dev = [] then idleBursts n s.devIdle else s.dev

/-- `request_block(n)` (R38): the device grants its next burst, or the first `n` bytes of it; with no burst left it
grants nothing. -/
def requestBlock (n : Nat) (s : State) : State :=
  match pendingBursts n s with
  | [] => s.granted n [] []
  | burst :: rest => s.granted n (burst.take n) (burstsAfter n burst rest)

/-- Read and discard up to `n` queued bytes (R74, the defensive flush). -/
def flushQueue : Nat → State → Except Fault State
  | 0, s => .ok s
  | n + 1, s =>
    if queuedCount s = 0 then .ok s
    else do
      let (_, s1) ← readOne s
      flushQueue n s1

/-! ### The transport: transmit side -/

/-- `begin_frame(DEV_ADDR)` (R39). -/
def beginFrame (s : State) : Except Fault State :=
  match s.txOpen with
  | none => .ok { s with txOpen := some [], busLog := s.busLog ++ [.beginFrame s.params.devAddr] }
  | some _ => .error .frameProtocol

/-- `write_one(b)` (R40). -/
def writeOne (b : Byte) (s : State) : Except Fault State :=
  match s.txOpen with
  | some f =>
    if f.length < s.params.frameCap then
      .ok { s with txOpen := some (f ++ [b]), busLog := s.busLog ++ [.writeOne b] }
    else .error .frameProtocol
  | none => .error .frameProtocol

/-- `end_frame()`, its status discarded (R41). -/
def endFrame (s : State) : Except Fault State :=
  match s.txOpen with
  | some f => .ok { s with txOpen := none, txLog := s.txLog ++ [f], busLog := s.busLog ++ [.endFrame] }
  | none => .error .frameProtocol

/-! ### The end of an operation -/

/-- An operation that has run to its end answers its response; one that has met a fault stops. -/
def finish (r : Except Fault (Response × State)) : Host.Outcome State Fault Refusal :=
  match r with
  | .ok (resp, s) => .next (s.respond resp)
  | .error f => .fault f

/-- An operation that touches the transport has a meaning only after connection setup (R184, U15). -/
def whenReady (mnemonic : String) (s : State) (o : Host.Outcome State Fault Refusal) :
    Host.Outcome State Fault Refusal :=
  if s.ready then o else .refused (.notReady mnemonic)

end Sys2Proof.Machine
end

