-- ==== Sys2Proof/Machine/Gate.lean ====
section
/-! DEFINITION. The Transport Gate: AVAIL and RDBYTE (40_transport_gate.md). -/

namespace Sys2Proof.Machine

open Sys2Proof

/-- Request a block of `n` bytes if the queue is empty (R71 lines 2 and 12). -/
def fillIfEmpty (n : Nat) (s : State) : State :=
  if queuedCount s = 0 then requestBlock n s else s

/-- `available()` (R71): the pending path of R72 to R75, and the normal path. -/
def availOp (s : State) : Except Fault (Bool × State) :=
  if s.plf then
    let s1 := fillIfEmpty 1 s
    if queuedCount s1 = 0 then .ok (false, s1)
    else do
      let (b, s2) ← readOne s1
      if b = chLf then
        let s3 ← flushQueue (queuedCount s2) s2
        return (false, s3)
      else return (true, stageLook b s2)
  else
    let s1 := fillIfEmpty s.params.frameCap s
    .ok (s1.lookV || decide (0 < queuedCount s1), s1)

/-- `read_byte()` (R76, R77): the Lookahead Byte first, then the queue, else nothing. -/
def rdbyteOp (s : State) : Except Fault (Option Byte × State) :=
  if s.lookV then .ok (some s.look, noteDelivered s.look { s with lookV := false })
  else if 0 < queuedCount s then do
    let (b, s1) ← readOne s
    return (some b, noteDelivered b s1)
  else .ok (none, s)

/-- AVAIL (R71). -/
def execAvail (s : State) : Host.Outcome State Fault Refusal :=
  whenReady "AVAIL" s (finish (do
    let (b, s1) ← availOp s
    return (flagResponse b, s1)))

/-- RDBYTE (R76). -/
def execRdbyte (s : State) : Host.Outcome State Fault Refusal :=
  whenReady "RDBYTE" s (finish (do
    let (b, s1) ← rdbyteOp s
    return (byteResponse b, s1)))

end Sys2Proof.Machine
end

