-- ==== Sys2Proof/Machine/Framer.lean ====
section
/-! DEFINITION. The Sentence Framer: FEED (41_sentence_framer.md), and the delivery of one byte through the Gate to
the Framer, which RECEIVE, the drain of EXTRACT and the data level share. -/

namespace Sys2Proof.Machine

open Sys2Proof

/-- The sentence is complete: `SS <- Complete` and the sentinel is stored (R97, R98). -/
def completeSentence (s : State) : Except Fault (Bool × State) := do
  let s1 ← store chNul { s with ss := .complete }
  return (true, s1)

/-- The forced-completion check after a store made in InBody or Cks1 (R98). -/
def forceCheck (s : State) : Except Fault (Bool × State) :=
  if s.cur = forceAt then completeSentence s else .ok (false, s)

/-- `feed(c)` (R91 to R99). -/
def feedOp (c : Byte) (s : State) : Except Fault (Bool × State) :=
  if accepted c then
    match s.ss with
    | .searching => .ok (false, if c = chDollar then { s with ss := .inBody } else s)
    | .inBody => do
      let s1 ← store c s
      forceCheck (if c = chStar then { s1 with ss := .cks1 } else s1)
    | .cks1 => do
      let s1 ← store c s
      forceCheck { s1 with ss := .cks2 }
    | .cks2 => do
      let s1 ← store c s
      completeSentence s1
    | .complete =>
      if s.cur < capacity - 1 then do
        let s1 ← store c s
        return (false, s1)
      else .ok (false, s)
  else .ok (false, s)

/-- Feed bytes in order, the returned bools ignored (R116, 92_eei_decisions.md D28). -/
def feedAll : List Byte → State → Except Fault State
  | [], s => .ok s
  | b :: bs, s => do
    let (_, s1) ← feedOp b s
    feedAll bs s1

/-- One byte is delivered by the Gate (R76 line 7) and fed to the Framer (R91). -/
def deliverByte (b : Byte) (s : State) : Except Fault State := do
  let (_, s1) ← feedOp b (noteDelivered b s)
  return s1

/-- The next byte present is taken by the RDBYTE rule and fed (R117; R145 lines 5 and 6). It is called only when one
is present. -/
def deliverNext (s : State) : Except Fault State := do
  let (b, s1) ← rdbyteOp s
  match b with
  | some b =>
    let (_, s2) ← feedOp b s1
    return s2
  | none => .error .readEmpty

/-- FEED (R91). -/
def execFeed (c : Byte) (s : State) : Host.Outcome State Fault Refusal :=
  finish (do
    let (b, s1) ← feedOp c s
    return (flagResponse b, s1))

end Sys2Proof.Machine
end

