-- ==== Sys2Proof/Machine/DataLevel.lean ====
section
/-! DEFINITION. The data level: what each byte class of 30_encoding.md rule R56 does when a byte of it is delivered.
The Gate notes the delivery (a line feed sets `PLF`, R76) and the Framer is fed (R91). A byte staged in `LOOK` is
delivered before it, as rule R16 asks (log entry 16). -/

namespace Sys2Proof.Machine

open Sys2Proof

/-- One byte arrives at the data level. -/
def arriveByte (b : Byte) (s : State) : Host.Outcome State Fault Refusal :=
  finish (do
    let s1 ← if s.lookV then deliverNext s else .ok s
    let s2 ← deliverByte b s1
    return (.undriven, s2))

/-- LF: sets `PLF`, and the Framer rejects it (R56). -/
def execLf (s : State) : Host.Outcome State Fault Refusal := arriveByte chLf s

/-- DOLLAR: the start marker in Searching, an ordinary byte elsewhere (R56). -/
def execDollar (s : State) : Host.Outcome State Fault Refusal := arriveByte chDollar s

/-- STAR: ends the body in InBody, an ordinary byte elsewhere (R56). -/
def execStar (s : State) : Host.Outcome State Fault Refusal := arriveByte chStar s

/-- ACC_A: an accepted ordinary byte (R56). -/
def execAccA (x : BitVec 5) (s : State) : Host.Outcome State Fault Refusal := arriveByte (0b001#3 ++ x) s

/-- ACC_B: an accepted ordinary byte (R56). -/
def execAccB (x : BitVec 5) (s : State) : Host.Outcome State Fault Refusal := arriveByte (0b010#3 ++ x) s

/-- REJ_CTL: rejected by the Framer (R56, R92). -/
def execRejCtl (x : BitVec 5) (s : State) : Host.Outcome State Fault Refusal := arriveByte (0b000#3 ++ x) s

/-- REJ_LOW: rejected by the Framer (R56, R92). -/
def execRejLow (x : BitVec 5) (s : State) : Host.Outcome State Fault Refusal := arriveByte (0b011#3 ++ x) s

/-- REJ_HIGH: rejected by the Framer (R56, R92). -/
def execRejHigh (x : BitVec 7) (s : State) : Host.Outcome State Fault Refusal := arriveByte (0b1#1 ++ x) s

end Sys2Proof.Machine
end

