-- ==== Sys2Proof/Machine/Extractor.lean ====
section
/-! DEFINITION. The Message Extractor: EXTRACT (42_message_extractor.md). -/

namespace Sys2Proof.Machine

open Sys2Proof

/-- How many bytes can be delivered without a block request: the staged one and the queued ones (R117). -/
def presentCount (s : State) : Nat := (if s.lookV then 1 else 0) + queuedCount s

/-- The drain: deliver up to `n` bytes, until none is present (R117). -/
def drainQueue : Nat → State → Except Fault State
  | 0, s => .ok s
  | n + 1, s =>
    if s.lookV ∨ 0 < queuedCount s then do
      let s1 ← deliverNext s
      drainQueue n s1
    else .ok s

/-- The tail: `BUF[p+1..e-1]`, with `p` the length of the scanned image and `e` the cursor (R116 (1)). -/
def tailBytes (p : Nat) (s : State) : Except Fault (List Byte) :=
  readCells s.buf (s.cur - (p + 1)) (p + 1)

/-- The tail shift and the drain (R116, R117): the tail is read, the Framer restarts, the tail is fed, then whatever
is still queued. -/
def tailShift (p : Nat) (s : State) : Except Fault State := do
  let tail ← tailBytes p s
  let s1 ← feedAll tail s.restarted
  drainQueue (presentCount s1) s1

/-- `extract(out_buffer)` (R110 to R118). -/
def extractOp (s : State) : Except Fault (ResultCode × State) :=
  if s.ss = .complete then do
    let image ← scanBuf s.buf capacity 0
    let cks := imageChecksum image
    let res := classify image cks
    let s1 ← writeOut (formatOutput s.mode res image) { s with cks := cks }
    let s2 ← tailShift image.length s1
    return (res, s2)
  else .ok (.noData, reportNoData s)

/-- EXTRACT (R118). -/
def execExtract (s : State) : Host.Outcome State Fault Refusal :=
  whenReady "EXTRACT" s (finish (do
    let (res, s1) ← extractOp s
    return (resultResponse res s1, s1)))

end Sys2Proof.Machine
end

