-- ==== Sys2Proof/Machine/Public.lean ====
section
/-! DEFINITION. The other public operations: RECEIVE, SETMODE, GETMODE (44_public_operations.md). -/

namespace Sys2Proof.Machine

open Sys2Proof

/-- RECEIVE's loop, at most `n` times round (R145). It ends the model's run when `n` rounds do not end the loop;
`receiveBound` rounds always do unless the loop is endless (R146, log entry 12). -/
def receiveLoop : Nat → State → Except Fault (ResultCode × State)
  | 0, _ => .error .receiveNeverReturns
  | n + 1, s =>
    if s.ss = .complete then extractOp s
    else do
      let (more, s1) ← availOp s
      if more then
        let s2 ← deliverNext s1
        receiveLoop n s2
      else return (.noData, reportNoData s1)

/-- How many bytes some bursts hold. -/
def burstBytes (bursts : List (List Byte)) : Nat := (bursts.map List.length).sum

/-- How many bytes the idle device gives before it gives the same again. -/
def idlePeriod : DeviceIdle → Nat
  | .silent => 0
  | .filler _ => 1
  | .repeats bursts => burstBytes bursts

/-- How many periods of the idle device decide whether the loop ends. Two periods that move neither the Framer nor,
between them, `PLF` repeat for ever, and the Framer moves at most once for each cell of `BUF` and once for the `$`
(log entry 12). -/
def decidingPeriods : Nat := 2 * capacity + 8

/-- Enough rounds for any loop that ends: one for each byte staged, queued or listed, then the periods that decide, and
two more (log entry 12). -/
def receiveBound (s : State) : Nat :=
  presentCount s + burstBytes s.dev + decidingPeriods * idlePeriod s.devIdle + 2

/-- RECEIVE (R145). -/
def execReceive (s : State) : Host.Outcome State Fault Refusal :=
  whenReady "RECEIVE" s (finish (do
    let (res, s1) ← receiveLoop (receiveBound s) s
    return (resultResponse res s1, s1)))

/-- SETMODE (R148): a reserved code leaves `MODE`. -/
def execSetmode (code : BitVec 2) (s : State) : Host.Outcome State Fault Refusal :=
  finish (.ok (.undriven, { s with mode := (modeOfCode code).getD s.mode }))

/-- GETMODE (R149). -/
def execGetmode (s : State) : Host.Outcome State Fault Refusal :=
  finish (.ok (modeResponse s.mode, s))

end Sys2Proof.Machine
end

