-- ==== Sys2Proof/Machine/Reserved.lean ====
section
/-! DEFINITION. The reserved operation codes. Rule R53 (30_encoding.md): "A model should *refuse* such a command (it
errs toward unprovable) rather than give it a meaning" (93_implementation_defined.md U1, log entry 17). -/

namespace Sys2Proof.Machine

open Sys2Proof

/-- A reserved operation code is refused (R53, U1). -/
def refuseReserved (op : BitVec 4) : Host.Outcome State Fault Refusal := .refused (.reservedCommand op)

/-- Operation code 0x0 (R53). -/
def execReserved0 (_s : State) : Host.Outcome State Fault Refusal := refuseReserved 0x0#4

/-- Operation code 0x9 (R53). -/
def execReserved9 (_s : State) : Host.Outcome State Fault Refusal := refuseReserved 0x9#4

/-- Operation code 0xA (R53). -/
def execReservedA (_s : State) : Host.Outcome State Fault Refusal := refuseReserved 0xA#4

/-- Operation code 0xB (R53). -/
def execReservedB (_s : State) : Host.Outcome State Fault Refusal := refuseReserved 0xB#4

/-- Operation code 0xC (R53). -/
def execReservedC (_s : State) : Host.Outcome State Fault Refusal := refuseReserved 0xC#4

/-- Operation code 0xD (R53). -/
def execReservedD (_s : State) : Host.Outcome State Fault Refusal := refuseReserved 0xD#4

/-- Operation code 0xE (R53). -/
def execReservedE (_s : State) : Host.Outcome State Fault Refusal := refuseReserved 0xE#4

/-- Operation code 0xF (R53). -/
def execReservedF (_s : State) : Host.Outcome State Fault Refusal := refuseReserved 0xF#4

end Sys2Proof.Machine
end

