-- ==== Sys2Proof/Machine/Writer.lean ====
section
/-! DEFINITION. The Sentence Writer: SEND (43_sentence_writer.md). -/

namespace Sys2Proof.Machine

open Sys2Proof

/-- `put(b)`, the chunked byte write (R131). -/
def putByte (b : Byte) (s : State) : Except Fault State := do
  let s1 ← writeOne b s
  let s2 := { s1 with txCnt := s1.txCnt + 1 }
  if s2.txCnt = s2.params.frameCap then
    let s3 ← endFrame s2
    beginFrame { s3 with txCnt := 0 }
  else return s2

/-- `put` each byte in order. -/
def putAll : List Byte → State → Except Fault State
  | [], s => .ok s
  | b :: bs, s => do
    let s1 ← putByte b s
    putAll bs s1

/-- `put` each body byte in order, accumulating the checksum (R132 line 8). -/
def putBody : List Byte → State → Except Fault State
  | [], s => .ok s
  | b :: bs, s => do
    let s1 ← putByte b { s with cks := s.cks ^^^ b }
    putBody bs s1

/-- `send(body)` with the length the command gives (R130 to R133). -/
def sendOp (len : Byte) (s : State) : Except Fault State :=
  let n := sendLength len
  if n < 1 then .ok s
  else do
    let src := bodyBytes s n
    let s1 ← beginFrame { s with bodyDraws := s.bodyDraws + bodyMissing s n }
    let s2 ← putByte chDollar { s1 with txCnt := 0 }
    let s3 ← putBody (writtenBody src) { s2 with cks := 0#8 }
    let s4 ← putAll (sentenceTrailer s3.cks) s3
    endFrame s4

/-- SEND (R132). -/
def execSend (len : Byte) (s : State) : Host.Outcome State Fault Refusal :=
  whenReady "SEND" s (finish (do
    let s1 ← sendOp len s
    return (.undriven, s1)))

end Sys2Proof.Machine
end

