-- ==== Sys2Proof/Machine/Dispatch.lean ====
section
/-! DEFINITION. One arm per instruction. -/

namespace Sys2Proof.Machine

open Sys2Proof

def exec (i : Instr) (s : State) : Host.Outcome State Fault Refusal :=
  match i with
  -- the Transport Gate
  | .avail => Sys2Proof.Machine.execAvail s
  | .rdbyte => Sys2Proof.Machine.execRdbyte s
  -- the Sentence Framer
  | .feed c => Sys2Proof.Machine.execFeed c s
  -- the Message Extractor
  | .extract => Sys2Proof.Machine.execExtract s
  -- the public operations, SEND being the Sentence Writer's
  | .receive => Sys2Proof.Machine.execReceive s
  | .send len => Sys2Proof.Machine.execSend len s
  | .setmode code => Sys2Proof.Machine.execSetmode code s
  | .getmode => Sys2Proof.Machine.execGetmode s
  -- the reserved operation codes
  | .reserved0 => Sys2Proof.Machine.execReserved0 s
  | .reserved9 => Sys2Proof.Machine.execReserved9 s
  | .reservedA => Sys2Proof.Machine.execReservedA s
  | .reservedB => Sys2Proof.Machine.execReservedB s
  | .reservedC => Sys2Proof.Machine.execReservedC s
  | .reservedD => Sys2Proof.Machine.execReservedD s
  | .reservedE => Sys2Proof.Machine.execReservedE s
  | .reservedF => Sys2Proof.Machine.execReservedF s
  -- the data level
  | .lf => Sys2Proof.Machine.execLf s
  | .dollar => Sys2Proof.Machine.execDollar s
  | .star => Sys2Proof.Machine.execStar s
  | .accA x => Sys2Proof.Machine.execAccA x s
  | .accB x => Sys2Proof.Machine.execAccB x s
  | .rejCtl x => Sys2Proof.Machine.execRejCtl x s
  | .rejLow x => Sys2Proof.Machine.execRejLow x s
  | .rejHigh x => Sys2Proof.Machine.execRejHigh x s

end Sys2Proof.Machine
end

