-- ==== Sys2Proof/Machine/Environment.lean ====
section
/-! DEFINITION. What reaches the block from outside other than a word: reset (R180 to R182), connection setup (R184),
the host's `BODY` (R20), the device (R24, R38). -/

namespace Sys2Proof.Machine

open Sys2Proof

/-- The reset input, between operations (R26, R180): the block's own state goes to its reset value; the transport,
the device, the frame log and `BODY` are not touched (R182). -/
def resetBlock (s : State) : State :=
  { s with
    buf := []
    cur := 0
    ss := .searching
    mode := s.params.modeReset
    plf := false
    look := 0#8
    lookV := false
    cks := 0#8
    txCnt := 0
    out := [(0, chNul)]
    outLen := 0
    resp := .undriven }

/-- One event of the outside other than a word; a word is `exec`'s affair and changes nothing here. -/
def applyEvent (e : HostEvent) (s : State) : State :=
  match e with
  | .word _ => s
  | .reset => resetBlock s
  | .setup acknowledged => if acknowledged then { s with ready := true } else s
  | .loadBody bytes => { s with body := bytes }
  | .deviceBurst bytes => { s with dev := s.dev ++ [bytes] }
  | .deviceIdle idle => { s with devIdle := idle }

end Sys2Proof.Machine
end

