-- ==== Sys2Proof/Machine/Step.lean ====
section
/-! DEFINITION. One step: the first thing waiting outside the block reaches it. A word is decoded and its operation
runs to its end (00_scope.md rule R6, 20_memory.md rule R43); any other event is applied between operations. With
nothing waiting the block rests (70_reset_and_hazards.md rules R180, R183). There is no program counter (R13). -/

namespace Sys2Proof.Machine

open Sys2Proof

/-- The state in which the first waiting event has been taken. -/
def State.withInbox (s : State) (rest : List HostEvent) : State := { s with inbox := rest }

/-- One step of the machine. -/
def step (s : State) : Host.Outcome State Fault Refusal :=
  match s.inbox with
  | [] => .next s
  | .word w :: rest => exec (decode w) (s.withInbox rest)
  | e :: rest => .next (applyEvent e (s.withInbox rest))

/-- The word of a table row placed first in the inbox, so that the next step runs it; a number that is no word of
the table (`wordOfTable`) changes nothing. -/
def State.withFetchWord (s : State) (nbits w : Nat) : State :=
  match wordOfTable nbits w with
  | .ok iw => s.withInbox (.word iw :: s.inbox)
  | .error _ => s

end Sys2Proof.Machine
end

