-- ==== Sys2Proof/Safety.lean ====
section
/-! DEFINITION. What holds of the machine between operations (10_state.md rule R25, with the bounds of R19, R93, R102,
R163 and R183), and what a safe run is. -/

namespace Sys2Proof.Machine

open Sys2Proof

/-- Cell `i` holds an accepted byte. -/
def cellAccepted (m : Memory) (i : Nat) : Prop := ∃ b, m.read i = some b ∧ accepted b = true

/-- Cell `i` holds `v`. -/
def cellIs (m : Memory) (i : Nat) (v : Byte) : Prop := m.read i = some v

/-- A sentence is being assembled: `SS` is InBody, Cks1 or Cks2. -/
def State.assembling (s : State) : Prop := s.ss = .inBody ∨ s.ss = .cks1 ∨ s.ss = .cks2

/-- `BUF` holds a complete sentence whose sentinel is at `p` (R25 I4, R34). By R102 the index is at least 3 and at
most 81, and by R163 only a forced completion, at 81, lacks the `*` three places before it. -/
structure CompleteAt (s : State) (p : Nat) : Prop where
  pLo : 3 ≤ p
  pHi : p ≤ 81
  sentence : ∀ i, i < p → cellAccepted s.buf i
  sentinel : cellIs s.buf p chNul
  star : cellIs s.buf (p - 3) chStar ∨ p = 81
  curLo : p + 1 ≤ s.cur
  curHi : s.cur ≤ 82
  tail : ∀ i, p < i → i < s.cur → cellAccepted s.buf i

/-- The invariant between operations. -/
structure State.Inv (s : State) : Prop where
  /-- `BUF` is in canonical form, and `BUF[82]` is never written (R93). -/
  bufWf : Memory.wf s.buf = true
  bufBelow : Memory.below 82 s.buf = true
  /-- I1. -/
  curRange : s.cur ≤ 82
  /-- I2. -/
  searchingCur : s.ss = .searching → s.cur = 0
  /-- I3. -/
  assemblingCur : s.assembling → s.cur ≤ 80
  assemblingCells : s.assembling → ∀ i, i < s.cur → cellAccepted s.buf i
  inBodyStars : s.ss = .inBody → ∀ i, i < s.cur → ¬ cellIs s.buf i chStar
  cks1Star : s.ss = .cks1 → 1 ≤ s.cur ∧ cellIs s.buf (s.cur - 1) chStar ∧
    ∀ i, i < s.cur - 1 → ¬ cellIs s.buf i chStar
  cks2Star : s.ss = .cks2 → 2 ≤ s.cur ∧ cellIs s.buf (s.cur - 2) chStar ∧
    ∀ i, i < s.cur - 2 → ¬ cellIs s.buf i chStar
  /-- I4. -/
  completeImage : s.ss = .complete → ∃ p, CompleteAt s p
  /-- I5. -/
  oneFlag : ¬ (s.plf = true ∧ s.lookV = true)
  /-- I6. -/
  lookNotLf : s.lookV = true → s.look ≠ chLf
  /-- `OUT` holds `OUT_LEN` bytes, at most 84, and a null after them (R19). -/
  outShape : ∃ bs, bs.length ≤ 84 ∧ s.out = Memory.ofBytes 0 (bs ++ [chNul]) ∧ s.outLen = bs.length
  /-- No transmission frame is open (R183). -/
  frameClosed : s.txOpen = none

/-- The primitive calls that write one whole frame: `begin_frame`, a `write_one` for each byte, `end_frame`
(R39 to R41, R135). -/
def frameCalls (address : Nat) (f : List Byte) : List TransportCall :=
  .beginFrame address :: f.map .writeOne ++ [.endFrame]

/-- The bytes that are delivered without a block request, in the order they are: the staged one, then the queue
(R76, R117). -/
def presentBytes (s : State) : List Byte := (if s.lookV then [s.look] else []) ++ s.rxq

/-- The data-level instructions (R56). -/
def isDataByte : Instr → Bool
  | .lf => true
  | .dollar => true
  | .star => true
  | .accA _ => true
  | .accB _ => true
  | .rejCtl _ => true
  | .rejLow _ => true
  | .rejHigh _ => true
  | .avail => false
  | .rdbyte => false
  | .feed _ => false
  | .extract => false
  | .receive => false
  | .send _ => false
  | .setmode _ => false
  | .getmode => false
  | .reserved0 => false
  | .reserved9 => false
  | .reservedA => false
  | .reservedB => false
  | .reservedC => false
  | .reservedD => false
  | .reservedE => false
  | .reservedF => false

/-- A safe step: the block goes on, or RECEIVE never answers on an endless device (R146), or the host did what the
spec gives no meaning (R53, R184). No other stop is safe: R160 says the block never traps. -/
def safeOutcome : Host.Outcome State Fault Refusal → Prop
  | .next _ => True
  | .fault f => f = .receiveNeverReturns
  | .refused r => (∃ op, r = .reservedCommand op) ∨ ∃ m, r = .notReady m

/-- A safe state: however many steps are run from it, the run is safe. -/
def Safe (s : State) : Prop := ∀ k, safeOutcome (Host.Core.run Sys2Proof.core k s)

end Sys2Proof.Machine
end

