-- ==== Sys2Proof/Certificates/Slice0/Obligations.lean ====
section
/-! DEFINITION. The statements for the provers. Each says which rules of the spec it formalises; where it rests on a
choice of the spec's own (a decision D<n> of 92_eei_decisions.md) or on one of the model's (a log entry), it says so. -/

open Sys2Proof Sys2Proof.Machine

/-! ### Words -/

/-- Decoding an encoded well-formed instruction gives it back, every decoded instruction is well formed, and encoding
a decoded word gives the word with its ignored bits cleared (30_encoding.md rules R50, R56; the encodings are the
spec's own, D3). -/
def Obligations.DecodeAndEncodeAgree : Prop :=
  (∀ i : Instr, i.wellFormed = true → decode (encode i) = i) ∧
  (∀ w : InputWord, (decode w).wellFormed = true ∧ encode (decode w) = clearIgnored w)

/-- Words written out from the encodings of 30_encoding.md rules R50, R53 and R56. -/
def Obligations.SampleWordsDecode : Prop :=
  decode (.command 0b000101010101#12) = .avail ∧
  decode (.command 0b001011111111#12) = .rdbyte ∧
  decode (.command 0b001100100100#12) = .feed 0x24#8 ∧
  decode (.command 0b010000000000#12) = .extract ∧
  decode (.command 0b010100000001#12) = .receive ∧
  decode (.command 0b011000001011#12) = .send 11#8 ∧
  decode (.command 0b011111111110#12) = .setmode 2#2 ∧
  decode (.command 0b100000000000#12) = .getmode ∧
  decode (.command 0b000011111111#12) = .reserved0 ∧
  decode (.command 0b111100000000#12) = .reservedF ∧
  decode (.data 0b00001010#8) = .lf ∧
  decode (.data 0b00100100#8) = .dollar ∧
  decode (.data 0b00101010#8) = .star ∧
  decode (.data 0b00111111#8) = .accA 0b11111#5 ∧
  decode (.data 0b01000000#8) = .accB 0b00000#5 ∧
  decode (.data 0b00001101#8) = .rejCtl 0b01101#5 ∧
  decode (.data 0b01100001#8) = .rejLow 0b00001#5 ∧
  decode (.data 0b10000000#8) = .rejHigh 0b0000000#7

/-- The decoder picks the table's row: a command word matches exactly one of the sixteen command rows, and a data byte
belongs to the first byte-class row it matches (30_encoding.md rules R50, R53, R56). -/
def Obligations.DecoderPicksTheTableRow : Prop :=
  (∀ w : CommandWord,
    commandRows.filter (fun r => r.matchesWord (.command w)) = [(decode (.command w)).row]) ∧
  (∀ b : Byte, byteRows.find? (fun r => r.matchesWord (.data b)) = some (decode (.data b)).row)

/-- The Framer's filter accepts exactly 0x20..0x5F, which are the four accepted classes (rules R92, R56). -/
def Obligations.FilterIsTheFourAcceptedClasses : Prop :=
  ∀ b : Byte,
    (accepted b = true ↔ 0x20 ≤ b.toNat ∧ b.toNat ≤ 0x5F) ∧
    (accepted b = true ↔
      decodeByte b = .dollar ∨ decodeByte b = .star ∨ (∃ x, decodeByte b = .accA x) ∨ ∃ x, decodeByte b = .accB x)

/-- The two checksum characters of a byte: uppercase hexadecimal digits, high nibble first (30_encoding.md rule R59;
the order and the codes are the spec's general knowledge, U9, U10, log entry 20). -/
def Obligations.ChecksumCharacters : Prop :=
  (∀ n : BitVec 4,
    (n.toNat ≤ 9 → (hexdigit n).toNat = 0x30 + n.toNat) ∧ (10 ≤ n.toNat → (hexdigit n).toNat = 0x37 + n.toNat)) ∧
  (∀ h l : BitVec 4, hexHi (h ++ l) = hexdigit h ∧ hexLo (h ++ l) = hexdigit l)

/-! ### Steps -/

/-- When a word is the first thing waiting, a step decodes it and runs its instruction in the state in which the word
has been taken; so the word of a well-formed instruction runs exactly that instruction (the inbox is the model's own,
log entry 22). -/
def Obligations.StepRunsTheDecodedWord : Prop :=
  (∀ (s : State) (w : InputWord) (rest : List HostEvent),
    s.inbox = .word w :: rest → step s = exec (decode w) (s.withInbox rest)) ∧
  (∀ (s : State) (i : Instr) (rest : List HostEvent),
    i.wellFormed = true → s.inbox = .word (encode i) :: rest → step s = exec i (s.withInbox rest))

/-- Any other event is applied between operations, and with nothing waiting the block rests
(70_reset_and_hazards.md rules R183, R184; the events are the model's own, log entries 18 and 22). -/
def Obligations.StepAppliesOutsideEvents : Prop :=
  ∀ (s : State) (rest : List HostEvent),
    (s.inbox = [] → step s = .next s) ∧
    (s.inbox = .setup true :: rest → step s = .next { s.withInbox rest with ready := true }) ∧
    (s.inbox = .setup false :: rest → step s = .next (s.withInbox rest)) ∧
    (∀ bs, s.inbox = .loadBody bs :: rest → step s = .next { s.withInbox rest with body := bs }) ∧
    (∀ bs, s.inbox = .deviceBurst bs :: rest →
      step s = .next { s.withInbox rest with dev := s.dev ++ [bs] }) ∧
    (∀ d, s.inbox = .deviceIdle d :: rest → step s = .next { s.withInbox rest with devIdle := d })

/-- After reset (10_state.md rule R26, decision D8): the values the spec gives, for every choice of the OPEN
parameters, of which `State.reset` is one. -/
def Obligations.ResetLeavesTheResetValues : Prop :=
  (∀ p : Params,
    (State.resetWith p).ss = .searching ∧ (State.resetWith p).cur = 0 ∧ (State.resetWith p).plf = false ∧
    (State.resetWith p).lookV = false ∧ (State.resetWith p).mode = p.modeReset ∧ (State.resetWith p).outLen = 0 ∧
    (State.resetWith p).out.read 0 = some 0x00#8 ∧ (State.resetWith p).cks = 0x00#8 ∧
    (State.resetWith p).txCnt = 0 ∧ (State.resetWith p).params = p) ∧
  (∃ p : Params, State.reset = State.resetWith p)

/-- The reset input between two operations: the block's own state goes to its reset values, and `RXQ`, the device,
`TXLOG`, the bus and `BODY` are not touched (rules R26, R180, R182, decision D8). -/
def Obligations.ResetInputRestoresTheBlockOnly : Prop :=
  ∀ (s : State) (rest : List HostEvent), s.inbox = .reset :: rest →
    ∃ t, step s = .next t ∧
      t.ss = .searching ∧ t.cur = 0 ∧ t.plf = false ∧ t.lookV = false ∧ t.mode = s.params.modeReset ∧
      t.outLen = 0 ∧ t.out.read 0 = some 0x00#8 ∧ t.cks = 0x00#8 ∧ t.txCnt = 0 ∧
      t = { s with
            buf := t.buf, cur := t.cur, ss := t.ss, mode := t.mode, plf := t.plf, look := t.look, lookV := t.lookV,
            cks := t.cks, txCnt := t.txCnt, out := t.out, outLen := t.outLen, resp := t.resp, inbox := rest }

/-- Reset does not touch the transport: the queue, the device and the bus are as before, no frame is begun or ended and
no setup is made; a byte queued before reset is read by the first AVAIL or RDBYTE after it like any other, and the
Framer discards everything up to the first `$` (70_reset_and_hazards.md rule R182). The reset event is the model's form
of the spec's reset input (log entry 22); the undriven wires are the model's `none` (log entry 13). -/
def Obligations.ResetLeavesTheTransport : Prop :=
  ∀ (s : State) (rest : List HostEvent), s.inbox = .reset :: rest →
    ∃ t, step s = .next t ∧
      t.rxq = s.rxq ∧ t.dev = s.dev ∧ t.devIdle = s.devIdle ∧ t.txOpen = s.txOpen ∧ t.txLog = s.txLog ∧
      t.busLog = s.busLog ∧ t.ready = s.ready ∧
      (s.ready = true → s.rxq ≠ [] → exec .avail t = .next { t with resp := ⟨some true, none, none⟩ }) ∧
      (∀ b q, s.ready = true → s.rxq = b :: q → exec .rdbyte t = .next
        { t with
          rxq := q, plf := decide (b = 0x0A#8), busLog := t.busLog ++ [.readOne b]
          resp := ⟨some true, none, some b⟩ }) ∧
      (∀ c, c ≠ 0x24#8 → exec (.feed c) t = .next { t with resp := ⟨some false, none, none⟩ })

/-- The five operations that touch the transport have no meaning before connection setup (70_reset_and_hazards.md rule
R184, decision D32, 93_implementation_defined.md U15). -/
def Obligations.TransportOperationsNeedSetup : Prop :=
  ∀ s : State, s.ready = false →
    exec .avail s = .refused (.notReady "AVAIL") ∧
    exec .rdbyte s = .refused (.notReady "RDBYTE") ∧
    exec .extract s = .refused (.notReady "EXTRACT") ∧
    exec .receive s = .refused (.notReady "RECEIVE") ∧
    ∀ len, exec (.send len) s = .refused (.notReady "SEND")

/-- The reserved operation codes are refused in every state, and every word with such a code is one of them; a SETMODE
with the reserved mode code leaves `MODE` (30_encoding.md rule R53). -/
def Obligations.ReservedCodesAreRefused : Prop :=
  (∀ s : State,
    exec .reserved0 s = .refused (.reservedCommand 0x0#4) ∧
    exec .reserved9 s = .refused (.reservedCommand 0x9#4) ∧
    exec .reservedA s = .refused (.reservedCommand 0xA#4) ∧
    exec .reservedB s = .refused (.reservedCommand 0xB#4) ∧
    exec .reservedC s = .refused (.reservedCommand 0xC#4) ∧
    exec .reservedD s = .refused (.reservedCommand 0xD#4) ∧
    exec .reservedE s = .refused (.reservedCommand 0xE#4) ∧
    exec .reservedF s = .refused (.reservedCommand 0xF#4)) ∧
  (∀ (s : State) (w : CommandWord), opField w = 0x0#4 ∨ 0x9#4 ≤ opField w →
    exec (decode (.command w)) s = .refused (.reservedCommand (opField w))) ∧
  (∀ s : State, ∃ t, exec (.setmode 3#2) s = .next t ∧ t.mode = s.mode)

/-! ### The Transport Gate -/

/-- AVAIL, pending path, the byte inspected is not a line feed (40_transport_gate.md rules R72, R73): a single-byte
request if the queue is empty, none otherwise; the head of the queue is taken, whatever else it is; the pending flag
is cleared, the byte staged, true returned; nothing else changes. The layout of the response is the spec's D3, its
undriven wires the model's `none` (log entry 13), the log of calls the model's (log entry 14). -/
def Obligations.AvailStagesDataFetchedEarly : Prop :=
  ∀ (s u : State) (b : Byte) (q : List Byte), s.ready = true → s.plf = true →
    u = (if s.rxq = [] then requestBlock 1 s else s) → u.rxq = b :: q → b ≠ 0x0A#8 →
    exec .avail s = .next
      { u with
        plf := false, look := b, lookV := true, rxq := q, busLog := u.busLog ++ [.readOne b]
        resp := ⟨some true, none, none⟩ }

/-- AVAIL, pending path, the byte inspected is a second line feed (40_transport_gate.md rules R72, R74): every queued
byte is read and discarded, `PLF` stays 1, `LOOK` and `LOOK_V` stay, false is returned. -/
def Obligations.AvailFlushesOnSecondLineFeed : Prop :=
  ∀ (s u : State) (q : List Byte), s.ready = true → s.plf = true →
    u = (if s.rxq = [] then requestBlock 1 s else s) → u.rxq = 0x0A#8 :: q →
    exec .avail s = .next
      { u with
        rxq := [], busLog := u.busLog ++ .readOne 0x0A#8 :: q.map .readOne, plf := true
        resp := ⟨some false, none, none⟩ }

/-- AVAIL where it fetches nothing, and on its normal path (40_transport_gate.md section 2; the spec's decisions D6,
D9, D10, D11). Pending and still nothing queued: false, no state of the block changed. Not pending: a full block is
requested if the queue is empty, whether or not a byte is staged, and the answer is whether a byte is present. -/
def Obligations.AvailWithoutFetchedByte : Prop :=
  ∀ s u : State, s.ready = true →
    (s.plf = true → u = (if s.rxq = [] then requestBlock 1 s else s) → u.rxq = [] →
      exec .avail s = .next { u with resp := ⟨some false, none, none⟩ }) ∧
    (s.plf = false → u = (if s.rxq = [] then requestBlock s.params.frameCap s else s) →
      exec .avail s = .next { u with resp := ⟨some (s.lookV || decide (u.rxq ≠ [])), none, none⟩ })

/-- `request_block(n)` (20_memory.md rule R38; decision D25; how the model holds the device is log entry 10): the device
grants its next listed burst, or the first `n` bytes of it, and keeps the rest; with none listed it grants nothing, or
`n` copies of its filler byte, or it begins the bursts it repeats again. What it grants, at most `n` bytes, goes to the
tail of the queue, and nothing else changes. -/
def Obligations.RequestBlockAppendsFromTheDevice : Prop :=
  ∀ (s : State) (n : Nat),
    (∀ burst rest, s.dev = burst :: rest → requestBlock n s =
      { s with
        rxq := s.rxq ++ burst.take n, dev := if burst.length ≤ n then rest else burst.drop n :: rest
        busLog := s.busLog ++ [.requestBlock n (burst.take n).length] }) ∧
    (s.dev = [] → s.devIdle = .silent ∨ s.devIdle = .repeats [] →
      requestBlock n s = { s with busLog := s.busLog ++ [.requestBlock n 0] }) ∧
    (∀ b, s.dev = [] → s.devIdle = .filler b → requestBlock n s =
      { s with rxq := s.rxq ++ List.replicate n b, busLog := s.busLog ++ [.requestBlock n n] }) ∧
    (∀ burst rest, s.dev = [] → s.devIdle = .repeats (burst :: rest) → requestBlock n s =
      { s with
        rxq := s.rxq ++ burst.take n, dev := if burst.length ≤ n then rest else burst.drop n :: rest
        busLog := s.busLog ++ [.requestBlock n (burst.take n).length] }) ∧
    ∃ got : List Byte, got.length ≤ n ∧ (requestBlock n s).rxq = s.rxq ++ got ∧
      (s.dev ≠ [] → s.dev.flatten = got ++ (requestBlock n s).dev.flatten)

/-- AVAIL answers in every state after setup, and touches neither `BUF`, `CUR`, `SS`, `MODE`, `OUT` nor anything on the
transmit side (40_transport_gate.md section 2). -/
def Obligations.AvailAnswersAndItsFrame : Prop :=
  ∀ s : State, s.ready = true →
    ∃ t, exec .avail s = .next t ∧ t.resp.flag ≠ none ∧ t.resp.result = none ∧ t.resp.data = none ∧
      (t.resp.flag = some true → presentBytes t ≠ []) ∧
      t = { s with
            plf := t.plf, look := t.look, lookV := t.lookV, rxq := t.rxq, dev := t.dev, busLog := t.busLog
            resp := t.resp }

/-- RDBYTE delivers the staged byte first, without touching the queue, else the head of the queue; a delivered line
feed sets `PLF` and another byte leaves it; no block is requested and nothing else changes (40_transport_gate.md rule
R76). -/
def Obligations.RdbyteDeliversTheNextByte : Prop :=
  ∀ s : State, s.ready = true →
    (s.lookV = true → exec .rdbyte s = .next
      { s with lookV := false, plf := s.plf || decide (s.look = 0x0A#8), resp := ⟨some true, none, some s.look⟩ }) ∧
    (∀ b q, s.lookV = false → s.rxq = b :: q → exec .rdbyte s = .next
      { s with
        rxq := q, plf := s.plf || decide (b = 0x0A#8), busLog := s.busLog ++ [.readOne b]
        resp := ⟨some true, none, some b⟩ })

/-- RDBYTE with nothing to deliver changes no state (40_transport_gate.md section 3; decision D12). The undriven data
wires are the model's `none`, log entry 13. -/
def Obligations.RdbyteWithNothingPresent : Prop :=
  ∀ s : State, s.ready = true → s.lookV = false → s.rxq = [] →
    exec .rdbyte s = .next { s with resp := ⟨some false, none, none⟩ }

/-! ### The Sentence Framer -/

/-- A byte outside 0x20..0x5F changes nothing, in every Search State (41_sentence_framer.md rule R92). -/
def Obligations.FeedRejectedByteChangesNothing : Prop :=
  ∀ (s : State) (c : Byte), (c.toNat < 0x20 ∨ 0x5F < c.toNat) →
    exec (.feed c) s = .next { s with resp := ⟨some false, none, none⟩ }

/-- In Searching a `$` leads to InBody and any other byte is discarded; `BUF` and `CUR` are unchanged
(41_sentence_framer.md rule R94). The layout of the response is the spec's D3, its undriven wires the model's `none`
(log entry 13). -/
def Obligations.FeedInSearching : Prop :=
  ∀ (s : State) (c : Byte), s.ss = .searching →
    (c = 0x24#8 → exec (.feed c) s = .next { s with ss := .inBody, resp := ⟨some false, none, none⟩ }) ∧
    (c ≠ 0x24#8 → exec (.feed c) s = .next { s with resp := ⟨some false, none, none⟩ })

/-- In InBody and Cks1 an accepted byte is stored; `*` ends the body, and any byte is the first checksum character;
the store that makes `CUR` 81 forces completion, with a sentinel (41_sentence_framer.md section 2; decision D14). -/
def Obligations.FeedStoresAndForcesCompletion : Prop :=
  ∀ (s : State) (c : Byte), s.ss = .inBody ∨ s.ss = .cks1 → accepted c = true → s.cur ≤ 80 →
    (s.cur ≠ 80 → exec (.feed c) s = .next
      { s with
        buf := s.buf.write s.cur c, cur := s.cur + 1
        ss := if s.ss = .cks1 then .cks2 else if c = 0x2A#8 then .cks1 else .inBody
        resp := ⟨some false, none, none⟩ }) ∧
    (s.cur = 80 → exec (.feed c) s = .next
      { s with
        buf := (s.buf.write 80 c).write 81 0x00#8, cur := 82, ss := .complete
        resp := ⟨some true, none, none⟩ })

/-- In Cks2 an accepted byte is stored as the second checksum character, the sentinel follows it, the cursor moves past
both, and the sentence is Complete (41_sentence_framer.md section 2; decision D13). -/
def Obligations.FeedCompletesASentence : Prop :=
  ∀ (s : State) (c : Byte), s.ss = .cks2 → accepted c = true → s.cur ≤ 80 →
    exec (.feed c) s = .next
      { s with
        buf := (s.buf.write s.cur c).write (s.cur + 1) 0x00#8, cur := s.cur + 2, ss := .complete
        resp := ⟨some true, none, none⟩ }

/-- In Complete an accepted byte is appended while `CUR` is below 82, and dropped at 82 (41_sentence_framer.md section
2; decision D15). -/
def Obligations.FeedAppendsTheTail : Prop :=
  ∀ (s : State) (c : Byte), s.ss = .complete → accepted c = true → s.cur ≤ 82 →
    (s.cur < 82 → exec (.feed c) s = .next
      { s with buf := s.buf.write s.cur c, cur := s.cur + 1, resp := ⟨some false, none, none⟩ }) ∧
    (s.cur = 82 → exec (.feed c) s = .next { s with resp := ⟨some false, none, none⟩ })

/-- FEED answers whenever the invariant holds; it returns true exactly when this call moves the state to Complete; it
writes nothing but `BUF`, `CUR`, `SS` and the response, and of `BUF` nothing but the cell at the cursor and, when it
completes a sentence, the cell after it (41_sentence_framer.md sections 1 and 3). -/
def Obligations.FeedReturnsTrueExactlyOnCompletion : Prop :=
  ∀ (s : State) (c : Byte), s.Inv →
    ∃ t, exec (.feed c) s = .next t ∧
      (t.resp = ⟨some true, none, none⟩ ↔ s.ss ≠ .complete ∧ t.ss = .complete) ∧
      (t.resp = ⟨some false, none, none⟩ ↔ ¬ (s.ss ≠ .complete ∧ t.ss = .complete)) ∧
      t = { s with buf := t.buf, cur := t.cur, ss := t.ss, resp := t.resp } ∧
      (∀ a, a ≠ s.cur → (a ≠ s.cur + 1 ∨ t.resp.flag = some false) → t.buf.read a = s.buf.read a)

/-- The transition table (41_sentence_framer.md section 3): the successor of every Search State under every byte, where
the byte is stored, and where the forced-completion check, which the store that makes `CUR` 81 meets, replaces the
successor by Complete and makes FEED return true. The sentinels, the cursor after a forced completion, its true answer
and the byte dropped at `CUR` 82 are the spec's decisions D13, D14 and D15. -/
def Obligations.FeedFollowsTheTransitionTable : Prop :=
  ∀ (s : State) (c : Byte), s.Inv → ∃ t, exec (.feed c) s = .next t ∧
    (accepted c = false → t.ss = s.ss ∧ t.buf = s.buf) ∧
    (accepted c = true →
      (s.ss = .searching → t.ss = (if c = 0x24#8 then .inBody else .searching) ∧ t.buf = s.buf) ∧
      (s.ss = .inBody → t.buf.read s.cur = some c ∧
        t.ss = (if t.cur = 82 then .complete else if c = 0x2A#8 then .cks1 else .inBody) ∧
        (t.cur = 82 ↔ s.cur + 1 = 81)) ∧
      (s.ss = .cks1 → t.buf.read s.cur = some c ∧ t.ss = (if t.cur = 82 then .complete else .cks2) ∧
        (t.cur = 82 ↔ s.cur + 1 = 81)) ∧
      (s.ss = .cks2 → t.buf.read s.cur = some c ∧ t.buf.read (s.cur + 1) = some 0x00#8 ∧ t.ss = .complete) ∧
      (s.ss = .complete → t.ss = .complete ∧ (s.cur < 82 → t.buf.read s.cur = some c) ∧ (s.cur = 82 → t.buf = s.buf))) ∧
    (t.resp.flag = some true ↔ s.ss ≠ .complete ∧ t.ss = .complete)

/-- Bytes outside 0x20..0x5F spliced into any input are invisible: feeding a sequence does what feeding its accepted
bytes does (41_sentence_framer.md rule R92, the property it quotes). -/
def Obligations.RejectedBytesAreInvisible : Prop :=
  ∀ (bs : List Byte) (s : State), feedAll bs s = feedAll (bs.filter accepted) s

/-- A sentence completed by force is never Valid nor ChecksumFailed: EXTRACT right after it answers FramingOverrun
(41_sentence_framer.md section 2, 42_message_extractor.md section 7). -/
def Obligations.ForcedCompletionIsFramingOverrun : Prop :=
  ∀ (s t : State) (c : Byte), s.Inv → s.ready = true → s.ss = .inBody ∨ s.ss = .cks1 → s.cur = 80 →
    accepted c = true → exec (.feed c) s = .next t →
    ∃ u, exec .extract t = .next u ∧ u.resp.result = some .framingOverrun

/-! ### The Message Extractor -/

/-- EXTRACT out of turn: NoData, `OUT` empty, nothing else (42_message_extractor.md section 1; decision D16). -/
def Obligations.ExtractOutOfTurn : Prop :=
  ∀ s : State, s.ready = true → s.ss ≠ .complete →
    ∃ t, exec .extract s = .next t ∧ t.resp = ⟨none, some .noData, some 0#8⟩ ∧ t.outLen = 0 ∧
      t.out.read 0 = some 0x00#8 ∧ t = { s with out := t.out, outLen := t.outLen, resp := t.resp }

/-- EXTRACT of a complete sentence: the image is what `BUF` holds before the sentinel; the checksum is the XOR of its
bytes before the first `*`; the Result and the output are those of the table of 42_message_extractor.md section 6
(sections 2 to 6; decisions D17, D18, D26); the transmit side, `MODE` and the device are not touched. -/
def Obligations.ExtractResultAndOutput : Prop :=
  ∀ (s : State) (p : Nat), s.Inv → s.ready = true → s.ss = .complete → CompleteAt s p →
    ∃ (image o : List Byte) (res : ResultCode) (t : State),
      image.length = p ∧ (∀ i, i < p → s.buf.read i = image[i]?) ∧
      exec .extract s = .next t ∧
      t.cks = (image.takeWhile (fun b => b != 0x2A#8)).foldl (fun acc b => acc ^^^ b) 0x00#8 ∧
      (res = .framingOverrun ↔ image[p - 3]? ≠ some 0x2A#8) ∧
      (res = .valid ↔ image[p - 3]? = some 0x2A#8 ∧ image[p - 2]? = some (hexHi t.cks) ∧
        image[p - 1]? = some (hexLo t.cks)) ∧
      res ≠ .noData ∧
      (s.mode = .bodyOnly → res = .valid → o = image.take (p - 3)) ∧
      (s.mode = .bodyOnly → res ≠ .valid → o = image) ∧
      (s.mode = .textVisible → o = 0x24#8 :: image) ∧
      (s.mode = .fullSentence → o = 0x24#8 :: image ++ [0x0D#8, 0x0A#8]) ∧
      t.outLen = o.length ∧ (∀ i, i < o.length → t.out.read i = o[i]?) ∧ t.out.read o.length = some 0x00#8 ∧
      t.resp = ⟨none, some res, some (BitVec.ofNat 8 o.length)⟩ ∧
      t = { s with
            out := t.out, outLen := t.outLen, cks := t.cks, buf := t.buf, cur := t.cur, ss := t.ss, plf := t.plf
            lookV := t.lookV, rxq := t.rxq, busLog := t.busLog, resp := t.resp }

/-- In BodyOnly the last three bytes are dropped from the output when the result is Valid, and only then: otherwise
everything copied stays in `OUT`, the trailer included, after the `$` in the other modes (42_message_extractor.md rule
R114). -/
def Obligations.TrailerIsDroppedOnlyFromValidBodies : Prop :=
  ∀ (s : State) (p : Nat), s.Inv → s.ready = true → s.ss = .complete → CompleteAt s p →
    ∃ t, exec .extract s = .next t ∧
      (s.mode = .bodyOnly → t.resp.result = some .valid →
        t.outLen = p - 3 ∧ ∀ i, i < p - 3 → t.out.read i = s.buf.read i) ∧
      (s.mode = .bodyOnly → t.resp.result ≠ some .valid →
        t.outLen = p ∧ ∀ i, i < p → t.out.read i = s.buf.read i) ∧
      (s.mode ≠ .bodyOnly → ∀ i, i < p → i + 1 < t.outLen ∧ t.out.read (i + 1) = s.buf.read i)

/-- EXTRACT's tail shift and drain: the Framer restarts in Searching with the cursor at 0, then is fed the tail as it
stood in `BUF` between the sentinel and the cursor, then every byte present, the staged one first; a line feed among
those sets `PLF`; the queue ends empty and no block is requested (42_message_extractor.md section 5; decisions D19,
D20, D28). -/
def Obligations.ExtractShiftsTheTailAndDrains : Prop :=
  ∀ (s : State) (p : Nat), s.Inv → s.ready = true → s.ss = .complete → CompleteAt s p →
    ∃ (tail : List Byte) (t u : State),
      tail.length = s.cur - (p + 1) ∧ (∀ k, k < tail.length → s.buf.read (p + 1 + k) = tail[k]?) ∧
      exec .extract s = .next t ∧
      feedAll (tail ++ presentBytes s) { s with ss := .searching, cur := 0 } = .ok u ∧
      t.buf = u.buf ∧ t.cur = u.cur ∧ t.ss = u.ss ∧
      t.plf = (s.plf || (presentBytes s).contains 0x0A#8) ∧ t.lookV = false ∧ t.rxq = [] ∧
      t.busLog = s.busLog ++ s.rxq.map .readOne

/-- The tail may be read in place: after `k` of its bytes have been fed again, cell `p+1+k` still holds the byte it
held before the re-feeding began (20_memory.md section 4). -/
def Obligations.TailMayBeReadInPlace : Prop :=
  ∀ (s t : State) (p k : Nat) (tail : List Byte), s.Inv → s.ss = .complete → CompleteAt s p →
    tail.length = s.cur - (p + 1) → (∀ j, j < tail.length → s.buf.read (p + 1 + j) = tail[j]?) → k < tail.length →
    feedAll (tail.take k) { s with ss := .searching, cur := 0 } = .ok t →
    t.buf.read (p + 1 + k) = s.buf.read (p + 1 + k)

/-- FramingOverrun is answered only after a forced completion (60_exceptions.md section 1): the image then has 81 bytes,
the byte three places before its end is not `*`, and the output has that length; and a sentence that the second
checksum character completes is not answered so, also one that ends at the last cell (the sentinel's place and the
forced completion are decisions D13 and D14). -/
def Obligations.FramingOverrunOnlyAfterForcedCompletion : Prop :=
  (∀ s t : State, s.Inv → s.ready = true → exec .extract s = .next t → t.resp.result = some .framingOverrun →
    CompleteAt s 81 ∧ s.buf.read 78 ≠ some 0x2A#8 ∧
    t.outLen = (match s.mode with | .bodyOnly => 81 | .textVisible => 82 | .fullSentence => 84)) ∧
  (∀ (s : State) (c : Byte), s.Inv → s.ready = true → s.ss = .cks2 → accepted c = true →
    ∃ t u, exec (.feed c) s = .next t ∧ t.resp.flag = some true ∧ exec .extract t = .next u ∧
      (u.resp.result = some .valid ∨ u.resp.result = some .checksumFailed))

/-- One corrupted body byte that does not become `*` fails the checksum: an image that is Valid, with one body byte
replaced by a different byte, neither of them `*`, is ChecksumFailed (42_message_extractor.md section 7, conflict C9). -/
def Obligations.CorruptedByteFailsTheChecksum : Prop :=
  ∀ (pre post : List Byte) (b c h l : Byte), b ≠ c → b ≠ 0x2A#8 → c ≠ 0x2A#8 → 0x2A#8 ∉ pre → 0x2A#8 ∉ post →
    classify (pre ++ b :: post ++ [0x2A#8, h, l]) (imageChecksum (pre ++ b :: post ++ [0x2A#8, h, l])) = .valid →
    classify (pre ++ c :: post ++ [0x2A#8, h, l]) (imageChecksum (pre ++ c :: post ++ [0x2A#8, h, l])) =
      .checksumFailed

/-! ### The Sentence Writer -/

/-- SEND of an empty body does nothing (43_sentence_writer.md section on R130; the command's `arg` is the length,
decision D23). -/
def Obligations.SendOfNothing : Prop :=
  ∀ s : State, s.ready = true → exec (.send 0#8) s = .next { s with resp := ⟨none, none, none⟩ }

/-- SEND of a body of `n` bytes, `arg` being `min(n, 255)`: the first 77 are looked at, a leading `$` is skipped, the
first `*` ends the body; the sentence is `$`, those bytes, `*`, the two characters of their XOR, carriage return, line
feed; it goes out as full frames and a last one that is not full, which may be empty; `CKS` is the XOR, `TXCNT` the
length of the last frame; the calls are those of the frames; nothing else changes (43_sentence_writer.md; decisions
D22, D23, D24, D26). -/
def Obligations.SendWritesTheFramedSentence : Prop :=
  ∀ s : State, s.ready = true → s.txOpen = none → s.body ≠ [] →
    ∃ (src out sentence last : List Byte) (full : List (List Byte)) (cks : Byte) (t : State),
      src = s.body.take 77 ∧
      out = (if src.head? = some 0x24#8 then src.tail else src).takeWhile (fun b => b != 0x2A#8) ∧
      cks = out.foldl (fun acc b => acc ^^^ b) 0x00#8 ∧
      sentence = 0x24#8 :: out ++ [0x2A#8, hexHi cks, hexLo cks, 0x0D#8, 0x0A#8] ∧
      exec (.send (BitVec.ofNat 8 (min s.body.length 255))) s = .next t ∧
      full.length = sentence.length / s.params.frameCap ∧ (∀ f ∈ full, f.length = s.params.frameCap) ∧
      last.length = sentence.length % s.params.frameCap ∧ full.flatten ++ last = sentence ∧
      t = { s with
            cks := cks, txCnt := last.length, txLog := s.txLog ++ full ++ [last]
            busLog := s.busLog ++ (full ++ [last]).flatMap (frameCalls s.params.devAddr)
            resp := ⟨none, none, none⟩ }

/-- SEND answers for every `arg`, also one past the bytes the host has put in `BODY` (the free bytes then are the
model's, log entry 15), and touches no receive state (43_sentence_writer.md). -/
def Obligations.SendAnswersAndItsFrame : Prop :=
  ∀ (s : State) (len : Byte), s.ready = true → s.txOpen = none →
    ∃ (t : State) (frames : List (List Byte)), exec (.send len) s = .next t ∧ t.txLog = s.txLog ++ frames ∧
      (∀ f ∈ frames, f.length ≤ s.params.frameCap) ∧
      t = { s with
            cks := t.cks, txCnt := t.txCnt, txLog := t.txLog, busLog := t.busLog, bodyDraws := t.bodyDraws
            resp := ⟨none, none, none⟩ }

/-- The round trip (44_public_operations.md section 2): a body of 1 to 77 accepted bytes without `*`, not beginning
with `$`, is sent; the bytes of the frames, fed to a Framer that is in Searching, complete a sentence, and EXTRACT in
BodyOnly answers Valid with the body. -/
def Obligations.SentBodyComesBack : Prop :=
  ∀ s : State, s.Inv → s.ready = true → s.ss = .searching → s.mode = .bodyOnly →
    1 ≤ s.body.length → s.body.length ≤ 77 → (∀ b ∈ s.body, accepted b = true) → 0x2A#8 ∉ s.body →
    s.body.head? ≠ some 0x24#8 →
    ∃ (t u v : State) (frames : List (List Byte)),
      exec (.send (BitVec.ofNat 8 s.body.length)) s = .next t ∧ t.txLog = s.txLog ++ frames ∧
      feedAll frames.flatten t = .ok u ∧
      exec .extract u = .next v ∧ v.resp = ⟨none, some .valid, some (BitVec.ofNat 8 s.body.length)⟩ ∧
      v.outLen = s.body.length ∧ (∀ i, i < s.body.length → v.out.read i = s.body[i]?) ∧
      v.out.read s.body.length = some 0x00#8

/-! ### RECEIVE -/

/-- RECEIVE is its loop (44_public_operations.md section 1; decision D21): a Complete sentence is extracted, with no
transport call; AVAIL answering false ends it with NoData and an empty `OUT`; otherwise RDBYTE delivers, FEED is given
the byte, and RECEIVE goes on from there. -/
def Obligations.ReceiveIsItsLoop : Prop :=
  ∀ s : State, s.ready = true →
    (s.ss = .complete → exec .receive s = exec .extract s) ∧
    (∀ a, s.ss ≠ .complete → exec .avail s = .next a → a.resp.flag = some false →
      ∃ t, exec .receive s = .next t ∧ t.resp = ⟨none, some .noData, some 0#8⟩ ∧ t.outLen = 0 ∧
        t.out.read 0 = some 0x00#8 ∧ t = { a with out := t.out, outLen := t.outLen, resp := t.resp }) ∧
    (∀ a b c d, s.ss ≠ .complete → exec .avail s = .next a → a.resp.flag = some true →
      exec .rdbyte a = .next b → b.resp.data = some c → exec (.feed c) b = .next d →
      exec .receive s = exec .receive d)

/-- RECEIVE answers on a device that falls silent, or idles on line feeds in whatever bursts, once its listed output is
used up (44_public_operations.md section 1; such an end of the device's output is the assumption the spec asks for, and
the way it is listed is the model's, log entry 10). -/
def Obligations.ReceiveAnswersOnceTheDeviceIsIdle : Prop :=
  ∀ s : State, s.Inv → s.ready = true →
    s.devIdle = .silent ∨ s.devIdle = .filler 0x0A#8 ∨
      (∃ bursts, s.devIdle = .repeats bursts ∧ ∀ b ∈ bursts.flatten, b = 0x0A#8) →
    ∃ t, exec .receive s = .next t ∧ t.resp.result ≠ none ∧ t.resp.data = some (BitVec.ofNat 8 t.outLen)

/-- When RECEIVE is found not to return, it does not: no number of rounds of its loop ends it (44_public_operations.md
section 1; how many rounds the model tries is log entry 12). -/
def Obligations.ReceiveHangIsGenuine : Prop :=
  ∀ s : State, exec .receive s = .fault .receiveNeverReturns →
    ∀ n, receiveLoop n s = .error .receiveNeverReturns

/-- RECEIVE does not return, while no sentence has begun, on a device that repeats for ever one byte that is neither a
line feed nor `$`, nor on one that repeats any bursts, none empty, among whose bytes, with those queued and listed
before them, there is no `$` and no line feed next to a line feed, such as `x` and a line feed in turn
(44_public_operations.md section 1, 70_reset_and_hazards.md section 3; how the device is held is log entry 10). -/
def Obligations.ReceiveHangsOnAnEndlessStream : Prop :=
  (∀ (s : State) (b : Byte), s.ready = true → s.ss = .searching → s.dev = [] → s.devIdle = .filler b →
    s.lookV = false → (∀ c ∈ s.rxq, c = b) → b ≠ 0x0A#8 → b ≠ 0x24#8 →
    exec .receive s = .fault .receiveNeverReturns) ∧
  (∀ (s : State) (bursts : List (List Byte)) (stream : List Byte), s.ready = true → s.ss = .searching →
    s.lookV = false → s.devIdle = .repeats bursts → bursts ≠ [] → [] ∉ s.dev → [] ∉ bursts →
    stream = s.rxq ++ s.dev.flatten ++ bursts.flatten ++ bursts.flatten →
    0x24#8 ∉ stream → ¬ [0x0A#8, 0x0A#8] <:+: stream → (s.plf = true → stream.head? ≠ some 0x0A#8) →
    exec .receive s = .fault .receiveNeverReturns)

/-- What RECEIVE leaves unchanged: `MODE`, `BODY`, the whole transmit side, the connection and the parameters
(44_public_operations.md section 1). -/
def Obligations.ReceiveFrame : Prop :=
  ∀ s t : State, exec .receive s = .next t →
    t = { s with
          buf := t.buf, cur := t.cur, ss := t.ss, plf := t.plf, look := t.look, lookV := t.lookV, cks := t.cks
          out := t.out, outLen := t.outLen, rxq := t.rxq, dev := t.dev, busLog := t.busLog, resp := t.resp }

/-! ### The Output Mode -/

/-- SETMODE writes `MODE` and nothing else; code 3 leaves it (44_public_operations.md section 3; decision D27). -/
def Obligations.SetmodeWritesMode : Prop :=
  ∀ s : State,
    exec (.setmode 0#2) s = .next { s with mode := .bodyOnly, resp := ⟨none, none, none⟩ } ∧
    exec (.setmode 1#2) s = .next { s with mode := .textVisible, resp := ⟨none, none, none⟩ } ∧
    exec (.setmode 2#2) s = .next { s with mode := .fullSentence, resp := ⟨none, none, none⟩ } ∧
    exec (.setmode 3#2) s = .next { s with resp := ⟨none, none, none⟩ }

/-- GETMODE is operation 0x8, has no operand, returns the code of `MODE` in a byte and changes no state; right after
reset it returns MODE_RESET (44_public_operations.md rule R149). The mode codes are the spec's D4, the undriven wires
the model's `none` (log entry 13). -/
def Obligations.GetmodeReturnsMode : Prop :=
  (∀ w : CommandWord, opField w = 0x8#4 → decode (.command w) = .getmode) ∧
  (∀ s : State, exec .getmode s = .next
    { s with
      resp := ⟨none, none, some (match s.mode with
        | .bodyOnly => 0x00#8 | .textVisible => 0x01#8 | .fullSentence => 0x02#8)⟩ }) ∧
  (∀ p : Params, ∃ t, exec .getmode (State.resetWith p) = .next t ∧ t.resp.data = some (modeData p.modeReset))

/-! ### The data level -/

/-- A byte of a rejected class changes nothing, and a line feed sets `PLF` and nothing else (30_encoding.md section 3;
that a data byte is an instruction of its own, with no response, is the model's, log entry 16). -/
def Obligations.RejectedDataBytes : Prop :=
  ∀ s : State, s.lookV = false →
    exec .lf s = .next { s with plf := true, resp := ⟨none, none, none⟩ } ∧
    (∀ x : BitVec 5, (Instr.rejCtl x).wellFormed = true →
      exec (.rejCtl x) s = .next { s with resp := ⟨none, none, none⟩ }) ∧
    (∀ x : BitVec 5, exec (.rejLow x) s = .next { s with resp := ⟨none, none, none⟩ }) ∧
    (∀ x : BitVec 7, exec (.rejHigh x) s = .next { s with resp := ⟨none, none, none⟩ })

/-- A byte of an accepted class does what FEED does with it, and drives no response: the Gate does nothing to it
(30_encoding.md section 3; log entry 16). -/
def Obligations.AcceptedDataBytes : Prop :=
  ∀ s : State, s.Inv → s.lookV = false →
    (∃ u, exec (.feed 0x24#8) s = .next u ∧ exec .dollar s = .next { u with resp := ⟨none, none, none⟩ }) ∧
    (∃ u, exec (.feed 0x2A#8) s = .next u ∧ exec .star s = .next { u with resp := ⟨none, none, none⟩ }) ∧
    (∀ x : BitVec 5, ∃ u, exec (.feed (0b001#3 ++ x)) s = .next u ∧
      exec (.accA x) s = .next { u with resp := ⟨none, none, none⟩ }) ∧
    (∀ x : BitVec 5, ∃ u, exec (.feed (0b010#3 ++ x)) s = .next u ∧
      exec (.accB x) s = .next { u with resp := ⟨none, none, none⟩ })

/-- A staged byte is delivered before a data byte (10_state.md section 4; log entry 16): the data byte then does what
it does once RDBYTE has delivered the staged byte and FEED has been given it. -/
def Obligations.StagedByteGoesFirst : Prop :=
  ∀ (s a b : State) (i : Instr), isDataByte i = true → s.ready = true → s.lookV = true →
    exec .rdbyte s = .next a → exec (.feed s.look) a = .next b → exec i s = exec i b

/-! ### The whole machine -/

/-- Which operations can change what (10_state.md sections 2 to 8, 44_public_operations.md section 4): `SS`, `CUR` and
`BUF` only FEED, EXTRACT, RECEIVE and a data byte; `MODE` only SETMODE; `PLF` and `LOOK_V` only the Gate's operations
and those that contain them; `OUT` only EXTRACT and RECEIVE; the queue only an operation that reads or requests; the
frame log and `TXCNT` only SEND; `CKS` only EXTRACT, RECEIVE and SEND; only the Gate's operations, those that contain
them and SEND call a primitive (20_memory.md section 4); `BODY`, the connection and the parameters none, and none
leaves a frame open or closed that was not (70_reset_and_hazards.md section 1). -/
def Obligations.OnlyTheseOperationsChangeWhat : Prop :=
  ∀ (i : Instr) (s t : State), exec i s = .next t →
    (t.ss ≠ s.ss ∨ t.cur ≠ s.cur ∨ t.buf ≠ s.buf →
      (∃ c, i = .feed c) ∨ i = .extract ∨ i = .receive ∨ isDataByte i = true) ∧
    (t.mode ≠ s.mode → ∃ c, i = .setmode c) ∧
    (t.plf ≠ s.plf ∨ t.lookV ≠ s.lookV →
      i = .avail ∨ i = .rdbyte ∨ i = .extract ∨ i = .receive ∨ isDataByte i = true) ∧
    (t.look ≠ s.look → i = .avail ∨ i = .receive) ∧
    (t.out ≠ s.out ∨ t.outLen ≠ s.outLen → i = .extract ∨ i = .receive) ∧
    (t.rxq ≠ s.rxq → i = .avail ∨ i = .rdbyte ∨ i = .extract ∨ i = .receive) ∧
    (t.dev ≠ s.dev → i = .avail ∨ i = .receive) ∧
    (t.txLog ≠ s.txLog ∨ t.txCnt ≠ s.txCnt ∨ t.bodyDraws ≠ s.bodyDraws → ∃ len, i = .send len) ∧
    (t.cks ≠ s.cks → i = .extract ∨ i = .receive ∨ ∃ len, i = .send len) ∧
    (t.busLog ≠ s.busLog → i = .avail ∨ i = .rdbyte ∨ i = .extract ∨ i = .receive ∨ ∃ len, i = .send len) ∧
    t.txOpen = s.txOpen ∧
    t.body = s.body ∧ t.params = s.params ∧ t.ready = s.ready ∧ t.devIdle = s.devIdle ∧ t.inbox = s.inbox

/-- The invariant holds after reset, whatever the OPEN parameters are (10_state.md section 9). -/
def Obligations.ResetMeetsTheInvariant : Prop := State.reset.Inv ∧ ∀ p : Params, (State.resetWith p).Inv

/-- Every step keeps the invariant (10_state.md section 9, I1 to I7; I7 is in the types). -/
def Obligations.EveryStepKeepsTheInvariant : Prop :=
  ∀ s t : State, s.Inv → step s = .next t → t.Inv

/-- From a state that meets the invariant no run stops, but for a RECEIVE that never returns and for what the spec
gives no meaning: the block never traps (60_exceptions.md section 1, 20_memory.md sections 1 and 3). -/
def Obligations.InvariantStatesAreSafe : Prop := ∀ s : State, s.Inv → Safe s

/-- RECEIVE's loop on any endless stream of bytes, also one that never repeats: while no sentence has begun, and with no
`$` and no line feed next to a line feed in the stream, the loop is still going round after `n` rounds, for every `n`,
whatever sizes the device grants its first `n` bytes or more in (44_public_operations.md section 1,
70_reset_and_hazards.md section 3). -/
def Obligations.ReceiveRunsOnAnyEndlessStream : Prop :=
  ∀ (stream : Nat → Byte), (∀ k, stream k ≠ 0x24#8) → (∀ k, ¬ (stream k = 0x0A#8 ∧ stream (k + 1) = 0x0A#8)) →
    ∀ (s : State) (n m : Nat), s.ss = .searching → s.lookV = false → s.plf = false → s.rxq = [] → [] ∉ s.dev →
      s.dev.flatten = (List.range m).map stream → n ≤ m → receiveLoop n s = .error .receiveNeverReturns
end

