-- ==== Sys2Proof/Laws/Memory.lean ====
section
/-! SUPPORT. The laws of byte memories: read after write, the canonical form, and the bounds on indices. -/

namespace Sys2Proof.Machine

open Sys2Proof

theorem Memory.read_write_same (m : Memory) (a : Nat) (v : Byte) : (m.write a v).read a = some v := by
  induction m with
  | nil => simp [Memory.write, Memory.read]
  | cons c m ih =>
    unfold Memory.write
    split
    · simp [Memory.read]
    · split
      · simp [Memory.read]
      · next _ h => simp [Memory.read, Ne.symm h, ih]

theorem Memory.read_write_other (m : Memory) {a b : Nat} (v : Byte) (h : b ≠ a) :
    (m.write a v).read b = m.read b := by
  induction m with
  | nil => simp [Memory.write, Memory.read, Ne.symm h]
  | cons c m ih =>
    unfold Memory.write
    split
    · simp [Memory.read, Ne.symm h]
    · split
      · next _ hc => subst hc; simp [Memory.read, Ne.symm h]
      · simp [Memory.read, ih]

/-- Reading any cell after a write. -/
theorem Memory.read_write (m : Memory) (a b : Nat) (v : Byte) :
    (m.write a v).read b = if b = a then some v else m.read b := by
  split
  · next h => subst h; exact m.read_write_same b v
  · next h => exact m.read_write_other v h

/-- The head index of a memory after a write is the old head's or the written one. -/
theorem Memory.wf_cons_write (c : Host.Cell) (m : Memory) (a : Nat) (v : Byte) (hc : c.1 < a)
    (h : Memory.wf (c :: m) = true) (ih : Memory.wf m = true → Memory.wf (m.write a v) = true) :
    Memory.wf (c :: m.write a v) = true := by
  cases m with
  | nil => simp [Memory.write, Memory.wf, hc]
  | cons d m =>
    simp only [Memory.wf, Bool.and_eq_true, decide_eq_true_eq] at h
    have hw := ih h.2
    unfold Memory.write at hw ⊢
    split
    · next hlt => rw [if_pos hlt] at hw; simp only [Memory.wf, hc, decide_true, Bool.true_and]; exact hw
    · next hlt =>
      rw [if_neg hlt] at hw
      split
      · next heq => rw [if_pos heq] at hw; simp [Memory.wf, hc, hw]
      · next hne => rw [if_neg hne] at hw; simp [Memory.wf, h.1, hw]

/-- A write keeps the canonical form. -/
theorem Memory.wf_write (m : Memory) (a : Nat) (v : Byte) (h : Memory.wf m = true) :
    Memory.wf (m.write a v) = true := by
  induction m with
  | nil => rfl
  | cons c m ih =>
    unfold Memory.write
    split
    · next hlt => simp [Memory.wf, hlt, h]
    · split
      · next _ heq => subst heq; cases m <;> simp_all [Memory.wf]
      · next hlt hne => exact Memory.wf_cons_write c m a v (by omega) h ih

/-- A write below `n` keeps every index below `n`. -/
theorem Memory.below_write (m : Memory) (n a : Nat) (v : Byte) (ha : a < n) (h : Memory.below n m = true) :
    Memory.below n (m.write a v) = true := by
  induction m with
  | nil => simp [Memory.write, Memory.below, ha]
  | cons c m ih =>
    simp only [Memory.below, List.all_cons, Bool.and_eq_true, decide_eq_true_eq] at h ih
    unfold Memory.write
    split
    · simp [Memory.below, ha, h.1]; simpa using h.2
    · split
      · simp [Memory.below, ha]; simpa using h.2
      · simp [Memory.below, h.1]; simpa [Memory.below] using ih h.2

/-- A memory with every index below `n` holds no value from `n` on. -/
theorem Memory.read_of_below (m : Memory) (n a : Nat) (h : Memory.below n m = true) (ha : n ≤ a) :
    m.read a = none := by
  induction m with
  | nil => rfl
  | cons c m ih =>
    simp only [Memory.below, List.all_cons, Bool.and_eq_true, decide_eq_true_eq] at h ih
    have : c.1 ≠ a := by omega
    simp [Memory.read, this, ih h.2]

/-- Reading a memory made of bytes. -/
theorem Memory.read_ofBytes (bs : List Byte) (a i : Nat) :
    (Memory.ofBytes a bs).read i = if a ≤ i then bs[i - a]? else none := by
  induction bs generalizing a with
  | nil => simp [Memory.ofBytes, Memory.read, unlistedCell]
  | cons b bs ih =>
    simp only [Memory.ofBytes, Memory.read, ih]
    by_cases h : a = i
    · subst h; simp
    · by_cases hle : a ≤ i
      · obtain ⟨k, rfl⟩ : ∃ k, i = a + 1 + k := ⟨i - a - 1, by omega⟩
        have h1 : a + 1 + k - a = k + 1 := by omega
        simp [h1, h, hle]
      · have : ¬ a + 1 ≤ i := by omega
        simp [h, hle, this]

/-- A memory made of bytes is canonical. -/
theorem Memory.wf_ofBytes (bs : List Byte) (a : Nat) : Memory.wf (Memory.ofBytes a bs) = true := by
  induction bs generalizing a with
  | nil => rfl
  | cons b bs ih =>
    cases bs with
    | nil => rfl
    | cons c bs => simpa [Memory.ofBytes, Memory.wf] using ih (a + 1)

end Sys2Proof.Machine
end

