-- ==== Sys2Proof/Laws/State.lean ====
section
/-! SUPPORT. One lemma per field of State for each named update of State: the field it writes has its new value, every
other field its old one. All are true by unfolding, and all are simp lemmas, so that no later proof unfolds an update. -/

namespace Sys2Proof.Machine

open Sys2Proof

/-! ### `State.stored` -/

@[simp] theorem State.stored_buf (s : State) (v : Byte) : (s.stored v).buf = s.buf.write s.cur v := rfl
@[simp] theorem State.stored_cur (s : State) (v : Byte) : (s.stored v).cur = s.cur + 1 := rfl
@[simp] theorem State.stored_ss (s : State) (v : Byte) : (s.stored v).ss = s.ss := rfl
@[simp] theorem State.stored_mode (s : State) (v : Byte) : (s.stored v).mode = s.mode := rfl
@[simp] theorem State.stored_plf (s : State) (v : Byte) : (s.stored v).plf = s.plf := rfl
@[simp] theorem State.stored_look (s : State) (v : Byte) : (s.stored v).look = s.look := rfl
@[simp] theorem State.stored_lookV (s : State) (v : Byte) : (s.stored v).lookV = s.lookV := rfl
@[simp] theorem State.stored_cks (s : State) (v : Byte) : (s.stored v).cks = s.cks := rfl
@[simp] theorem State.stored_txCnt (s : State) (v : Byte) : (s.stored v).txCnt = s.txCnt := rfl
@[simp] theorem State.stored_out (s : State) (v : Byte) : (s.stored v).out = s.out := rfl
@[simp] theorem State.stored_outLen (s : State) (v : Byte) : (s.stored v).outLen = s.outLen := rfl
@[simp] theorem State.stored_body (s : State) (v : Byte) : (s.stored v).body = s.body := rfl
@[simp] theorem State.stored_rxq (s : State) (v : Byte) : (s.stored v).rxq = s.rxq := rfl
@[simp] theorem State.stored_dev (s : State) (v : Byte) : (s.stored v).dev = s.dev := rfl
@[simp] theorem State.stored_devIdle (s : State) (v : Byte) : (s.stored v).devIdle = s.devIdle := rfl
@[simp] theorem State.stored_txOpen (s : State) (v : Byte) : (s.stored v).txOpen = s.txOpen := rfl
@[simp] theorem State.stored_txLog (s : State) (v : Byte) : (s.stored v).txLog = s.txLog := rfl
@[simp] theorem State.stored_busLog (s : State) (v : Byte) : (s.stored v).busLog = s.busLog := rfl
@[simp] theorem State.stored_ready (s : State) (v : Byte) : (s.stored v).ready = s.ready := rfl
@[simp] theorem State.stored_resp (s : State) (v : Byte) : (s.stored v).resp = s.resp := rfl
@[simp] theorem State.stored_params (s : State) (v : Byte) : (s.stored v).params = s.params := rfl
@[simp] theorem State.stored_bodyDraws (s : State) (v : Byte) : (s.stored v).bodyDraws = s.bodyDraws := rfl
@[simp] theorem State.stored_inbox (s : State) (v : Byte) : (s.stored v).inbox = s.inbox := rfl

/-! ### `State.restarted` -/

@[simp] theorem State.restarted_buf (s : State) : (s.restarted).buf = s.buf := rfl
@[simp] theorem State.restarted_cur (s : State) : (s.restarted).cur = 0 := rfl
@[simp] theorem State.restarted_ss (s : State) : (s.restarted).ss = .searching := rfl
@[simp] theorem State.restarted_mode (s : State) : (s.restarted).mode = s.mode := rfl
@[simp] theorem State.restarted_plf (s : State) : (s.restarted).plf = s.plf := rfl
@[simp] theorem State.restarted_look (s : State) : (s.restarted).look = s.look := rfl
@[simp] theorem State.restarted_lookV (s : State) : (s.restarted).lookV = s.lookV := rfl
@[simp] theorem State.restarted_cks (s : State) : (s.restarted).cks = s.cks := rfl
@[simp] theorem State.restarted_txCnt (s : State) : (s.restarted).txCnt = s.txCnt := rfl
@[simp] theorem State.restarted_out (s : State) : (s.restarted).out = s.out := rfl
@[simp] theorem State.restarted_outLen (s : State) : (s.restarted).outLen = s.outLen := rfl
@[simp] theorem State.restarted_body (s : State) : (s.restarted).body = s.body := rfl
@[simp] theorem State.restarted_rxq (s : State) : (s.restarted).rxq = s.rxq := rfl
@[simp] theorem State.restarted_dev (s : State) : (s.restarted).dev = s.dev := rfl
@[simp] theorem State.restarted_devIdle (s : State) : (s.restarted).devIdle = s.devIdle := rfl
@[simp] theorem State.restarted_txOpen (s : State) : (s.restarted).txOpen = s.txOpen := rfl
@[simp] theorem State.restarted_txLog (s : State) : (s.restarted).txLog = s.txLog := rfl
@[simp] theorem State.restarted_busLog (s : State) : (s.restarted).busLog = s.busLog := rfl
@[simp] theorem State.restarted_ready (s : State) : (s.restarted).ready = s.ready := rfl
@[simp] theorem State.restarted_resp (s : State) : (s.restarted).resp = s.resp := rfl
@[simp] theorem State.restarted_params (s : State) : (s.restarted).params = s.params := rfl
@[simp] theorem State.restarted_bodyDraws (s : State) : (s.restarted).bodyDraws = s.bodyDraws := rfl
@[simp] theorem State.restarted_inbox (s : State) : (s.restarted).inbox = s.inbox := rfl

/-! ### `State.withOutput` -/

@[simp] theorem State.withOutput_buf (s : State) (bs : List Byte) : (s.withOutput bs).buf = s.buf := rfl
@[simp] theorem State.withOutput_cur (s : State) (bs : List Byte) : (s.withOutput bs).cur = s.cur := rfl
@[simp] theorem State.withOutput_ss (s : State) (bs : List Byte) : (s.withOutput bs).ss = s.ss := rfl
@[simp] theorem State.withOutput_mode (s : State) (bs : List Byte) : (s.withOutput bs).mode = s.mode := rfl
@[simp] theorem State.withOutput_plf (s : State) (bs : List Byte) : (s.withOutput bs).plf = s.plf := rfl
@[simp] theorem State.withOutput_look (s : State) (bs : List Byte) : (s.withOutput bs).look = s.look := rfl
@[simp] theorem State.withOutput_lookV (s : State) (bs : List Byte) : (s.withOutput bs).lookV = s.lookV := rfl
@[simp] theorem State.withOutput_cks (s : State) (bs : List Byte) : (s.withOutput bs).cks = s.cks := rfl
@[simp] theorem State.withOutput_txCnt (s : State) (bs : List Byte) : (s.withOutput bs).txCnt = s.txCnt := rfl
@[simp] theorem State.withOutput_out (s : State) (bs : List Byte) : (s.withOutput bs).out = Memory.ofBytes 0 (bs ++ [chNul]) := rfl
@[simp] theorem State.withOutput_outLen (s : State) (bs : List Byte) : (s.withOutput bs).outLen = bs.length := rfl
@[simp] theorem State.withOutput_body (s : State) (bs : List Byte) : (s.withOutput bs).body = s.body := rfl
@[simp] theorem State.withOutput_rxq (s : State) (bs : List Byte) : (s.withOutput bs).rxq = s.rxq := rfl
@[simp] theorem State.withOutput_dev (s : State) (bs : List Byte) : (s.withOutput bs).dev = s.dev := rfl
@[simp] theorem State.withOutput_devIdle (s : State) (bs : List Byte) : (s.withOutput bs).devIdle = s.devIdle := rfl
@[simp] theorem State.withOutput_txOpen (s : State) (bs : List Byte) : (s.withOutput bs).txOpen = s.txOpen := rfl
@[simp] theorem State.withOutput_txLog (s : State) (bs : List Byte) : (s.withOutput bs).txLog = s.txLog := rfl
@[simp] theorem State.withOutput_busLog (s : State) (bs : List Byte) : (s.withOutput bs).busLog = s.busLog := rfl
@[simp] theorem State.withOutput_ready (s : State) (bs : List Byte) : (s.withOutput bs).ready = s.ready := rfl
@[simp] theorem State.withOutput_resp (s : State) (bs : List Byte) : (s.withOutput bs).resp = s.resp := rfl
@[simp] theorem State.withOutput_params (s : State) (bs : List Byte) : (s.withOutput bs).params = s.params := rfl
@[simp] theorem State.withOutput_bodyDraws (s : State) (bs : List Byte) : (s.withOutput bs).bodyDraws = s.bodyDraws := rfl
@[simp] theorem State.withOutput_inbox (s : State) (bs : List Byte) : (s.withOutput bs).inbox = s.inbox := rfl

/-! ### `State.respond` -/

@[simp] theorem State.respond_buf (s : State) (r : Response) : (s.respond r).buf = s.buf := rfl
@[simp] theorem State.respond_cur (s : State) (r : Response) : (s.respond r).cur = s.cur := rfl
@[simp] theorem State.respond_ss (s : State) (r : Response) : (s.respond r).ss = s.ss := rfl
@[simp] theorem State.respond_mode (s : State) (r : Response) : (s.respond r).mode = s.mode := rfl
@[simp] theorem State.respond_plf (s : State) (r : Response) : (s.respond r).plf = s.plf := rfl
@[simp] theorem State.respond_look (s : State) (r : Response) : (s.respond r).look = s.look := rfl
@[simp] theorem State.respond_lookV (s : State) (r : Response) : (s.respond r).lookV = s.lookV := rfl
@[simp] theorem State.respond_cks (s : State) (r : Response) : (s.respond r).cks = s.cks := rfl
@[simp] theorem State.respond_txCnt (s : State) (r : Response) : (s.respond r).txCnt = s.txCnt := rfl
@[simp] theorem State.respond_out (s : State) (r : Response) : (s.respond r).out = s.out := rfl
@[simp] theorem State.respond_outLen (s : State) (r : Response) : (s.respond r).outLen = s.outLen := rfl
@[simp] theorem State.respond_body (s : State) (r : Response) : (s.respond r).body = s.body := rfl
@[simp] theorem State.respond_rxq (s : State) (r : Response) : (s.respond r).rxq = s.rxq := rfl
@[simp] theorem State.respond_dev (s : State) (r : Response) : (s.respond r).dev = s.dev := rfl
@[simp] theorem State.respond_devIdle (s : State) (r : Response) : (s.respond r).devIdle = s.devIdle := rfl
@[simp] theorem State.respond_txOpen (s : State) (r : Response) : (s.respond r).txOpen = s.txOpen := rfl
@[simp] theorem State.respond_txLog (s : State) (r : Response) : (s.respond r).txLog = s.txLog := rfl
@[simp] theorem State.respond_busLog (s : State) (r : Response) : (s.respond r).busLog = s.busLog := rfl
@[simp] theorem State.respond_ready (s : State) (r : Response) : (s.respond r).ready = s.ready := rfl
@[simp] theorem State.respond_resp (s : State) (r : Response) : (s.respond r).resp = r := rfl
@[simp] theorem State.respond_params (s : State) (r : Response) : (s.respond r).params = s.params := rfl
@[simp] theorem State.respond_bodyDraws (s : State) (r : Response) : (s.respond r).bodyDraws = s.bodyDraws := rfl
@[simp] theorem State.respond_inbox (s : State) (r : Response) : (s.respond r).inbox = s.inbox := rfl

/-! ### `State.popped` -/

@[simp] theorem State.popped_buf (s : State) (b : Byte) (q : List Byte) : (s.popped b q).buf = s.buf := rfl
@[simp] theorem State.popped_cur (s : State) (b : Byte) (q : List Byte) : (s.popped b q).cur = s.cur := rfl
@[simp] theorem State.popped_ss (s : State) (b : Byte) (q : List Byte) : (s.popped b q).ss = s.ss := rfl
@[simp] theorem State.popped_mode (s : State) (b : Byte) (q : List Byte) : (s.popped b q).mode = s.mode := rfl
@[simp] theorem State.popped_plf (s : State) (b : Byte) (q : List Byte) : (s.popped b q).plf = s.plf := rfl
@[simp] theorem State.popped_look (s : State) (b : Byte) (q : List Byte) : (s.popped b q).look = s.look := rfl
@[simp] theorem State.popped_lookV (s : State) (b : Byte) (q : List Byte) : (s.popped b q).lookV = s.lookV := rfl
@[simp] theorem State.popped_cks (s : State) (b : Byte) (q : List Byte) : (s.popped b q).cks = s.cks := rfl
@[simp] theorem State.popped_txCnt (s : State) (b : Byte) (q : List Byte) : (s.popped b q).txCnt = s.txCnt := rfl
@[simp] theorem State.popped_out (s : State) (b : Byte) (q : List Byte) : (s.popped b q).out = s.out := rfl
@[simp] theorem State.popped_outLen (s : State) (b : Byte) (q : List Byte) : (s.popped b q).outLen = s.outLen := rfl
@[simp] theorem State.popped_body (s : State) (b : Byte) (q : List Byte) : (s.popped b q).body = s.body := rfl
@[simp] theorem State.popped_rxq (s : State) (b : Byte) (q : List Byte) : (s.popped b q).rxq = q := rfl
@[simp] theorem State.popped_dev (s : State) (b : Byte) (q : List Byte) : (s.popped b q).dev = s.dev := rfl
@[simp] theorem State.popped_devIdle (s : State) (b : Byte) (q : List Byte) : (s.popped b q).devIdle = s.devIdle := rfl
@[simp] theorem State.popped_txOpen (s : State) (b : Byte) (q : List Byte) : (s.popped b q).txOpen = s.txOpen := rfl
@[simp] theorem State.popped_txLog (s : State) (b : Byte) (q : List Byte) : (s.popped b q).txLog = s.txLog := rfl
@[simp] theorem State.popped_busLog (s : State) (b : Byte) (q : List Byte) : (s.popped b q).busLog = s.busLog ++ [.readOne b] := rfl
@[simp] theorem State.popped_ready (s : State) (b : Byte) (q : List Byte) : (s.popped b q).ready = s.ready := rfl
@[simp] theorem State.popped_resp (s : State) (b : Byte) (q : List Byte) : (s.popped b q).resp = s.resp := rfl
@[simp] theorem State.popped_params (s : State) (b : Byte) (q : List Byte) : (s.popped b q).params = s.params := rfl
@[simp] theorem State.popped_bodyDraws (s : State) (b : Byte) (q : List Byte) : (s.popped b q).bodyDraws = s.bodyDraws := rfl
@[simp] theorem State.popped_inbox (s : State) (b : Byte) (q : List Byte) : (s.popped b q).inbox = s.inbox := rfl

/-! ### `State.granted` -/

@[simp] theorem State.granted_buf (s : State) (n : Nat) (got : List Byte) (rest : List (List Byte)) : (s.granted n got rest).buf = s.buf := rfl
@[simp] theorem State.granted_cur (s : State) (n : Nat) (got : List Byte) (rest : List (List Byte)) : (s.granted n got rest).cur = s.cur := rfl
@[simp] theorem State.granted_ss (s : State) (n : Nat) (got : List Byte) (rest : List (List Byte)) : (s.granted n got rest).ss = s.ss := rfl
@[simp] theorem State.granted_mode (s : State) (n : Nat) (got : List Byte) (rest : List (List Byte)) : (s.granted n got rest).mode = s.mode := rfl
@[simp] theorem State.granted_plf (s : State) (n : Nat) (got : List Byte) (rest : List (List Byte)) : (s.granted n got rest).plf = s.plf := rfl
@[simp] theorem State.granted_look (s : State) (n : Nat) (got : List Byte) (rest : List (List Byte)) : (s.granted n got rest).look = s.look := rfl
@[simp] theorem State.granted_lookV (s : State) (n : Nat) (got : List Byte) (rest : List (List Byte)) : (s.granted n got rest).lookV = s.lookV := rfl
@[simp] theorem State.granted_cks (s : State) (n : Nat) (got : List Byte) (rest : List (List Byte)) : (s.granted n got rest).cks = s.cks := rfl
@[simp] theorem State.granted_txCnt (s : State) (n : Nat) (got : List Byte) (rest : List (List Byte)) : (s.granted n got rest).txCnt = s.txCnt := rfl
@[simp] theorem State.granted_out (s : State) (n : Nat) (got : List Byte) (rest : List (List Byte)) : (s.granted n got rest).out = s.out := rfl
@[simp] theorem State.granted_outLen (s : State) (n : Nat) (got : List Byte) (rest : List (List Byte)) : (s.granted n got rest).outLen = s.outLen := rfl
@[simp] theorem State.granted_body (s : State) (n : Nat) (got : List Byte) (rest : List (List Byte)) : (s.granted n got rest).body = s.body := rfl
@[simp] theorem State.granted_rxq (s : State) (n : Nat) (got : List Byte) (rest : List (List Byte)) : (s.granted n got rest).rxq = s.rxq ++ got := rfl
@[simp] theorem State.granted_dev (s : State) (n : Nat) (got : List Byte) (rest : List (List Byte)) : (s.granted n got rest).dev = rest := rfl
@[simp] theorem State.granted_devIdle (s : State) (n : Nat) (got : List Byte) (rest : List (List Byte)) : (s.granted n got rest).devIdle = s.devIdle := rfl
@[simp] theorem State.granted_txOpen (s : State) (n : Nat) (got : List Byte) (rest : List (List Byte)) : (s.granted n got rest).txOpen = s.txOpen := rfl
@[simp] theorem State.granted_txLog (s : State) (n : Nat) (got : List Byte) (rest : List (List Byte)) : (s.granted n got rest).txLog = s.txLog := rfl
@[simp] theorem State.granted_busLog (s : State) (n : Nat) (got : List Byte) (rest : List (List Byte)) : (s.granted n got rest).busLog = s.busLog ++ [.requestBlock n got.length] := rfl
@[simp] theorem State.granted_ready (s : State) (n : Nat) (got : List Byte) (rest : List (List Byte)) : (s.granted n got rest).ready = s.ready := rfl
@[simp] theorem State.granted_resp (s : State) (n : Nat) (got : List Byte) (rest : List (List Byte)) : (s.granted n got rest).resp = s.resp := rfl
@[simp] theorem State.granted_params (s : State) (n : Nat) (got : List Byte) (rest : List (List Byte)) : (s.granted n got rest).params = s.params := rfl
@[simp] theorem State.granted_bodyDraws (s : State) (n : Nat) (got : List Byte) (rest : List (List Byte)) : (s.granted n got rest).bodyDraws = s.bodyDraws := rfl
@[simp] theorem State.granted_inbox (s : State) (n : Nat) (got : List Byte) (rest : List (List Byte)) : (s.granted n got rest).inbox = s.inbox := rfl

/-! ### `State.withInbox` -/

@[simp] theorem State.withInbox_buf (s : State) (rest : List HostEvent) : (s.withInbox rest).buf = s.buf := rfl
@[simp] theorem State.withInbox_cur (s : State) (rest : List HostEvent) : (s.withInbox rest).cur = s.cur := rfl
@[simp] theorem State.withInbox_ss (s : State) (rest : List HostEvent) : (s.withInbox rest).ss = s.ss := rfl
@[simp] theorem State.withInbox_mode (s : State) (rest : List HostEvent) : (s.withInbox rest).mode = s.mode := rfl
@[simp] theorem State.withInbox_plf (s : State) (rest : List HostEvent) : (s.withInbox rest).plf = s.plf := rfl
@[simp] theorem State.withInbox_look (s : State) (rest : List HostEvent) : (s.withInbox rest).look = s.look := rfl
@[simp] theorem State.withInbox_lookV (s : State) (rest : List HostEvent) : (s.withInbox rest).lookV = s.lookV := rfl
@[simp] theorem State.withInbox_cks (s : State) (rest : List HostEvent) : (s.withInbox rest).cks = s.cks := rfl
@[simp] theorem State.withInbox_txCnt (s : State) (rest : List HostEvent) : (s.withInbox rest).txCnt = s.txCnt := rfl
@[simp] theorem State.withInbox_out (s : State) (rest : List HostEvent) : (s.withInbox rest).out = s.out := rfl
@[simp] theorem State.withInbox_outLen (s : State) (rest : List HostEvent) : (s.withInbox rest).outLen = s.outLen := rfl
@[simp] theorem State.withInbox_body (s : State) (rest : List HostEvent) : (s.withInbox rest).body = s.body := rfl
@[simp] theorem State.withInbox_rxq (s : State) (rest : List HostEvent) : (s.withInbox rest).rxq = s.rxq := rfl
@[simp] theorem State.withInbox_dev (s : State) (rest : List HostEvent) : (s.withInbox rest).dev = s.dev := rfl
@[simp] theorem State.withInbox_devIdle (s : State) (rest : List HostEvent) : (s.withInbox rest).devIdle = s.devIdle := rfl
@[simp] theorem State.withInbox_txOpen (s : State) (rest : List HostEvent) : (s.withInbox rest).txOpen = s.txOpen := rfl
@[simp] theorem State.withInbox_txLog (s : State) (rest : List HostEvent) : (s.withInbox rest).txLog = s.txLog := rfl
@[simp] theorem State.withInbox_busLog (s : State) (rest : List HostEvent) : (s.withInbox rest).busLog = s.busLog := rfl
@[simp] theorem State.withInbox_ready (s : State) (rest : List HostEvent) : (s.withInbox rest).ready = s.ready := rfl
@[simp] theorem State.withInbox_resp (s : State) (rest : List HostEvent) : (s.withInbox rest).resp = s.resp := rfl
@[simp] theorem State.withInbox_params (s : State) (rest : List HostEvent) : (s.withInbox rest).params = s.params := rfl
@[simp] theorem State.withInbox_bodyDraws (s : State) (rest : List HostEvent) : (s.withInbox rest).bodyDraws = s.bodyDraws := rfl
@[simp] theorem State.withInbox_inbox (s : State) (rest : List HostEvent) : (s.withInbox rest).inbox = rest := rfl

end Sys2Proof.Machine
end

