-- ==== Sys2Proof/Laws/Ops.lean ====
section
/-! SUPPORT. What each shared operation over the buffers and the transport can do, said once. A frame is an equation
`t = s with ...` that lists the fields the operation may write; every other field is then unchanged. -/

namespace Sys2Proof.Machine

open Sys2Proof

/-! ### Outcomes -/

/-- A sequence of two operations succeeds when both do. -/
theorem bind_eq_ok {α β : Type} {x : Except Fault α} {f : α → Except Fault β} {b : β} :
    (x >>= f) = .ok b ↔ ∃ a, x = .ok a ∧ f a = .ok b := by
  cases x <;> simp [bind, Except.bind]

@[simp] theorem ok_bind {α β : Type} (a : α) (f : α → Except Fault β) : ((Except.ok a) >>= f) = f a := rfl

@[simp] theorem error_bind {α β : Type} (e : Fault) (f : α → Except Fault β) :
    ((Except.error e : Except Fault α) >>= f) = .error e := rfl

@[simp] theorem pure_eq_ok {α : Type} (a : α) : (pure a : Except Fault α) = .ok a := rfl

theorem finish_next {r : Except Fault (Response × State)} {t : State} :
    finish r = .next t ↔ ∃ resp s, r = .ok (resp, s) ∧ t = s.respond resp := by
  cases r with
  | error f => simp [finish]
  | ok p => obtain ⟨resp, s⟩ := p; simp [finish, eq_comm]

@[simp] theorem finish_ok (resp : Response) (s : State) : finish (.ok (resp, s)) = .next (s.respond resp) := rfl

@[simp] theorem finish_error (f : Fault) : finish (.error f) = .fault f := rfl

@[simp] theorem whenReady_ready {m : String} {s : State} {o : Host.Outcome State Fault Refusal}
    (h : s.ready = true) : whenReady m s o = o := by simp [whenReady, h]

@[simp] theorem whenReady_not {m : String} {s : State} {o : Host.Outcome State Fault Refusal}
    (h : s.ready = false) : whenReady m s o = .refused (.notReady m) := by simp [whenReady, h]

/-- A transport operation answers a next state only after connection setup. -/
theorem whenReady_next {m : String} {s t : State} {o : Host.Outcome State Fault Refusal} :
    whenReady m s o = .next t ↔ s.ready = true ∧ o = .next t := by
  unfold whenReady; split <;> simp_all

/-! ### The store -/

theorem store_ok {v : Byte} {s : State} (h : s.cur < capacity) : store v s = .ok (s.stored v) := by
  simp [store, h]

theorem store_cases {v : Byte} {s t : State} (h : store v s = .ok t) : s.cur < capacity ∧ t = s.stored v := by
  unfold store at h; split at h <;> simp_all

/-- A cell after a store. -/
theorem stored_read (s : State) (v : Byte) (i : Nat) :
    (s.stored v).buf.read i = if i = s.cur then some v else s.buf.read i := by
  simp [Memory.read_write]

/-! ### Reading `BUF` -/

theorem readBuf_ok {m : Memory} {i : Nat} {b : Byte} : readBuf m i = .ok b ↔ i < capacity ∧ m.read i = some b := by
  unfold readBuf
  split
  · cases h : m.read i <;> simp_all
  · simp_all

/-- `readCells` answers exactly when every cell in range holds a value, and then the bytes are those values. -/
theorem readCells_ok {m : Memory} {n i : Nat} {bs : List Byte} :
    readCells m n i = .ok bs ↔ bs.length = n ∧ ∀ k, k < n → i + k < capacity ∧ m.read (i + k) = bs[k]? := by
  induction n generalizing i bs with
  | zero => cases bs <;> simp [readCells]
  | succ n ih =>
    simp only [readCells, bind_eq_ok, readBuf_ok, pure_eq_ok, Except.ok.injEq, ih]
    constructor
    · rintro ⟨b, ⟨hi, hb⟩, cs, ⟨hlen, hcs⟩, rfl⟩
      refine ⟨by simp [hlen], fun k hk => ?_⟩
      cases k with
      | zero => simp [hi, hb]
      | succ k =>
        have := hcs k (by omega)
        rw [show i + 1 + k = i + (k + 1) by omega] at this
        simpa using this
    · rintro ⟨hlen, hall⟩
      cases bs with
      | nil => simp at hlen
      | cons b cs =>
        refine ⟨b, by simpa using hall 0 (by omega), cs, ⟨by simpa using hlen, fun k hk => ?_⟩, rfl⟩
        have := hall (k + 1) (by omega)
        rw [show i + (k + 1) = i + 1 + k by omega] at this
        simpa using this

/-- The scan answers exactly when the cells from `i` on hold non-null bytes up to a null, within `BUF`. -/
theorem scanBuf_ok {m : Memory} {n i : Nat} {bs : List Byte} (hn : i + n = capacity) :
    scanBuf m n i = .ok bs ↔
      i + bs.length < capacity ∧ m.read (i + bs.length) = some chNul ∧
        ∀ k, k < bs.length → m.read (i + k) = bs[k]? ∧ bs[k]? ≠ some chNul := by
  induction n generalizing i bs with
  | zero =>
    simp only [scanBuf]
    constructor
    · intro h; cases h
    · rintro ⟨h, -⟩; omega
  | succ n ih =>
    have hi : i < capacity := by omega
    simp only [scanBuf, bind_eq_ok, readBuf_ok, pure_eq_ok]
    constructor
    · rintro ⟨b, ⟨-, hb⟩, h⟩
      split at h
      · next hz => simp only [Except.ok.injEq] at h; subst h hz; simpa [hb] using hi
      · next hz =>
        simp only [bind_eq_ok, Except.ok.injEq] at h
        obtain ⟨cs, hcs, rfl⟩ := h
        rw [ih (by omega)] at hcs
        obtain ⟨h1, h2, h3⟩ := hcs
        refine ⟨by simp; omega, ?_, fun k hk => ?_⟩
        · simpa [Nat.add_assoc, Nat.add_comm, Nat.add_left_comm] using h2
        · cases k with
          | zero => simp [hb, hz]
          | succ k =>
            have := h3 k (by simpa using hk)
            rw [show i + 1 + k = i + (k + 1) by omega] at this
            simpa using this
    · rintro ⟨h1, h2, h3⟩
      cases bs with
      | nil => exact ⟨chNul, ⟨hi, by simpa using h2⟩, by simp⟩
      | cons b cs =>
        have h0 := h3 0 (by simp)
        refine ⟨b, ⟨hi, by simpa using h0.1⟩, ?_⟩
        rw [if_neg (by simpa using h0.2)]
        simp only [bind_eq_ok, Except.ok.injEq]
        refine ⟨cs, ?_, rfl⟩
        rw [ih (by omega)]
        refine ⟨by simp at h1; omega, ?_, fun k hk => ?_⟩
        · simpa [Nat.add_assoc, Nat.add_comm, Nat.add_left_comm] using h2
        · have := h3 (k + 1) (by simpa using hk)
          rw [show i + (k + 1) = i + 1 + k by omega] at this
          simpa using this

/-! ### The output buffer -/

theorem writeOut_ok {bs : List Byte} {s : State} (h : bs.length < outCap) : writeOut bs s = .ok (s.withOutput bs) := by
  simp [writeOut, h]

theorem writeOut_cases {bs : List Byte} {s t : State} (h : writeOut bs s = .ok t) :
    bs.length < outCap ∧ t = s.withOutput bs := by
  unfold writeOut at h; split at h <;> simp_all

/-- A cell of `OUT` after it is written: the output, then the null, then no value. -/
theorem withOutput_read (s : State) (bs : List Byte) (i : Nat) :
    (s.withOutput bs).out.read i = (bs ++ [chNul])[i]? := by
  simp [Memory.read_ofBytes]

/-! ### The receive queue -/

theorem readOne_cons {s : State} {b : Byte} {q : List Byte} (h : s.rxq = b :: q) :
    readOne s = .ok (b, s.popped b q) := by simp [readOne, h]

theorem readOne_cases {s t : State} {b : Byte} (h : readOne s = .ok (b, t)) :
    ∃ q, s.rxq = b :: q ∧ t = s.popped b q := by
  unfold readOne at h
  cases hq : s.rxq with
  | nil => simp [hq] at h
  | cons c q => simp only [hq, Except.ok.injEq, Prod.mk.injEq] at h; exact ⟨q, by simp [h.1], by simp [← h.1, h.2]⟩

/-- `request_block(n)` appends at most `n` bytes (R38). -/
theorem requestBlock_cases (n : Nat) (s : State) :
    ∃ got rest, requestBlock n s = s.granted n got rest ∧ got.length ≤ n := by
  unfold requestBlock
  cases pendingBursts n s with
  | nil => exact ⟨_, _, rfl, by simp⟩
  | cons burst rest => exact ⟨_, _, rfl, by simp⟩

/-- A device with output listed, or idling with bursts, answers from the first burst (R38, log entry 10). -/
theorem requestBlock_burst {n : Nat} {s : State} {burst : List Byte} {rest : List (List Byte)}
    (h : pendingBursts n s = burst :: rest) :
    requestBlock n s = s.granted n (burst.take n) (burstsAfter n burst rest) := by simp [requestBlock, h]

/-- A device with no output grants nothing (R38). -/
theorem requestBlock_none {n : Nat} {s : State} (h : pendingBursts n s = []) :
    requestBlock n s = s.granted n [] [] := by simp [requestBlock, h]

/-- A request takes what it grants off the front of the bursts it is answered from. -/
theorem burstsAfter_flatten (n : Nat) (burst : List Byte) (rest : List (List Byte)) :
    burst.take n ++ (burstsAfter n burst rest).flatten = burst ++ rest.flatten := by
  unfold burstsAfter
  split
  · next h => rw [List.take_of_length_le h]
  · rw [List.flatten_cons, ← List.append_assoc, List.take_append_drop]

/-- What a granted block leaves unchanged. -/
theorem requestBlock_frame (n : Nat) (s : State) :
    requestBlock n s =
      { s with
        rxq := (requestBlock n s).rxq
        dev := (requestBlock n s).dev
        busLog := (requestBlock n s).busLog } := by
  obtain ⟨got, rest, h, -⟩ := requestBlock_cases n s
  rw [h]; rfl

theorem fillIfEmpty_frame (n : Nat) (s : State) :
    fillIfEmpty n s =
      { s with
        rxq := (fillIfEmpty n s).rxq
        dev := (fillIfEmpty n s).dev
        busLog := (fillIfEmpty n s).busLog } := by
  unfold fillIfEmpty
  split
  · exact requestBlock_frame n s
  · rfl

/-- A non-empty queue is left as it is, with no request (R72). -/
theorem fillIfEmpty_nonempty (n : Nat) (s : State) (h : s.rxq ≠ []) : fillIfEmpty n s = s := by
  simp [fillIfEmpty, queuedCount, h]

/-- The queue has been read to its end and every byte of it discarded. -/
def State.flushed (s : State) : State := { s with rxq := [], busLog := s.busLog ++ s.rxq.map .readOne }

theorem State.flushed_popped {s : State} {b : Byte} {q : List Byte} (h : s.rxq = b :: q) :
    (s.popped b q).flushed = s.flushed := by simp [State.flushed, State.popped, h]

theorem State.flushed_empty {s : State} (h : s.rxq = []) : s.flushed = s := by
  cases s; simp_all [State.flushed]

/-- The flush empties the queue and reads every byte of it (R74). -/
theorem flushQueue_eq (n : Nat) (s : State) (h : queuedCount s ≤ n) : flushQueue n s = .ok s.flushed := by
  induction n generalizing s with
  | zero =>
    have : s.rxq = [] := by simpa [queuedCount] using h
    rw [State.flushed_empty this, flushQueue]
  | succ n ih =>
    cases hq : s.rxq with
    | nil => simp [flushQueue, queuedCount, hq, State.flushed_empty hq]
    | cons b q =>
      have := ih (s.popped b q) (by simpa [queuedCount, hq] using h)
      rw [State.flushed_popped hq] at this
      rw [flushQueue, if_neg (by simp [queuedCount, hq]), readOne_cons hq]
      exact this

/-! ### The Gate -/

/-- AVAIL's operation always answers. -/
theorem availOp_ok (s : State) : ∃ b t, availOp s = .ok (b, t) := by
  unfold availOp
  split
  · simp only
    split
    · exact ⟨_, _, rfl⟩
    · next h =>
      cases hq : (fillIfEmpty 1 s).rxq with
      | nil => simp [queuedCount, hq] at h
      | cons b q =>
        rw [readOne_cons hq]
        simp only [ok_bind]
        split
        · rw [flushQueue_eq _ _ (Nat.le_refl _)]; exact ⟨_, _, rfl⟩
        · exact ⟨_, _, rfl⟩
  · exact ⟨_, _, rfl⟩

/-- What AVAIL can do, path by path (R71 to R75). -/
theorem availOp_cases {s t : State} {r : Bool} (h : availOp s = .ok (r, t)) :
    (s.plf = false ∧ t = fillIfEmpty s.params.frameCap s ∧ r = (t.lookV || decide (0 < queuedCount t))) ∨
    (s.plf = true ∧ (fillIfEmpty 1 s).rxq = [] ∧ r = false ∧ t = fillIfEmpty 1 s) ∨
    (s.plf = true ∧ ∃ q, (fillIfEmpty 1 s).rxq = chLf :: q ∧ r = false ∧
      t = (fillIfEmpty 1 s).flushed) ∨
    (s.plf = true ∧ ∃ b q, b ≠ chLf ∧ (fillIfEmpty 1 s).rxq = b :: q ∧ r = true ∧
      t = stageLook b ((fillIfEmpty 1 s).popped b q)) := by
  unfold availOp at h
  split at h
  · next hp =>
    simp only at h
    split at h
    · next hq =>
      simp only [Except.ok.injEq, Prod.mk.injEq] at h
      exact .inr (.inl ⟨hp, by simpa [queuedCount] using hq, h.1.symm, h.2.symm⟩)
    · next hq0 =>
      cases hq : (fillIfEmpty 1 s).rxq with
      | nil => simp [queuedCount, hq] at hq0
      | cons b q =>
        rw [readOne_cons hq] at h
        simp only [ok_bind] at h
        split at h
        · next hb =>
          rw [flushQueue_eq _ _ (Nat.le_refl _)] at h
          simp only [ok_bind, pure_eq_ok, Except.ok.injEq, Prod.mk.injEq] at h
          refine .inr (.inr (.inl ⟨hp, q, by rw [hb], h.1.symm, ?_⟩))
          rw [← h.2, State.flushed_popped hq]
        · next hb =>
          simp only [pure_eq_ok, Except.ok.injEq, Prod.mk.injEq] at h
          exact .inr (.inr (.inr ⟨hp, b, q, hb, rfl, h.1.symm, h.2.symm⟩))
  · next hp =>
    simp only [Except.ok.injEq, Prod.mk.injEq] at h
    exact .inl ⟨by simpa using hp, h.2.symm, by rw [← h.2]; exact h.1.symm⟩

/-- What AVAIL leaves unchanged (R71). -/
theorem availOp_frame {s t : State} {r : Bool} (h : availOp s = .ok (r, t)) :
    t = { s with
          plf := t.plf
          look := t.look
          lookV := t.lookV
          rxq := t.rxq
          dev := t.dev
          busLog := t.busLog } := by
  obtain ⟨-, ht, -⟩ | ⟨-, -, -, ht⟩ | ⟨-, q, -, -, ht⟩ | ⟨-, b, q, -, -, -, ht⟩ := availOp_cases h
  · rw [ht, fillIfEmpty_frame]
  · rw [ht, fillIfEmpty_frame]
  · rw [ht, fillIfEmpty_frame]; rfl
  · rw [ht, fillIfEmpty_frame]; rfl

@[simp] theorem noteDelivered_lf (s : State) : noteDelivered chLf s = { s with plf := true } := by simp [noteDelivered]

theorem noteDelivered_other {b : Byte} (s : State) (h : b ≠ chLf) : noteDelivered b s = s := by
  simp [noteDelivered, h]

/-- A delivery writes `PLF` and nothing else. -/
theorem noteDelivered_frame (b : Byte) (s : State) :
    noteDelivered b s = { s with plf := decide (b = chLf) || s.plf } := by
  unfold noteDelivered; split <;> simp_all

/-- What RDBYTE can do (R76, R77). -/
theorem rdbyteOp_cases (s : State) :
    (s.lookV = true ∧ rdbyteOp s = .ok (some s.look, noteDelivered s.look { s with lookV := false })) ∨
    (s.lookV = false ∧ ∃ b q, s.rxq = b :: q ∧ rdbyteOp s = .ok (some b, noteDelivered b (s.popped b q))) ∨
    (s.lookV = false ∧ s.rxq = [] ∧ rdbyteOp s = .ok (none, s)) := by
  unfold rdbyteOp
  cases hl : s.lookV with
  | true => exact .inl ⟨rfl, by simp⟩
  | false =>
    cases hq : s.rxq with
    | nil => exact .inr (.inr ⟨rfl, rfl, by simp [queuedCount, hq]⟩)
    | cons b q => exact .inr (.inl ⟨rfl, b, q, rfl, by simp [queuedCount, hq, readOne]⟩)

/-- What RDBYTE leaves unchanged (R76). -/
theorem rdbyteOp_frame {s t : State} {r : Option Byte} (h : rdbyteOp s = .ok (r, t)) :
    t = { s with plf := t.plf, lookV := t.lookV, rxq := t.rxq, busLog := t.busLog } := by
  obtain ⟨-, h'⟩ | ⟨-, b, q, -, h'⟩ | ⟨-, -, h'⟩ := rdbyteOp_cases s <;>
    rw [h'] at h <;> simp only [Except.ok.injEq, Prod.mk.injEq] at h <;> rw [← h.2]
  · rw [noteDelivered_frame]
  · rw [noteDelivered_frame]; rfl

/-! ### The transmit frames -/

theorem beginFrame_ok {s : State} (h : s.txOpen = none) :
    beginFrame s = .ok { s with txOpen := some [], busLog := s.busLog ++ [.beginFrame s.params.devAddr] } := by
  simp [beginFrame, h]

theorem writeOne_ok {s : State} {f : List Byte} (b : Byte) (h : s.txOpen = some f)
    (hc : f.length < s.params.frameCap) :
    writeOne b s = .ok { s with txOpen := some (f ++ [b]), busLog := s.busLog ++ [.writeOne b] } := by
  simp [writeOne, h, hc]

theorem endFrame_ok {s : State} {f : List Byte} (h : s.txOpen = some f) :
    endFrame s = .ok { s with txOpen := none, txLog := s.txLog ++ [f], busLog := s.busLog ++ [.endFrame] } := by
  simp [endFrame, h]

end Sys2Proof.Machine
end

