-- ==== Sys2Proof/Laws/Framer.lean ====
section
/-! SUPPORT. What FEED can do, said once, and that it keeps the invariant. -/

namespace Sys2Proof.Machine

open Sys2Proof

/-! ### The filter -/

theorem accepted_ne_nul {c : Byte} (h : accepted c = true) : c ≠ chNul := by
  rintro rfl; revert h; decide

theorem accepted_ne_lf {c : Byte} (h : accepted c = true) : c ≠ chLf := by
  rintro rfl; revert h; decide

@[simp] theorem accepted_star : accepted chStar = true := by decide

@[simp] theorem accepted_dollar : accepted chDollar = true := by decide

/-! ### One FEED -/

/-- The state a byte stored in InBody or Cks1 leads to before the forced-completion check (R95, R96). -/
def storedSuccessor (ss : SearchState) (c : Byte) : SearchState :=
  match ss with
  | .inBody => if c = chStar then .cks1 else .inBody
  | .cks1 => .cks2
  | other => other

/-- The state after the byte that completes a sentence and the sentinel are stored (R97, R98). -/
def State.completed (s : State) (c : Byte) : State :=
  { s with
    buf := (s.buf.write s.cur c).write (s.cur + 1) chNul
    cur := s.cur + 2
    ss := .complete }

/-- What FEED can do when it answers (R91 to R99). -/
inductive FeedCase (c : Byte) (s : State) : Bool → State → Prop where
  | rejected (h : accepted c = false) : FeedCase c s false s
  | skipped (h : accepted c = true) (hs : s.ss = .searching) (hc : c ≠ chDollar) : FeedCase c s false s
  | started (hs : s.ss = .searching) (hc : c = chDollar) : FeedCase c s false { s with ss := .inBody }
  | stored (h : accepted c = true) (hs : s.ss = .inBody ∨ s.ss = .cks1) (hcur : s.cur < capacity)
      (hf : s.cur + 1 ≠ forceAt) : FeedCase c s false { s.stored c with ss := storedSuccessor s.ss c }
  | forced (h : accepted c = true) (hs : s.ss = .inBody ∨ s.ss = .cks1) (hf : s.cur + 1 = forceAt) :
      FeedCase c s true (s.completed c)
  | completed (h : accepted c = true) (hs : s.ss = .cks2) (hcur : s.cur + 1 < capacity) :
      FeedCase c s true (s.completed c)
  | appended (h : accepted c = true) (hs : s.ss = .complete) (hcur : s.cur < capacity - 1) :
      FeedCase c s false (s.stored c)
  | dropped (h : accepted c = true) (hs : s.ss = .complete) (hcur : capacity - 1 ≤ s.cur) : FeedCase c s false s

theorem completeSentence_cases {s t : State} {b : Bool} (h : completeSentence s = .ok (b, t)) :
    s.cur < capacity ∧ b = true ∧ t = { s.stored chNul with ss := .complete } := by
  simp only [completeSentence, bind_eq_ok, pure_eq_ok, Except.ok.injEq, Prod.mk.injEq] at h
  obtain ⟨s1, h1, hb, ht⟩ := h
  obtain ⟨hc, rfl⟩ := store_cases h1
  exact ⟨hc, hb.symm, ht.symm⟩

theorem forceCheck_cases {s t : State} {b : Bool} (h : forceCheck s = .ok (b, t)) :
    (s.cur = forceAt ∧ b = true ∧ t = { s.stored chNul with ss := .complete }) ∨
    (s.cur ≠ forceAt ∧ b = false ∧ t = s) := by
  unfold forceCheck at h
  split at h
  · next hf => obtain ⟨-, hb, ht⟩ := completeSentence_cases h; exact .inl ⟨hf, hb, ht⟩
  · next hf => simp only [Except.ok.injEq, Prod.mk.injEq] at h; exact .inr ⟨hf, h.1.symm, h.2.symm⟩

theorem feedOp_cases {c : Byte} {s t : State} {b : Bool} (h : feedOp c s = .ok (b, t)) : FeedCase c s b t := by
  unfold feedOp at h
  split at h
  case isFalse hr =>
    simp only [Except.ok.injEq, Prod.mk.injEq] at h
    obtain ⟨rfl, rfl⟩ := h
    exact .rejected (by simpa using hr)
  case isTrue ha =>
    split at h
    case h_1 hs =>
      simp only [Except.ok.injEq, Prod.mk.injEq] at h
      obtain ⟨rfl, rfl⟩ := h
      split
      · next hc => exact .started hs hc
      · next hc => exact .skipped ha hs hc
    case h_2 hs =>
      simp only [bind_eq_ok] at h
      obtain ⟨s1, h1, h2⟩ := h
      obtain ⟨hc, rfl⟩ := store_cases h1
      obtain ⟨hf, rfl, rfl⟩ | ⟨hf, rfl, rfl⟩ := forceCheck_cases h2
      · have hf' : s.cur + 1 = forceAt := by split at hf <;> exact hf
        have : ({ (if c = chStar then { s.stored c with ss := SearchState.cks1 } else s.stored c).stored chNul with
          ss := .complete } : State) = s.completed c := by split <;> rfl
        rw [this]; exact .forced ha (.inl hs) hf'
      · have hf' : s.cur + 1 ≠ forceAt := by split at hf <;> exact hf
        have : (if c = chStar then { s.stored c with ss := SearchState.cks1 } else s.stored c) =
            { s.stored c with ss := storedSuccessor s.ss c } := by
          simp only [hs, storedSuccessor]; split
          · rfl
          · rw [← hs]; rfl
        rw [this]; exact .stored ha (.inl hs) hc hf'
    case h_3 hs =>
      simp only [bind_eq_ok] at h
      obtain ⟨s1, h1, h2⟩ := h
      obtain ⟨hc, rfl⟩ := store_cases h1
      obtain ⟨hf, rfl, rfl⟩ | ⟨hf, rfl, rfl⟩ := forceCheck_cases h2
      · exact .forced ha (.inr hs) hf
      · have : ({ s.stored c with ss := .cks2 } : State) = { s.stored c with ss := storedSuccessor s.ss c } := by
          simp [hs, storedSuccessor]
        rw [this]; exact .stored ha (.inr hs) hc hf
    case h_4 hs =>
      simp only [bind_eq_ok] at h
      obtain ⟨s1, h1, h2⟩ := h
      obtain ⟨hc, rfl⟩ := store_cases h1
      obtain ⟨hc2, rfl, rfl⟩ := completeSentence_cases h2
      exact .completed ha hs hc2
    case h_5 hs =>
      split at h
      · next hc =>
        simp only [bind_eq_ok, pure_eq_ok, Except.ok.injEq, Prod.mk.injEq] at h
        obtain ⟨s1, h1, rfl, rfl⟩ := h
        obtain ⟨-, rfl⟩ := store_cases h1
        exact .appended ha hs hc
      · next hc =>
        simp only [Except.ok.injEq, Prod.mk.injEq] at h
        obtain ⟨rfl, rfl⟩ := h
        exact .dropped ha hs (by omega)

/-- FEED always answers while the cursor leaves room for a byte and a sentinel, or the sentence is complete. -/
theorem feedOp_ok {c : Byte} {s : State} (h : s.cur ≤ 81 ∨ s.ss = .complete) : ∃ b t, feedOp c s = .ok (b, t) := by
  unfold feedOp
  split
  case isFalse => exact ⟨_, _, rfl⟩
  case isTrue =>
    split
    case h_1 => exact ⟨_, _, rfl⟩
    case h_5 =>
      split
      · next hc => rw [store_ok (by simp [capacity] at *; omega)]; exact ⟨_, _, rfl⟩
      · exact ⟨_, _, rfl⟩
    all_goals
      next hs =>
      have hc : s.cur ≤ 81 := by simpa [hs] using h
      rw [store_ok (by simp [capacity]; omega)]
      simp only [ok_bind, forceCheck, completeSentence]
      try split
      all_goals try split
      all_goals first
        | exact ⟨_, _, rfl⟩
        | (rw [store_ok (by simp [capacity]; omega)]; exact ⟨_, _, rfl⟩)

/-- What FEED leaves unchanged (R91). -/
theorem feedOp_frame {c : Byte} {s t : State} {b : Bool} (h : feedOp c s = .ok (b, t)) :
    t = { s with buf := t.buf, cur := t.cur, ss := t.ss } := by
  cases feedOp_cases h <;> rfl

/-! ### The invariant, on the three fields of the Framer -/

/-- The part of the invariant that speaks of `BUF`, `CUR` and `SS`. -/
structure FramerInv (s : State) : Prop where
  bufWf : Memory.wf s.buf = true
  bufBelow : Memory.below 82 s.buf = true
  curRange : s.cur ≤ 82
  searchingCur : s.ss = .searching → s.cur = 0
  assemblingCur : s.assembling → s.cur ≤ 80
  assemblingCells : s.assembling → ∀ i, i < s.cur → cellAccepted s.buf i
  inBodyStars : s.ss = .inBody → ∀ i, i < s.cur → ¬ cellIs s.buf i chStar
  cks1Star : s.ss = .cks1 → 1 ≤ s.cur ∧ cellIs s.buf (s.cur - 1) chStar ∧
    ∀ i, i < s.cur - 1 → ¬ cellIs s.buf i chStar
  cks2Star : s.ss = .cks2 → 2 ≤ s.cur ∧ cellIs s.buf (s.cur - 2) chStar ∧
    ∀ i, i < s.cur - 2 → ¬ cellIs s.buf i chStar
  completeImage : s.ss = .complete → ∃ p, CompleteAt s p

theorem State.Inv.framer {s : State} (h : s.Inv) : FramerInv s where
  bufWf := h.bufWf
  bufBelow := h.bufBelow
  curRange := h.curRange
  searchingCur := h.searchingCur
  assemblingCur := h.assemblingCur
  assemblingCells := h.assemblingCells
  inBodyStars := h.inBodyStars
  cks1Star := h.cks1Star
  cks2Star := h.cks2Star
  completeImage := h.completeImage

/-- The Framer's part of the invariant looks at no other field. -/
theorem FramerInv.congr {s t : State} (h : FramerInv s) (hb : t.buf = s.buf) (hc : t.cur = s.cur)
    (hs : t.ss = s.ss) : FramerInv t := by
  obtain ⟨buf, cur, ss⟩ := s
  obtain ⟨buf', cur', ss'⟩ := t
  obtain rfl : buf' = buf := hb
  obtain rfl : cur' = cur := hc
  obtain rfl : ss' = ss := hs
  refine ⟨h.bufWf, h.bufBelow, h.curRange, h.searchingCur, h.assemblingCur, h.assemblingCells, h.inBodyStars,
    h.cks1Star, h.cks2Star, fun hcomp => ?_⟩
  obtain ⟨p, hp⟩ := h.completeImage hcomp
  exact ⟨p, hp.pLo, hp.pHi, hp.sentence, hp.sentinel, hp.star, hp.curLo, hp.curHi, hp.tail⟩

theorem FramerInv.feed_ok {s : State} (c : Byte) (h : FramerInv s) : ∃ b t, feedOp c s = .ok (b, t) := by
  apply feedOp_ok
  by_cases hs : s.ss = .complete
  · exact .inr hs
  · left
    by_cases h0 : s.ss = .searching
    · have := h.searchingCur h0; omega
    · have : s.assembling := by unfold State.assembling; cases hss : s.ss <;> simp_all
      have := h.assemblingCur this; omega

/-- FEED keeps the Framer's part of the invariant. -/
theorem feedOp_framerInv {c : Byte} {s t : State} {b : Bool} (hf : feedOp c s = .ok (b, t)) (h : FramerInv s) :
    FramerInv t := by
  have hcase := feedOp_cases hf
  cases hcase with
  | rejected => exact h
  | skipped => exact h
  | dropped => exact h
  | started hs hc =>
    have h0 := h.searchingCur hs
    constructor
    · exact h.bufWf
    · exact h.bufBelow
    · exact h.curRange
    · intro hh; cases hh
    · intro _; show s.cur ≤ 80; omega
    · intro _ i hi; change i < s.cur at hi; omega
    · intro _ i hi; change i < s.cur at hi; omega
    · intro hh; cases hh
    · intro hh; cases hh
    · intro hh; cases hh
  | stored ha hs hcur hne =>
    have hasm : s.assembling := by rcases hs with hs | hs <;> simp [State.assembling, hs]
    have h80 := h.assemblingCur hasm
    have hcells := h.assemblingCells hasm
    have hne' : s.cur ≠ 80 := by simpa [forceAt, capacity] using hne
    have hnew : storedSuccessor s.ss c ≠ .searching ∧ storedSuccessor s.ss c ≠ .complete := by
      rcases hs with hs | hs <;> simp only [hs, storedSuccessor] <;> (try split) <;> simp
    have hread : ∀ i v, (s.buf.write s.cur c).read i = some v ↔
        (i = s.cur ∧ c = v) ∨ (i ≠ s.cur ∧ s.buf.read i = some v) := by
      intro i v; rw [Memory.read_write]; split <;> simp_all
    constructor
    · exact Memory.wf_write _ _ _ h.bufWf
    · exact Memory.below_write _ _ _ _ (by omega) h.bufBelow
    · show s.cur + 1 ≤ 82; omega
    · intro hh; exact absurd hh hnew.1
    · intro _; show s.cur + 1 ≤ 80; omega
    · intro _ i hi
      change i < s.cur + 1 at hi
      show ∃ v, (s.buf.write s.cur c).read i = some v ∧ accepted v = true
      by_cases hic : i = s.cur
      · exact ⟨c, by rw [hread]; exact .inl ⟨hic, rfl⟩, ha⟩
      · obtain ⟨v, hv, hva⟩ := hcells i (by omega)
        exact ⟨v, by rw [hread]; exact .inr ⟨hic, hv⟩, hva⟩
    · intro hh i hi
      change storedSuccessor s.ss c = .inBody at hh
      change i < s.cur + 1 at hi
      have hin : s.ss = .inBody ∧ c ≠ chStar := by
        rcases hs with hs | hs <;> simp only [hs, storedSuccessor] at hh <;> first | (split at hh <;> simp_all) | simp at hh
      show ¬ (s.buf.write s.cur c).read i = some chStar
      rw [hread]
      rintro (⟨-, hc⟩ | ⟨hic, hv⟩)
      · exact hin.2 hc
      · exact h.inBodyStars hin.1 i (by omega) hv
    · intro hh
      change storedSuccessor s.ss c = .cks1 at hh
      have hin : s.ss = .inBody ∧ c = chStar := by
        rcases hs with hs | hs <;> simp only [hs, storedSuccessor] at hh <;> first | (split at hh <;> simp_all) | simp at hh
      refine ⟨by show 1 ≤ s.cur + 1; omega, ?_, ?_⟩
      · show (s.buf.write s.cur c).read (s.cur + 1 - 1) = some chStar
        rw [hread]; exact .inl ⟨by omega, hin.2⟩
      · intro i hi
        change i < s.cur + 1 - 1 at hi
        show ¬ (s.buf.write s.cur c).read i = some chStar
        rw [hread]
        rintro (⟨hic, -⟩ | ⟨-, hv⟩)
        · omega
        · exact h.inBodyStars hin.1 i (by omega) hv
    · intro hh
      change storedSuccessor s.ss c = .cks2 at hh
      have hin : s.ss = .cks1 := by
        rcases hs with hs | hs
        · simp only [hs, storedSuccessor] at hh; split at hh <;> cases hh
        · exact hs
      obtain ⟨k1, k2, k3⟩ := h.cks1Star hin
      refine ⟨by show 2 ≤ s.cur + 1; omega, ?_, ?_⟩
      · show (s.buf.write s.cur c).read (s.cur + 1 - 2) = some chStar
        rw [hread]; exact .inr ⟨by omega, by rw [show s.cur + 1 - 2 = s.cur - 1 by omega]; exact k2⟩
      · intro i hi
        change i < s.cur + 1 - 2 at hi
        show ¬ (s.buf.write s.cur c).read i = some chStar
        rw [hread]
        rintro (⟨hic, -⟩ | ⟨-, hv⟩)
        · omega
        · exact k3 i (by omega) hv
    · intro hh; exact absurd hh hnew.2
  | forced ha hs hff =>
    have hasm : s.assembling := by rcases hs with hs | hs <;> simp [State.assembling, hs]
    have hcells := h.assemblingCells hasm
    have h80 : s.cur = 80 := by simpa [forceAt, capacity] using hff
    exact completed_framerInv_aux hcells ha h (by omega) (.inr h80) (by omega)
  | completed ha hs hcc =>
    have hasm : s.assembling := by simp [State.assembling, hs]
    have h80 := h.assemblingCur hasm
    obtain ⟨k1, k2, k3⟩ := h.cks2Star hs
    exact completed_framerInv_aux (h.assemblingCells hasm) ha h h80 (.inl k2) k1
  | appended ha hs hcur =>
    obtain ⟨p, hp⟩ := h.completeImage hs
    have hcur' : s.cur < 82 := by simpa [capacity] using hcur
    have hread : ∀ i v, (s.buf.write s.cur c).read i = some v ↔
        (i = s.cur ∧ c = v) ∨ (i ≠ s.cur ∧ s.buf.read i = some v) := by
      intro i v; rw [Memory.read_write]; split <;> simp_all
    have hlo := hp.curLo
    have hno : ∀ x, (s.stored c).ss = x → x = .complete := by intro x hx; rw [← hx]; exact hs
    constructor
    · exact Memory.wf_write _ _ _ h.bufWf
    · exact Memory.below_write _ _ _ _ hcur' h.bufBelow
    · show s.cur + 1 ≤ 82; omega
    · intro hh; exact absurd (hno _ hh) (by simp)
    · rintro (hh | hh | hh) <;> exact absurd (hno _ hh) (by simp)
    · rintro (hh | hh | hh) <;> exact absurd (hno _ hh) (by simp)
    · intro hh; exact absurd (hno _ hh) (by simp)
    · intro hh; exact absurd (hno _ hh) (by simp)
    · intro hh; exact absurd (hno _ hh) (by simp)
    · intro _
      refine ⟨p, hp.pLo, hp.pHi, ?_, ?_, ?_, ?_, ?_, ?_⟩
      · intro i hi
        obtain ⟨v, hv, hva⟩ := hp.sentence i hi
        exact ⟨v, (hread i v).2 (.inr ⟨by omega, hv⟩), hva⟩
      · exact (hread p chNul).2 (.inr ⟨by omega, hp.sentinel⟩)
      · rcases hp.star with hst | hst
        · left; exact (hread _ _).2 (.inr ⟨by omega, hst⟩)
        · exact .inr hst
      · show p + 1 ≤ s.cur + 1; omega
      · show s.cur + 1 ≤ 82; omega
      · intro i hi1 hi2
        change i < s.cur + 1 at hi2
        by_cases hic : i = s.cur
        · exact ⟨c, (hread i c).2 (.inl ⟨hic, rfl⟩), ha⟩
        · obtain ⟨v, hv, hva⟩ := hp.tail i hi1 (by omega)
          exact ⟨v, (hread i v).2 (.inr ⟨hic, hv⟩), hva⟩
where
  completed_framerInv_aux {c : Byte} {s : State} (hcells : ∀ i, i < s.cur → cellAccepted s.buf i)
      (ha : accepted c = true) (h : FramerInv s) (h80 : s.cur ≤ 80)
      (hstar : cellIs s.buf (s.cur - 2) chStar ∨ s.cur = 80) (h2 : 2 ≤ s.cur) : FramerInv (s.completed c) := by
    have hread : ∀ i v, ((s.buf.write s.cur c).write (s.cur + 1) chNul).read i = some v ↔
        (i = s.cur + 1 ∧ chNul = v) ∨ (i = s.cur ∧ c = v) ∨ (i ≠ s.cur + 1 ∧ i ≠ s.cur ∧ s.buf.read i = some v) := by
      intro i v; rw [Memory.read_write, Memory.read_write]
      split
      · next e => subst e; simp
      · split <;> simp_all
    constructor
    · exact Memory.wf_write _ _ _ (Memory.wf_write _ _ _ h.bufWf)
    · exact Memory.below_write _ _ _ _ (by omega) (Memory.below_write _ _ _ _ (by omega) h.bufBelow)
    · show s.cur + 2 ≤ 82; omega
    · intro hh; cases hh
    · rintro (hh | hh | hh) <;> cases hh
    · rintro (hh | hh | hh) <;> cases hh
    · intro hh; cases hh
    · intro hh; cases hh
    · intro hh; cases hh
    · intro _
      refine ⟨s.cur + 1, by omega, by omega, ?_, ?_, ?_, ?_, ?_, ?_⟩
      · intro i hi
        by_cases hic : i = s.cur
        · exact ⟨c, (hread i c).2 (.inr (.inl ⟨hic, rfl⟩)), ha⟩
        · obtain ⟨v, hv, hva⟩ := hcells i (by omega)
          exact ⟨v, (hread i v).2 (.inr (.inr ⟨by omega, hic, hv⟩)), hva⟩
      · exact (hread _ _).2 (.inl ⟨rfl, rfl⟩)
      · rcases hstar with hst | hst
        · left
          refine (hread _ _).2 (.inr (.inr ⟨by omega, by omega, ?_⟩))
          rw [show s.cur + 1 - 3 = s.cur - 2 by omega]; exact hst
        · right; omega
      · show s.cur + 1 + 1 ≤ s.cur + 2; omega
      · show s.cur + 2 ≤ 82; omega
      · intro i hi1 hi2; change i < s.cur + 2 at hi2; omega

/-- Feeding bytes in order answers and keeps the Framer's part of the invariant. -/
theorem feedAll_framerInv {bs : List Byte} {s : State} (h : FramerInv s) :
    ∃ t, feedAll bs s = .ok t ∧ FramerInv t ∧ t = { s with buf := t.buf, cur := t.cur, ss := t.ss } := by
  induction bs generalizing s with
  | nil => exact ⟨s, rfl, h, rfl⟩
  | cons c bs ih =>
    obtain ⟨b, u, hu⟩ := h.feed_ok c
    obtain ⟨t, ht, hi, hfr⟩ := ih (feedOp_framerInv hu h)
    refine ⟨t, by simp [feedAll, hu, ht], hi, ?_⟩
    rw [hfr, feedOp_frame hu]

end Sys2Proof.Machine
end

