-- ==== Sys2Proof/Laws/Extractor.lean ====
section
/-! SUPPORT. What a delivery, the drain, the tail shift and EXTRACT can do, said once, and that they keep the
invariant. -/

namespace Sys2Proof.Machine

open Sys2Proof

/-- The part of the invariant that speaks of the Gate's flags (R25 I5, I6). -/
structure GateInv (s : State) : Prop where
  oneFlag : ¬ (s.plf = true ∧ s.lookV = true)
  lookNotLf : s.lookV = true → s.look ≠ chLf

theorem State.Inv.gate {s : State} (h : s.Inv) : GateInv s := ⟨h.oneFlag, h.lookNotLf⟩

/-- The Framer's fields are not the Gate's. -/
theorem GateInv.congr {s t : State} (h : GateInv s) (hp : t.plf = s.plf) (hl : t.look = s.look)
    (hv : t.lookV = s.lookV) : GateInv t := ⟨by rw [hp, hv]; exact h.oneFlag, by rw [hl, hv]; exact h.lookNotLf⟩

/-- RDBYTE keeps the Gate's part of the invariant. -/
theorem rdbyteOp_gateInv {s t : State} {r : Option Byte} (h : rdbyteOp s = .ok (r, t)) (hg : GateInv s) :
    GateInv t := by
  obtain ⟨hl, h'⟩ | ⟨hl, b, q, -, h'⟩ | ⟨-, -, h'⟩ := rdbyteOp_cases s <;>
    rw [h'] at h <;> simp only [Except.ok.injEq, Prod.mk.injEq] at h <;> rw [← h.2]
  · rw [noteDelivered_other _ (hg.lookNotLf hl)]
    exact ⟨by simp, by simp⟩
  · rw [noteDelivered_frame]
    exact ⟨by simp [hl], by simp [hl]⟩
  · exact hg

/-- AVAIL keeps the Gate's part of the invariant. -/
theorem availOp_gateInv {s t : State} {r : Bool} (h : availOp s = .ok (r, t)) (hg : GateInv s) : GateInv t := by
  have hfill : ∀ n, GateInv (fillIfEmpty n s) := fun n => by
    rw [fillIfEmpty_frame]; exact hg.congr rfl rfl rfl
  obtain ⟨-, ht, -⟩ | ⟨-, -, -, ht⟩ | ⟨-, q, -, -, ht⟩ | ⟨-, b, q, hb, -, -, ht⟩ := availOp_cases h
  · rw [ht]; exact hfill _
  · rw [ht]; exact hfill _
  · rw [ht]; exact (hfill 1).congr rfl rfl rfl
  · rw [ht]; exact ⟨by simp [stageLook], fun _ => hb⟩

/-- A delivery with a byte present answers, keeps both parts of the invariant, and takes one byte. -/
theorem deliverNext_inv {s : State} (hf : FramerInv s) (hg : GateInv s) (hp : 0 < presentCount s) :
    ∃ t, deliverNext s = .ok t ∧ FramerInv t ∧ GateInv t ∧ presentCount t + 1 = presentCount s ∧
      t = { s with
            buf := t.buf, cur := t.cur, ss := t.ss, plf := t.plf, lookV := t.lookV, rxq := t.rxq,
            busLog := t.busLog } := by
  obtain ⟨b, u, hr, hcount⟩ : ∃ b u, rdbyteOp s = .ok (some b, u) ∧ presentCount u + 1 = presentCount s := by
    obtain ⟨hl, h⟩ | ⟨hl, b, q, hq, h⟩ | ⟨hl, hq, -⟩ := rdbyteOp_cases s
    · exact ⟨_, _, h, by rw [noteDelivered_frame]; simp [presentCount, queuedCount, hl]; omega⟩
    · exact ⟨_, _, h, by rw [noteDelivered_frame]; simp [presentCount, queuedCount, hl, hq]⟩
    · simp [presentCount, queuedCount, hl, hq] at hp
  have hfr := rdbyteOp_frame hr
  have hu : FramerInv u := by rw [hfr]; exact hf.congr rfl rfl rfl
  obtain ⟨f, t, ht⟩ := hu.feed_ok b
  have htf := feedOp_frame ht
  refine ⟨t, by simp [deliverNext, hr, ht], feedOp_framerInv ht hu, ?_, ?_, ?_⟩
  · have hug := rdbyteOp_gateInv hr hg
    rw [htf]; exact hug.congr rfl rfl rfl
  · rw [htf]; exact hcount
  · rw [htf, hfr]

/-- The drain answers, keeps both parts of the invariant, and leaves no byte present (R117). -/
theorem drainQueue_inv {n : Nat} {s : State} (hn : presentCount s ≤ n) (hf : FramerInv s) (hg : GateInv s) :
    ∃ t, drainQueue n s = .ok t ∧ FramerInv t ∧ GateInv t ∧ presentCount t = 0 ∧
      t = { s with
            buf := t.buf, cur := t.cur, ss := t.ss, plf := t.plf, lookV := t.lookV, rxq := t.rxq,
            busLog := t.busLog } := by
  induction n generalizing s with
  | zero => exact ⟨s, rfl, hf, hg, by omega, rfl⟩
  | succ n ih =>
    by_cases hp : s.lookV = true ∨ 0 < queuedCount s
    · have hpos : 0 < presentCount s := by unfold presentCount; rcases hp with h | h <;> simp_all
      obtain ⟨u, hu, huf, hug, hc, hfr⟩ := deliverNext_inv hf hg hpos
      obtain ⟨t, ht, htf, htg, hz, hfr2⟩ := ih (s := u) (by omega) huf hug
      refine ⟨t, by simp [drainQueue, hp, hu, ht], htf, htg, hz, ?_⟩
      rw [hfr2, hfr]
    · refine ⟨s, by simp [drainQueue, hp], hf, hg, ?_, rfl⟩
      simp only [not_or] at hp
      simp [presentCount, hp.1]; omega

/-- Restarting the Framer establishes its part of the invariant. -/
theorem restarted_framerInv {s : State} (h : FramerInv s) : FramerInv s.restarted := by
  refine ⟨h.bufWf, h.bufBelow, Nat.zero_le _, fun _ => rfl, ?_, ?_, ?_, ?_, ?_, ?_⟩
  · rintro (hh | hh | hh) <;> cases hh
  · rintro (hh | hh | hh) <;> cases hh
  all_goals intro hh; cases hh

/-- A complete sentence is scanned up to its sentinel, and its tail is read (R111, R116 (1)). -/
theorem CompleteAt.scan {s : State} {p : Nat} (h : CompleteAt s p) :
    ∃ image tail, scanBuf s.buf capacity 0 = .ok image ∧ image.length = p ∧
      (∀ i, i < p → s.buf.read i = image[i]?) ∧ tailBytes p s = .ok tail := by
  have hsome : ∀ i, i < s.cur → ∃ v, s.buf.read i = some v := by
    intro i hi
    rcases Nat.lt_trichotomy i p with hlt | heq | hgt
    · obtain ⟨v, hv, -⟩ := h.sentence i hlt; exact ⟨v, hv⟩
    · subst heq; exact ⟨_, h.sentinel⟩
    · obtain ⟨v, hv, -⟩ := h.tail i hgt hi; exact ⟨v, hv⟩
  have hlo := h.curLo
  have hhi := h.curHi
  let cells : Nat → Nat → List Byte := fun i n => (List.range n).map fun k => (s.buf.read (i + k)).getD 0#8
  have hcells : ∀ i n, i + n ≤ s.cur → ∀ k, k < n → s.buf.read (i + k) = (cells i n)[k]? := by
    intro i n hin k hk
    obtain ⟨v, hv⟩ := hsome (i + k) (by omega)
    simp [cells, hk, hv]
  refine ⟨cells 0 p, cells (p + 1) (s.cur - (p + 1)), ?_, by simp [cells], ?_, ?_⟩
  · rw [scanBuf_ok (by rfl)]
    have hlen : (cells 0 p).length = p := by simp [cells]
    rw [hlen]
    refine ⟨by simp [capacity]; omega, by rw [Nat.zero_add]; exact h.sentinel, fun k hk => ?_⟩
    have hk' := hcells 0 p (by omega) k hk
    refine ⟨hk', ?_⟩
    rw [← hk', Nat.zero_add]
    obtain ⟨v, hv, hva⟩ := h.sentence k hk
    rw [hv]; simpa using accepted_ne_nul hva
  · intro i hi; simpa using hcells 0 p (by omega) i hi
  · rw [tailBytes, readCells_ok]
    refine ⟨by simp [cells], fun k hk => ⟨by simp [capacity]; omega, ?_⟩⟩
    exact hcells (p + 1) _ (by omega) k hk

/-- The output of an image of at most 81 bytes has at most 84 (R19). -/
theorem formatOutput_length (m : OutputMode) (r : ResultCode) (image : List Byte) :
    (formatOutput m r image).length ≤ image.length + 3 := by
  unfold formatOutput
  split_ifs <;> simp <;> omega

/-- What EXTRACT does to a complete sentence, when the invariant holds: it answers, the output is the formatted
image, and afterwards the invariant's parts hold and nothing is left queued (R110 to R118). -/
theorem extractOp_complete {s : State} (hf : FramerInv s) (hg : GateInv s) {p : Nat} (hs : s.ss = .complete)
    (hp : CompleteAt s p) :
    ∃ image t, scanBuf s.buf capacity 0 = .ok image ∧ image.length = p ∧
      extractOp s = .ok (classify image (imageChecksum image), t) ∧ FramerInv t ∧ GateInv t ∧
      presentCount t = 0 ∧
      t = { s.withOutput (formatOutput s.mode (classify image (imageChecksum image)) image) with
            cks := imageChecksum image
            buf := t.buf, cur := t.cur, ss := t.ss, plf := t.plf, lookV := t.lookV, rxq := t.rxq,
            busLog := t.busLog } := by
  obtain ⟨image, tail, hscan, hlen, -, htail⟩ := hp.scan
  have hlen' := formatOutput_length s.mode (classify image (imageChecksum image)) image
  have hp81 := hp.pHi
  have hw : writeOut (formatOutput s.mode (classify image (imageChecksum image)) image)
      { s with cks := imageChecksum image } =
      .ok (({ s with cks := imageChecksum image } : State).withOutput
        (formatOutput s.mode (classify image (imageChecksum image)) image)) :=
    writeOut_ok (by simp [outCap, capacity]; omega)
  generalize hu : (({ s with cks := imageChecksum image } : State).withOutput
        (formatOutput s.mode (classify image (imageChecksum image)) image)) = u at hw
  have hr : FramerInv u.restarted := by
    apply restarted_framerInv; subst hu; exact hf.congr rfl rfl rfl
  obtain ⟨v, hv, hvf, hvfr⟩ := feedAll_framerInv (bs := tail) hr
  have hvg : GateInv v := by rw [hvfr]; subst hu; exact hg.congr rfl rfl rfl
  obtain ⟨t, ht, htf, htg, hz, htfr⟩ := drainQueue_inv (Nat.le_refl _) hvf hvg
  refine ⟨image, t, hscan, hlen, ?_, htf, htg, hz, ?_⟩
  · have htail' : tailBytes image.length u = .ok tail := by subst hu; rw [hlen]; exact htail
    rw [extractOp, if_pos hs, hscan]
    simp only [ok_bind, hw, tailShift, htail', hv, ht, pure_eq_ok]
  · rw [htfr, hvfr]; subst hu; rfl

end Sys2Proof.Machine
end

