-- ==== Sys2Proof/Laws/PerInstr.lean ====
section
/-! SUPPORT. Statements made of every instruction as syntax, one lemma per constructor (LAWS.json). -/

namespace Sys2Proof.Laws.TableRow

open Sys2Proof

/-- The word of a well-formed instruction belongs to the instruction's row of opcode_table.json, and decodes to an
instruction of that row (30_encoding.md rules R50, R53, R56). -/
def Statement (i : Instr) : Prop :=
  i.wellFormed = true → i.row.matchesWord (encode i) = true ∧ (decode (encode i)).row = i.row

theorem avail : Statement .avail := fun _ => by decide

theorem rdbyte : Statement .rdbyte := fun _ => by decide

theorem feed (c : Byte) : Statement (.feed c) := fun _ => by revert c; decide

theorem extract : Statement .extract := fun _ => by decide

theorem receive : Statement .receive := fun _ => by decide

theorem send (len : Byte) : Statement (.send len) := fun _ => by revert len; decide

theorem setmode (code : BitVec 2) : Statement (.setmode code) := fun _ => by revert code; decide

theorem getmode : Statement .getmode := fun _ => by decide

theorem reserved0 : Statement .reserved0 := fun _ => by decide

theorem reserved9 : Statement .reserved9 := fun _ => by decide

theorem reservedA : Statement .reservedA := fun _ => by decide

theorem reservedB : Statement .reservedB := fun _ => by decide

theorem reservedC : Statement .reservedC := fun _ => by decide

theorem reservedD : Statement .reservedD := fun _ => by decide

theorem reservedE : Statement .reservedE := fun _ => by decide

theorem reservedF : Statement .reservedF := fun _ => by decide

theorem lf : Statement .lf := fun _ => by decide

theorem dollar : Statement .dollar := fun _ => by decide

theorem star : Statement .star := fun _ => by decide

theorem accA (x : BitVec 5) : Statement (.accA x) := by revert x; unfold Statement; decide

theorem accB (x : BitVec 5) : Statement (.accB x) := fun _ => by revert x; decide

theorem rejCtl (x : BitVec 5) : Statement (.rejCtl x) := by revert x; unfold Statement; decide

theorem rejLow (x : BitVec 5) : Statement (.rejLow x) := fun _ => by revert x; decide

theorem rejHigh (x : BitVec 7) : Statement (.rejHigh x) := fun _ => by revert x; decide

end Sys2Proof.Laws.TableRow
end

