-- ==== Sys2Proof/Laws/Public.lean ====
section
/-! SUPPORT. What RECEIVE's loop can do, said once: its frame, that more rounds change no answer, and that it keeps the
invariant. -/

namespace Sys2Proof.Machine

open Sys2Proof

/-- The part of the invariant that speaks of `OUT` and of the transmit side. -/
structure BufferInv (s : State) : Prop where
  outShape : ∃ bs, bs.length ≤ 84 ∧ s.out = Memory.ofBytes 0 (bs ++ [chNul]) ∧ s.outLen = bs.length
  frameClosed : s.txOpen = none

theorem State.Inv.buffer {s : State} (h : s.Inv) : BufferInv s := ⟨h.outShape, h.frameClosed⟩

/-- The three parts make the invariant. -/
theorem State.Inv.of_parts {s : State} (hf : FramerInv s) (hg : GateInv s) (hb : BufferInv s) : s.Inv where
  bufWf := hf.bufWf
  bufBelow := hf.bufBelow
  curRange := hf.curRange
  searchingCur := hf.searchingCur
  assemblingCur := hf.assemblingCur
  assemblingCells := hf.assemblingCells
  inBodyStars := hf.inBodyStars
  cks1Star := hf.cks1Star
  cks2Star := hf.cks2Star
  completeImage := hf.completeImage
  oneFlag := hg.oneFlag
  lookNotLf := hg.lookNotLf
  outShape := hb.outShape
  frameClosed := hb.frameClosed

theorem BufferInv.congr {s t : State} (h : BufferInv s) (ho : t.out = s.out) (hl : t.outLen = s.outLen)
    (hx : t.txOpen = s.txOpen) : BufferInv t := ⟨by rw [ho, hl]; exact h.outShape, by rw [hx]; exact h.frameClosed⟩

/-- Writing an output of at most 84 bytes establishes the invariant's part about `OUT`. -/
theorem withOutput_bufferInv {s : State} {bs : List Byte} (h : BufferInv s) (hl : bs.length ≤ 84) :
    BufferInv (s.withOutput bs) := ⟨⟨bs, hl, rfl, rfl⟩, h.frameClosed⟩

/-- NoData keeps the invariant. -/
theorem reportNoData_inv {s : State} (h : s.Inv) : (reportNoData s).Inv :=
  .of_parts (h.framer.congr rfl rfl rfl) (h.gate.congr rfl rfl rfl) (withOutput_bufferInv h.buffer (by simp))

/-- The response wires are not part of the invariant. -/
theorem respond_inv {s : State} (r : Response) (h : s.Inv) : (s.respond r).Inv :=
  .of_parts (h.framer.congr rfl rfl rfl) (h.gate.congr rfl rfl rfl) (h.buffer.congr rfl rfl rfl)

/-- AVAIL keeps the invariant. -/
theorem availOp_inv {s t : State} {r : Bool} (ha : availOp s = .ok (r, t)) (h : s.Inv) : t.Inv := by
  have hg := availOp_gateInv ha h.gate
  have hfr := availOp_frame ha
  exact .of_parts (by rw [hfr]; exact h.framer.congr rfl rfl rfl) hg (by rw [hfr]; exact h.buffer.congr rfl rfl rfl)

/-- When AVAIL answers true, a byte is present (R70, R71). -/
theorem availOp_true_present {s t : State} (ha : availOp s = .ok (true, t)) : 0 < presentCount t := by
  obtain ⟨-, -, hr⟩ | ⟨-, -, hr, -⟩ | ⟨-, q, -, hr, -⟩ | ⟨-, b, q, -, -, -, ht⟩ := availOp_cases ha
  · rcases hl : t.lookV with _ | _
    · simpa [hl, presentCount] using hr
    · simp [presentCount, hl]
  · simp at hr
  · simp at hr
  · rw [ht]; simp [presentCount, stageLook]

/-- EXTRACT answers and keeps the invariant (R25). -/
theorem extractOp_inv {s : State} (h : s.Inv) : ∃ r t, extractOp s = .ok (r, t) ∧ t.Inv := by
  by_cases hs : s.ss = .complete
  · obtain ⟨p, hp⟩ := h.completeImage hs
    obtain ⟨image, t, -, hlen, he, htf, htg, -, hfr⟩ := extractOp_complete h.framer h.gate hs hp
    have hl := formatOutput_length s.mode (classify image (imageChecksum image)) image
    have hp81 := hp.pHi
    refine ⟨_, t, he, .of_parts htf htg ?_⟩
    rw [hfr]
    exact (withOutput_bufferInv (bs := formatOutput s.mode (classify image (imageChecksum image)) image) h.buffer
      (by omega)).congr rfl rfl rfl
  · exact ⟨.noData, reportNoData s, by simp [extractOp, hs], reportNoData_inv h⟩

/-- RECEIVE's loop answers and keeps the invariant, or it is still going round (R25, R145). -/
theorem receiveLoop_inv {n : Nat} {s : State} (h : s.Inv) :
    receiveLoop n s = .error .receiveNeverReturns ∨ ∃ r t, receiveLoop n s = .ok (r, t) ∧ t.Inv := by
  induction n generalizing s with
  | zero => exact .inl rfl
  | succ n ih =>
    by_cases hs : s.ss = .complete
    · rw [receiveLoop, if_pos hs]; exact .inr (extractOp_inv h)
    · obtain ⟨r, u, ha⟩ := availOp_ok s
      have hu := availOp_inv ha h
      rw [receiveLoop, if_neg hs, ha]
      simp only [ok_bind]
      cases r with
      | false => exact .inr ⟨_, _, rfl, reportNoData_inv hu⟩
      | true =>
        obtain ⟨v, hv, hvf, hvg, -, hfr⟩ := deliverNext_inv hu.framer hu.gate (availOp_true_present ha)
        have hvi : v.Inv := .of_parts hvf hvg (by rw [hfr]; exact hu.buffer.congr rfl rfl rfl)
        simp only [if_true, hv, ok_bind]
        exact ih hvi

/-- More rounds do not change an answer. -/
theorem receiveLoop_mono {n : Nat} {s : State} (k : Nat)
    (h : receiveLoop n s ≠ .error .receiveNeverReturns) : receiveLoop (n + k) s = receiveLoop n s := by
  induction n generalizing s with
  | zero => exact absurd rfl h
  | succ n ih =>
    rw [show n + 1 + k = (n + k) + 1 by omega]
    by_cases hs : s.ss = .complete
    · rw [receiveLoop, receiveLoop, if_pos hs, if_pos hs]
    · obtain ⟨r, u, ha⟩ := availOp_ok s
      rw [receiveLoop, if_neg hs, ha] at h ⊢
      rw [receiveLoop, if_neg hs, ha]
      simp only [ok_bind] at h ⊢
      cases r with
      | false => rfl
      | true =>
        simp only [if_true] at h ⊢
        cases hd : deliverNext u with
        | error e => rfl
        | ok v =>
          rw [hd] at h
          exact ih h

end Sys2Proof.Machine
end

