-- ==== Sys2Proof/Laws/Receive.lean ====
section
/-! SUPPORT. Why RECEIVE's loop ends early or never (R146, log entry 12). What decides whether the loop goes on is a few
fields of State; on those the loop is a small machine, which reads the device's output byte by byte. -/

namespace Sys2Proof.Machine

open Sys2Proof

/-! ### One round -/

/-- One round of RECEIVE's loop that goes on: AVAIL answers true and a byte is delivered and fed (R145). -/
def receiveRound (s : State) : Option State :=
  if s.ss = .complete then none
  else
    match availOp s with
    | .ok (true, s1) =>
      match deliverNext s1 with
      | .ok s2 => some s2
      | .error _ => none
    | _ => none

/-- No operation but the loop itself answers that RECEIVE never returns. -/
theorem store_noHang (v : Byte) (s : State) : store v s ≠ .error .receiveNeverReturns := by
  unfold store; split <;> simp

theorem bind_noHang {α β : Type} {x : Except Fault α} {f : α → Except Fault β}
    (hx : x ≠ .error .receiveNeverReturns) (hf : ∀ a, f a ≠ .error .receiveNeverReturns) :
    (x >>= f) ≠ .error .receiveNeverReturns := by
  cases x with
  | ok a => exact hf a
  | error e => simpa using hx

theorem completeSentence_noHang (s : State) : completeSentence s ≠ .error .receiveNeverReturns :=
  bind_noHang (store_noHang _ _) (by simp)

theorem forceCheck_noHang (s : State) : forceCheck s ≠ .error .receiveNeverReturns := by
  unfold forceCheck; split
  · exact completeSentence_noHang _
  · simp

theorem feedOp_noHang (c : Byte) (s : State) : feedOp c s ≠ .error .receiveNeverReturns := by
  unfold feedOp
  split
  · split
    · simp
    · exact bind_noHang (store_noHang _ _) fun _ => forceCheck_noHang _
    · exact bind_noHang (store_noHang _ _) fun _ => forceCheck_noHang _
    · exact bind_noHang (store_noHang _ _) fun _ => completeSentence_noHang _
    · split
      · exact bind_noHang (store_noHang _ _) (by simp)
      · simp
  · simp

theorem feedAll_noHang (bs : List Byte) (s : State) : feedAll bs s ≠ .error .receiveNeverReturns := by
  induction bs generalizing s with
  | nil => simp [feedAll]
  | cons b bs ih => exact bind_noHang (feedOp_noHang _ _) fun p => ih p.2

theorem deliverNext_noHang (s : State) : deliverNext s ≠ .error .receiveNeverReturns := by
  unfold deliverNext
  obtain ⟨-, h⟩ | ⟨-, b, q, -, h⟩ | ⟨-, -, h⟩ := rdbyteOp_cases s <;> rw [h] <;> simp only [ok_bind]
  · exact bind_noHang (feedOp_noHang _ _) (by simp)
  · exact bind_noHang (feedOp_noHang _ _) (by simp)
  · simp

theorem drainQueue_noHang (n : Nat) (s : State) : drainQueue n s ≠ .error .receiveNeverReturns := by
  induction n generalizing s with
  | zero => simp [drainQueue]
  | succ n ih =>
    unfold drainQueue
    split
    · exact bind_noHang (deliverNext_noHang _) fun _ => ih _
    · simp

theorem readBuf_noHang (m : Memory) (i : Nat) : readBuf m i ≠ .error .receiveNeverReturns := by
  unfold readBuf; split
  · cases m.read i <;> simp
  · simp

theorem readCells_noHang (m : Memory) (n i : Nat) : readCells m n i ≠ .error .receiveNeverReturns := by
  induction n generalizing i with
  | zero => simp [readCells]
  | succ n ih => exact bind_noHang (readBuf_noHang _ _) fun _ => bind_noHang (ih _) (by simp)

theorem scanBuf_noHang (m : Memory) (n i : Nat) : scanBuf m n i ≠ .error .receiveNeverReturns := by
  induction n generalizing i with
  | zero => simp [scanBuf]
  | succ n ih =>
    refine bind_noHang (readBuf_noHang _ _) fun b => ?_
    split
    · simp
    · exact bind_noHang (ih _) (by simp)

theorem extractOp_noHang (s : State) : extractOp s ≠ .error .receiveNeverReturns := by
  unfold extractOp
  split
  · refine bind_noHang (scanBuf_noHang _ _ _) fun image => bind_noHang ?_ fun s1 => bind_noHang ?_ (by simp)
    · unfold writeOut; split <;> simp
    · exact bind_noHang (readCells_noHang _ _ _) fun tail => bind_noHang (feedAll_noHang _ _) fun _ =>
        drainQueue_noHang _ _
  · simp

/-- The loop is still going round after `n + 1` rounds when one round goes on and the loop is after `n` more. -/
theorem receiveLoop_hang_succ {n : Nat} {s : State} :
    receiveLoop (n + 1) s = .error .receiveNeverReturns ↔
      ∃ t, receiveRound s = some t ∧ receiveLoop n t = .error .receiveNeverReturns := by
  unfold receiveRound
  rw [receiveLoop]
  split
  · simpa using extractOp_noHang s
  · obtain ⟨r, u, ha⟩ := availOp_ok s
    rw [ha]
    cases r with
    | false => simp
    | true =>
      simp only [ok_bind, if_true]
      cases hd : deliverNext u with
      | error e => have := deliverNext_noHang u; rw [hd] at this; simpa using this
      | ok v => simp

/-! ### What decides -/

/-- What decides whether the loop goes on, with no byte staged. -/
structure LoopView where
  ss : SearchState
  cur : Nat
  plf : Bool
  rxq : List Byte
  dev : List (List Byte)
  idle : DeviceIdle
  cap : Nat

/-- The view of a state. -/
def State.loopView (s : State) : LoopView := ⟨s.ss, s.cur, s.plf, s.rxq, s.dev, s.devIdle, s.params.frameCap⟩

/-- What one FEED does to `SS` and `CUR`; none where the model would stop (R91 to R99). -/
def feedView (c : Byte) (ss : SearchState) (cur : Nat) : Option (SearchState × Nat) :=
  if accepted c then
    match ss with
    | .searching => some (if c = chDollar then .inBody else .searching, cur)
    | .inBody | .cks1 =>
      if cur < capacity then
        if cur + 1 = forceAt then some (.complete, cur + 2) else some (storedSuccessor ss c, cur + 1)
      else none
    | .cks2 => if cur + 1 < capacity then some (.complete, cur + 2) else none
    | .complete => some (.complete, if cur < capacity - 1 then cur + 1 else cur)
  else some (ss, cur)

/-- How many bytes AVAIL asks for when the queue is empty (R71, R72). -/
def LoopView.wanted (v : LoopView) : Nat := if v.plf then 1 else v.cap

/-- The next byte, and what is left queued and listed after it. -/
def LoopView.nextByte (v : LoopView) : Option (Byte × List Byte × List (List Byte)) :=
  match v.rxq with
  | b :: q => some (b, q, v.dev)
  | [] =>
    match (if v.dev = [] then idleBursts v.wanted v.idle else v.dev) with
    | [] => none
    | burst :: rest =>
      match burst.take v.wanted with
      | [] => none
      | b :: q => some (b, q, burstsAfter v.wanted burst rest)

/-- One round on the view: the next byte is a line feed after a line feed, or the byte is delivered and fed. -/
def LoopView.round (v : LoopView) : Option LoopView :=
  if v.ss = .complete then none
  else
    match v.nextByte with
    | none => none
    | some (b, q, d) =>
      if v.plf = true ∧ b = chLf then none
      else
        match feedView b v.ss v.cur with
        | none => none
        | some (ss, cur) => some { v with ss := ss, cur := cur, plf := decide (b = chLf), rxq := q, dev := d }

theorem feedOp_view {c : Byte} {s t : State} {r : Bool} (h : feedOp c s = .ok (r, t)) :
    feedView c s.ss s.cur = some (t.ss, t.cur) := by
  unfold feedView
  cases feedOp_cases h with
  | rejected ha => simp [ha]
  | skipped ha hs hc => simp [ha, hs, hc]
  | started hs hc => simp [hs, hc]
  | stored ha hs hcur hf => rcases hs with hs | hs <;> simp [ha, hs, hcur, hf]
  | forced ha hs hf =>
    have hcur : s.cur < capacity := by simp [forceAt, capacity] at hf ⊢; omega
    rcases hs with hs | hs <;> simp [ha, hs, hf, hcur, State.completed]
  | completed ha hs hcur => simp [ha, hs, hcur, State.completed]
  | appended ha hs hcur => simp [ha, hs, hcur]
  | dropped ha hs hcur => simp [ha, hs, Nat.not_lt.2 hcur]

theorem feedOp_of_view {c : Byte} {s : State} {p : SearchState × Nat} (h : feedView c s.ss s.cur = some p) :
    ∃ r t, feedOp c s = .ok (r, t) := by
  by_cases hs : s.ss = .complete
  · exact feedOp_ok (.inr hs)
  by_cases hc : s.cur ≤ 81
  · exact feedOp_ok (.inl hc)
  unfold feedView at h
  unfold feedOp
  split
  · next ha =>
    rw [if_pos ha] at h
    have h1 : ¬ s.cur + 1 < capacity := by simp [capacity]; omega
    have h2 : s.cur + 1 ≠ forceAt := by simp [forceAt, capacity]; omega
    cases hss : s.ss with
    | searching => exact ⟨_, _, rfl⟩
    | inBody =>
      simp only [hss, h2, if_false] at h
      split at h
      · next hcur =>
        simp only [store_ok hcur, ok_bind, forceCheck]
        split <;> simp [State.stored, h2]
      · simp at h
    | cks1 =>
      simp only [hss, h2, if_false] at h
      split at h
      · next hcur => simp [store_ok hcur, forceCheck, State.stored, h2]
      · simp at h
    | cks2 => simp [hss, h1] at h
    | complete => exact absurd hss hs
  · exact ⟨_, _, rfl⟩

/-- The next byte is the head of the queue once AVAIL has filled it. -/
theorem nextByte_fill (s : State) :
    s.loopView.nextByte =
      (match (fillIfEmpty s.loopView.wanted s).rxq with
        | [] => none
        | b :: q => some (b, q, (fillIfEmpty s.loopView.wanted s).dev)) := by
  generalize hw : s.loopView.wanted = n
  simp only [LoopView.nextByte, hw]
  simp only [State.loopView]
  cases hq : s.rxq with
  | cons b q => rw [fillIfEmpty_nonempty _ _ (by simp [hq])]; simp [hq]
  | nil =>
    have hf : fillIfEmpty n s = requestBlock n s := by simp [fillIfEmpty, queuedCount, hq]
    rw [hf]
    simp only [requestBlock, pendingBursts]
    by_cases hd : s.dev = []
    · simp only [hd, if_true]
      cases idleBursts n s.devIdle with
      | nil => simp [State.granted, hq]
      | cons burst rest => simp only [State.granted, hq, List.nil_append]
    · simp only [hd, if_false]
      cases s.dev with
      | nil => simp [State.granted, hq]
      | cons burst rest => simp only [State.granted, hq, List.nil_append]

/-- Where there is no next byte, or it is a line feed after a line feed, the loop ends. -/
theorem receiveRound_none {s : State} (hl : s.lookV = false)
    (h : s.loopView.nextByte = none ∨ ∃ q d, s.plf = true ∧ s.loopView.nextByte = some (chLf, q, d)) :
    receiveRound s = none := by
  rw [nextByte_fill] at h
  unfold receiveRound
  split
  · rfl
  obtain ⟨r, u, ha⟩ := availOp_ok s
  rw [ha]
  cases r with
  | false => rfl
  | true =>
    exfalso
    obtain ⟨hp, ht, hr⟩ | ⟨-, -, hr, -⟩ | ⟨-, q, -, hr, -⟩ | ⟨hp, b, q, hb, hq, -, -⟩ := availOp_cases ha
    · have hw : s.loopView.wanted = s.params.frameCap := by simp [LoopView.wanted, State.loopView, hp]
      have hul : u.lookV = false := by rw [ht, fillIfEmpty_frame]; exact hl
      have hq : (fillIfEmpty s.loopView.wanted s).rxq = u.rxq := by rw [hw, ht]
      rw [hq] at h
      cases hu : u.rxq with
      | nil => simp [hul, queuedCount, hu] at hr
      | cons c q => simp [hu, hp] at h
    · simp at hr
    · simp at hr
    · have hw : s.loopView.wanted = 1 := by simp [LoopView.wanted, State.loopView, hp]
      simp [hw, hq, hb] at h

/-- The state in which the next byte has been delivered, before it is fed. -/
theorem receiveRound_deliver {s : State} {b : Byte} {q : List Byte} {d : List (List Byte)} (hl : s.lookV = false)
    (hs : s.ss ≠ .complete) (hn : s.loopView.nextByte = some (b, q, d)) (hb : ¬ (s.plf = true ∧ b = chLf)) :
    ∃ u, receiveRound s = (match feedOp b u with | .ok p => some p.2 | .error _ => none) ∧ u.ss = s.ss ∧
      u.cur = s.cur ∧ u.plf = decide (b = chLf) ∧ u.lookV = false ∧ u.rxq = q ∧ u.dev = d ∧ u.devIdle = s.devIdle ∧
      u.params = s.params := by
  rw [nextByte_fill] at hn
  have key : ∀ a u : State, availOp s = .ok (true, a) → rdbyteOp a = .ok (some b, u) →
      receiveRound s = (match feedOp b u with | .ok p => some p.2 | .error _ => none) := by
    intro a u ha hu
    simp only [receiveRound, if_neg hs, ha, deliverNext, hu, ok_bind]
    cases feedOp b u <;> simp
  have hw : s.plf = true → s.loopView.wanted = 1 := fun hp => by simp [LoopView.wanted, State.loopView, hp]
  obtain ⟨r, a, ha⟩ := availOp_ok s
  obtain ⟨hp, ht, hr⟩ | ⟨hp, hq, -, -⟩ | ⟨hp, q', hq, hr, -⟩ | ⟨hp, b', q', hb', hq, hr, ht⟩ := availOp_cases ha
  · have hw : s.loopView.wanted = s.params.frameCap := by simp [LoopView.wanted, State.loopView, hp]
    have hul : a.lookV = false := by rw [ht, fillIfEmpty_frame]; exact hl
    rw [hw, ← ht] at hn
    cases hu : a.rxq with
    | nil => simp [hu] at hn
    | cons c q' =>
      simp only [hu, Option.some.injEq, Prod.mk.injEq] at hn
      obtain ⟨rfl, rfl, rfl⟩ := hn
      have hr' : r = true := by simp [hr, hul, queuedCount, hu]
      subst hr'
      refine ⟨noteDelivered c (a.popped c q'), key a _ ha ?_, ?_⟩
      · simp [rdbyteOp, hul, queuedCount, hu, readOne_cons hu]
      · have hap : a.plf = false := by rw [ht, fillIfEmpty_frame]; exact hp
        rw [noteDelivered_frame]
        simp only [State.popped, hul, hap]
        refine ⟨?_, ?_, by simp, trivial, trivial, trivial, ?_, ?_⟩ <;> rw [ht, fillIfEmpty_frame]
  · simp [hw hp, hq] at hn
  · simp only [hw hp, hq, Option.some.injEq, Prod.mk.injEq] at hn
    exact absurd ⟨hp, hn.1.symm⟩ hb
  · simp only [hw hp, hq, Option.some.injEq, Prod.mk.injEq] at hn
    obtain ⟨rfl, rfl, rfl⟩ := hn
    subst hr ht
    refine ⟨_, key _ _ ha (by simp only [rdbyteOp, stageLook]; rfl), ?_⟩
    rw [noteDelivered_frame]
    simp only [State.popped, hb']
    refine ⟨?_, ?_, by simp, trivial, trivial, trivial, ?_, ?_⟩ <;> rw [fillIfEmpty_frame]

/-- With no byte staged, a round of the loop is a round of the view. -/
theorem receiveRound_view {s : State} (hl : s.lookV = false) :
    (∀ t, receiveRound s = some t → t.lookV = false ∧ s.loopView.round = some t.loopView) ∧
    (∀ w, s.loopView.round = some w → ∃ t, receiveRound s = some t) := by
  by_cases hs : s.ss = .complete
  · simp [receiveRound, LoopView.round, State.loopView, hs]
  have hs' : s.loopView.ss ≠ .complete := hs
  cases hn : s.loopView.nextByte with
  | none => simp [receiveRound_none hl (.inl hn), LoopView.round, hn]
  | some p =>
    obtain ⟨b, q, d⟩ := p
    by_cases hb : s.plf = true ∧ b = chLf
    · have hr := receiveRound_none hl (.inr ⟨q, d, hb.1, by rw [hn, hb.2]⟩)
      have hb' : s.loopView.plf = true ∧ b = chLf := hb
      simp [hr, LoopView.round, hs', hn, hb']
    · have hb' : ¬ (s.loopView.plf = true ∧ b = chLf) := hb
      obtain ⟨u, hr, e1, e2, e3, e4, e5, e6, e7, e8⟩ := receiveRound_deliver hl hs hn hb
      have hround : s.loopView.round = (match feedView b s.ss s.cur with
          | none => none
          | some (ss, cur) =>
            some { s.loopView with ss := ss, cur := cur, plf := decide (b = chLf), rxq := q, dev := d }) := by
        rw [LoopView.round, if_neg hs', hn]; simp only [if_neg hb']; rfl
      rw [hround, hr]
      constructor
      · intro t ht
        cases hf : feedOp b u with
        | error e => simp [hf] at ht
        | ok p =>
          obtain ⟨r, t'⟩ := p
          simp only [hf, Option.some.injEq] at ht
          subst ht
          have hv := feedOp_view hf
          rw [e1, e2] at hv
          have hfr := feedOp_frame hf
          rw [hv]
          refine ⟨by rw [hfr]; exact e4, ?_⟩
          simp only [State.loopView, Option.some.injEq, LoopView.mk.injEq, true_and]
          rw [hfr]; simp [e3, e5, e6, e7, e8]
      · intro w hw
        cases hv : feedView b s.ss s.cur with
        | none => simp [hv] at hw
        | some p =>
          rw [← e1, ← e2] at hv
          obtain ⟨r, t, hf⟩ := feedOp_of_view hv
          exact ⟨t, by simp [hf]⟩

/-! ### Runs of the view -/

/-- `n` rounds of the view. -/
def LoopView.rounds : Nat → LoopView → Option LoopView
  | 0, v => some v
  | n + 1, v => v.round.bind (LoopView.rounds n)

/-- The loop is still going round after `n` rounds. -/
def LoopView.live (n : Nat) (v : LoopView) : Prop := (v.rounds n).isSome = true

/-- With no byte staged, whether the loop goes on is a matter of the view. -/
theorem receiveLoop_hang_view {n : Nat} {s : State} (hl : s.lookV = false) :
    receiveLoop n s = .error .receiveNeverReturns ↔ s.loopView.live n := by
  induction n generalizing s with
  | zero => simp [receiveLoop, LoopView.live, LoopView.rounds]
  | succ n ih =>
    rw [receiveLoop_hang_succ]
    obtain ⟨h1, h2⟩ := receiveRound_view hl
    constructor
    · rintro ⟨t, ht, hn⟩
      obtain ⟨htl, hv⟩ := h1 t ht
      simpa [LoopView.live, LoopView.rounds, hv] using (ih htl).1 hn
    · intro h
      cases hw : s.loopView.round with
      | none => simp [LoopView.live, LoopView.rounds, hw] at h
      | some w =>
        obtain ⟨t, ht⟩ := h2 w hw
        obtain ⟨htl, hv⟩ := h1 t ht
        refine ⟨t, ht, (ih htl).2 ?_⟩
        simpa [LoopView.live, LoopView.rounds, hv] using h

theorem LoopView.rounds_add (m n : Nat) (v : LoopView) : v.rounds (m + n) = (v.rounds m).bind (LoopView.rounds n) := by
  induction m generalizing v with
  | zero => simp [LoopView.rounds]
  | succ m ih =>
    rw [show m + 1 + n = (m + n) + 1 by omega, LoopView.rounds, LoopView.rounds]
    cases v.round with
    | none => rfl
    | some w => simpa using ih w

theorem LoopView.live_of_le {m n : Nat} {v : LoopView} (h : v.live n) (hm : m ≤ n) : v.live m := by
  obtain ⟨k, rfl⟩ := Nat.exists_eq_add_of_le hm
  unfold LoopView.live at h ⊢
  rw [LoopView.rounds_add] at h
  cases hv : v.rounds m with
  | none => simp [hv] at h
  | some w => rfl

/-- A run of the view that goes on after `m` rounds goes on from where it then is. -/
theorem LoopView.live_add {m n : Nat} {v w : LoopView} (h : v.rounds m = some w) : v.live (m + n) ↔ w.live n := by
  simp [LoopView.live, LoopView.rounds_add, h]

/-- A loop that comes back to where it was never ends. -/
theorem LoopView.live_of_period {k : Nat} {v : LoopView} (h : v.rounds (k + 1) = some v) (n : Nat) : v.live n := by
  have hm : ∀ m, v.live (m * (k + 1)) := by
    intro m
    induction m with
    | zero => simp [LoopView.live, LoopView.rounds]
    | succ m ih => rw [Nat.succ_mul, Nat.add_comm]; exact (LoopView.live_add h).2 ih
  exact LoopView.live_of_le (hm n) (Nat.le_mul_of_pos_right n (Nat.succ_pos k))

/-! ### What decides early -/

/-- What is queued and listed. -/
def LoopView.left (v : LoopView) : Nat := v.rxq.length + burstBytes v.dev

/-- How often the Framer can still move. -/
def LoopView.moves (v : LoopView) : Nat := if v.ss = .searching then 84 else 83 - v.cur

/-- `w` is later than `v` in a loop: the Framer has moved, or stands where it stood. -/
structure LoopView.Later (v w : LoopView) : Prop where
  le : w.moves ≤ v.moves
  same : w.moves = v.moves → w.ss = v.ss ∧ w.cur = v.cur
  idle : w.idle = v.idle
  cap : w.cap = v.cap

theorem LoopView.Later.refl (v : LoopView) : v.Later v := ⟨Nat.le_refl _, fun _ => ⟨rfl, rfl⟩, rfl, rfl⟩

theorem LoopView.Later.trans {u v w : LoopView} (h : u.Later v) (k : v.Later w) : u.Later w := by
  refine ⟨k.le.trans h.le, fun e => ?_, k.idle.trans h.idle, k.cap.trans h.cap⟩
  have h1 := h.le
  have h2 := k.le
  obtain ⟨a, b⟩ := k.same (by omega)
  obtain ⟨c, d⟩ := h.same (by omega)
  exact ⟨a.trans c, b.trans d⟩

/-- A FEED moves the Framer forward or leaves it where it stands. -/
theorem feedView_later {c : Byte} {ss ss' : SearchState} {cur cur' : Nat} (h : feedView c ss cur = some (ss', cur'))
    (hs : ss ≠ .complete) :
    let m := if ss = .searching then 84 else 83 - cur
    let m' := if ss' = .searching then 84 else 83 - cur'
    m' ≤ m ∧ (m' = m → ss' = ss ∧ cur' = cur) := by
  unfold feedView at h
  by_cases ha : accepted c = true
  · rw [if_pos ha] at h
    cases ss with
    | searching =>
      simp only [Option.some.injEq, Prod.mk.injEq] at h
      obtain ⟨rfl, rfl⟩ := h
      by_cases hd : c = chDollar <;> simp [hd]; omega
    | complete => exact absurd rfl hs
    | cks2 =>
      by_cases hc : cur + 1 < capacity <;> simp [hc] at h
      obtain ⟨rfl, rfl⟩ := h
      simp [capacity] at hc ⊢; omega
    | inBody =>
      by_cases hc : cur < capacity <;> simp [hc] at h
      simp only [capacity] at hc
      by_cases hf : cur + 1 = forceAt <;> simp [hf] at h <;> obtain ⟨rfl, rfl⟩ := h
      · simp; omega
      · by_cases hd : c = chStar <;> simp [storedSuccessor, hd] <;> omega
    | cks1 =>
      by_cases hc : cur < capacity <;> simp [hc] at h
      simp only [capacity] at hc
      by_cases hf : cur + 1 = forceAt <;> simp [hf] at h <;> obtain ⟨rfl, rfl⟩ := h <;> simp [storedSuccessor] <;> omega
  · rw [if_neg ha] at h
    simp only [Option.some.injEq, Prod.mk.injEq] at h; obtain ⟨rfl, rfl⟩ := h; simp

/-- What a round does. -/
theorem LoopView.round_some {v w : LoopView} (h : v.round = some w) :
    v.ss ≠ .complete ∧ ∃ b q d, v.nextByte = some (b, q, d) ∧ ¬ (v.plf = true ∧ b = chLf) ∧
      feedView b v.ss v.cur = some (w.ss, w.cur) ∧ w.plf = decide (b = chLf) ∧ w.rxq = q ∧ w.dev = d ∧
      w.idle = v.idle ∧ w.cap = v.cap := by
  unfold LoopView.round at h
  split at h
  · simp at h
  next hs =>
    refine ⟨hs, ?_⟩
    cases hn : v.nextByte with
    | none => simp [hn] at h
    | some p =>
      obtain ⟨b, q, d⟩ := p
      simp only [hn] at h
      split at h
      · simp at h
      next hb =>
        cases hv : feedView b v.ss v.cur with
        | none => simp [hv] at h
        | some p =>
          simp only [hv, Option.some.injEq] at h
          subst h
          exact ⟨b, q, d, rfl, hb, hv, rfl, rfl, rfl, rfl, rfl⟩

/-- A round leads to a later view. -/
theorem LoopView.round_later {v w : LoopView} (h : v.round = some w) : v.Later w := by
  obtain ⟨hs, b, q, d, -, -, hv, -, -, -, hi, hc⟩ := LoopView.round_some h
  obtain ⟨h1, h2⟩ := feedView_later hv hs
  exact ⟨h1, h2, hi, hc⟩

/-- A grant and what it leaves are the bursts it is made from. -/
theorem burstBytes_after {n : Nat} {burst : List Byte} {rest : List (List Byte)} :
    (burst.take n).length + burstBytes (burstsAfter n burst rest) = burst.length + burstBytes rest := by
  unfold burstsAfter burstBytes
  split
  · next h => rw [List.take_of_length_le h]
  · simp; omega

/-- A round takes one byte of what is left, or of what the idle device gives when nothing is. -/
theorem LoopView.nextByte_left {v : LoopView} {b : Byte} {q : List Byte} {d : List (List Byte)}
    (h : v.nextByte = some (b, q, d)) :
    (¬ (v.rxq = [] ∧ v.dev = []) → q.length + burstBytes d + 1 = v.left) ∧
    (v.rxq = [] → v.dev = [] → q.length + burstBytes d + 1 = burstBytes (idleBursts v.wanted v.idle)) := by
  unfold LoopView.nextByte at h
  unfold LoopView.left
  cases hq : v.rxq with
  | cons c q' => simp only [hq, Option.some.injEq, Prod.mk.injEq] at h; obtain ⟨rfl, rfl, rfl⟩ := h; simp; omega
  | nil =>
    simp only [hq] at h
    have key : ∀ l : List (List Byte), (match l with
        | [] => none
        | burst :: rest => match burst.take v.wanted with
          | [] => none
          | b :: q => some (b, q, burstsAfter v.wanted burst rest)) = some (b, q, d) →
        q.length + burstBytes d + 1 = burstBytes l := by
      intro l hl
      cases l with
      | nil => simp at hl
      | cons burst rest =>
        have := burstBytes_after (n := v.wanted) (burst := burst) (rest := rest)
        cases ht : burst.take v.wanted with
        | nil => simp [ht] at hl
        | cons c q' =>
          simp only [ht, Option.some.injEq, Prod.mk.injEq] at hl
          obtain ⟨rfl, rfl, rfl⟩ := hl
          rw [ht] at this
          simp [burstBytes] at this ⊢; omega
    by_cases hd : v.dev = []
    · simp only [hd, if_true] at h; simpa [hd] using key _ h
    · simp only [hd, if_false] at h; simpa [hd] using key _ h

/-- A loop that goes on long enough reads all that is left. -/
theorem LoopView.run_down {k : Nat} {v : LoopView} (hk : v.left = k) (h : v.live k) :
    ∃ w, v.rounds k = some w ∧ w.left = 0 ∧ v.Later w := by
  induction k generalizing v with
  | zero => exact ⟨v, rfl, hk, .refl v⟩
  | succ k ih =>
    cases hr : v.round with
    | none => simp [LoopView.live, LoopView.rounds, hr] at h
    | some w =>
      have hl := LoopView.round_later hr
      obtain ⟨-, b, q, d, hn, -, -, -, hq, hd, -, -⟩ := LoopView.round_some hr
      have hleft := (LoopView.nextByte_left hn).1 (by
        rintro ⟨h1, h2⟩; simp [LoopView.left, h1, h2, burstBytes] at hk)
      have hw : w.left = k := by unfold LoopView.left; rw [hq, hd]; omega
      obtain ⟨u, hu, hz, hlu⟩ := ih hw (by simpa [LoopView.live, LoopView.rounds, hr] using h)
      exact ⟨u, by simp [LoopView.rounds, hr, hu], hz, hl.trans hlu⟩

/-- Where nothing is left and the loop goes on, nothing is listed either, an empty burst included. -/
theorem LoopView.wrapped {v : LoopView} (hz : v.left = 0) (h : v.live 1) : v.rxq = [] ∧ v.dev = [] := by
  cases hr : v.round with
  | none => simp [LoopView.live, LoopView.rounds, hr] at h
  | some w =>
    obtain ⟨-, b, q, d, hn, -⟩ := LoopView.round_some hr
    by_contra hc
    have := (LoopView.nextByte_left hn).1 hc
    omega

/-- One period of a device that repeats bursts. -/
theorem LoopView.period {v : LoopView} {bs : List (List Byte)} (hi : v.idle = .repeats bs) (hq : v.rxq = [])
    (hd : v.dev = []) (h : v.live (burstBytes bs + 1)) :
    0 < burstBytes bs ∧ ∃ w, v.rounds (burstBytes bs) = some w ∧ w.rxq = [] ∧ w.dev = [] ∧ v.Later w := by
  have h1 := LoopView.live_of_le h (Nat.le_add_left 1 _)
  cases hr : v.round with
  | none => simp [LoopView.live, LoopView.rounds, hr] at h1
  | some u =>
    have hl := LoopView.round_later hr
    obtain ⟨-, b, q, d, hn, -, -, -, hq', hd', -, -⟩ := LoopView.round_some hr
    have hleft := (LoopView.nextByte_left hn).2 hq hd
    rw [hi, idleBursts] at hleft
    obtain ⟨k, hk⟩ : ∃ k, burstBytes bs = k + 1 := ⟨_, hleft.symm⟩
    have hu : u.left = k := by unfold LoopView.left; rw [hq', hd']; omega
    have hr1 : v.rounds 1 = some u := by simp [LoopView.rounds, hr]
    have hul : u.live (k + 1) := by
      rw [hk, show k + 1 + 1 = 1 + (k + 1) by omega] at h
      exact (LoopView.live_add hr1).1 h
    obtain ⟨w, hw, hz, hlw⟩ := LoopView.run_down hu (LoopView.live_of_le hul (by omega))
    obtain ⟨hwq, hwd⟩ := LoopView.wrapped hz ((LoopView.live_add hw).1 hul)
    refine ⟨by omega, w, ?_, hwq, hwd, hl.trans hlw⟩
    rw [hk, show k + 1 = 1 + k by omega, LoopView.rounds_add, hr1]; exact hw

/-- A loop that reaches one that never ends never ends. -/
theorem LoopView.forever_of_rounds {k : Nat} {v w : LoopView} (h : v.rounds k = some w) (hw : ∀ n, w.live n) (n : Nat) :
    v.live n :=
  LoopView.live_of_le ((LoopView.live_add h).2 (hw n)) (Nat.le_add_left n k)

/-- Two views that wrap alike and stand alike are one. -/
theorem LoopView.Later.eq {v w : LoopView} (h : v.Later w) (hm : w.moves = v.moves) (hp : w.plf = v.plf)
    (hq : w.rxq = v.rxq) (hd : w.dev = v.dev) : w = v := by
  obtain ⟨h1, h2⟩ := h.same hm
  cases v; cases w
  simp_all only [LoopView.mk.injEq, true_and]
  exact ⟨h.idle, h.cap⟩

/-- On a device that repeats bursts: two periods for each move the Framer can still make decide. -/
theorem LoopView.forever_repeats (m : Nat) {v : LoopView} {bs : List (List Byte)} (hi : v.idle = .repeats bs)
    (hq : v.rxq = []) (hd : v.dev = []) (hm : v.moves ≤ m) (h : v.live (2 * (m + 1) * burstBytes bs + 1)) (n : Nat) :
    v.live n := by
  induction m using Nat.strongRecOn generalizing v n with
  | ind m ih =>
    have hsum : 2 * (m + 1) * burstBytes bs = burstBytes bs + (burstBytes bs + 2 * m * burstBytes bs) := by ring
    rw [hsum] at h
    obtain ⟨hL, w, hw, hwq, hwd, hlw⟩ := LoopView.period hi hq hd (LoopView.live_of_le h (by omega))
    obtain ⟨k, hk⟩ : ∃ k, burstBytes bs = k + 1 := ⟨burstBytes bs - 1, by omega⟩
    have hw' := (LoopView.live_add hw).1 (by rwa [Nat.add_assoc] at h)
    have down : ∀ (u : LoopView) (r : Nat), v.rounds r = some u → v.Later u → u.rxq = [] → u.dev = [] →
        u.moves < v.moves → u.live (2 * m * burstBytes bs + 1) → v.live n := by
      intro u r hr hlu huq hud hlt hlive
      have := hlu.idle
      refine LoopView.forever_of_rounds hr (fun n' => ih (m - 1) (by omega) (by rw [hlu.idle, hi]) huq hud (by omega) ?_ n') n
      rwa [show m - 1 + 1 = m by omega]
    by_cases h1 : w.moves = v.moves
    · by_cases hp : w.plf = v.plf
      · have := hlw.eq h1 hp (by rw [hwq, hq]) (by rw [hwd, hd])
        subst this
        rw [hk] at hw
        exact LoopView.live_of_period hw n
      · obtain ⟨-, x, hx, hxq, hxd, hlx⟩ := LoopView.period (hlw.idle.trans hi) hwq hwd (LoopView.live_of_le hw' (by omega))
        have hvx : v.rounds (burstBytes bs + burstBytes bs) = some x := by rw [LoopView.rounds_add, hw]; exact hx
        by_cases h2 : x.moves = v.moves
        · by_cases hpx : x.plf = v.plf
          · have := (hlw.trans hlx).eq h2 hpx (by rw [hxq, hq]) (by rw [hxd, hd])
            subst this
            rw [show burstBytes bs + burstBytes bs = (k + (k + 1)) + 1 by omega] at hvx
            exact LoopView.live_of_period hvx n
          · have hpw : x.plf = w.plf := by
              revert hp hpx; cases x.plf <;> cases w.plf <;> cases v.plf <;> simp
            have := hlx.eq (by omega) hpw (by rw [hxq, hwq]) (by rw [hxd, hwd])
            subst this
            rw [hk] at hx
            exact LoopView.forever_of_rounds hw (LoopView.live_of_period hx) n
        · have hle := (hlw.trans hlx).le
          refine down x _ hvx (hlw.trans hlx) hxq hxd (by omega) ?_
          exact (LoopView.live_add hx).1 (by rwa [Nat.add_assoc] at hw')
    · have hle := hlw.le
      exact down w _ hw hlw hwq hwd (by omega) (LoopView.live_of_le hw' (by omega))

/-- On a device that idles on one byte: from a view in which only that byte is left. -/
theorem LoopView.filler_byte {v : LoopView} {b : Byte} (hi : v.idle = .filler b) (hd : v.dev = [])
    (hq : ∀ c ∈ v.rxq, c = b) (hc : 0 < v.cap) : ∃ q, v.nextByte = some (b, q, []) ∧ ∀ c ∈ q, c = b := by
  unfold LoopView.nextByte
  cases hr : v.rxq with
  | cons c q =>
    simp only [hr, List.mem_cons] at hq
    exact ⟨q, by simp [hq c (.inl rfl), hd], fun x hx => hq x (.inr hx)⟩
  | nil =>
    obtain ⟨k, hk⟩ : ∃ k, v.wanted = k + 1 := by
      unfold LoopView.wanted; split
      · exact ⟨0, rfl⟩
      · exact ⟨v.cap - 1, by omega⟩
    refine ⟨List.replicate k b, ?_, fun c hc => List.eq_of_mem_replicate hc⟩
    simp [hd, hi, idleBursts, hk, List.replicate_succ, burstsAfter]

/-- On a device that idles on one byte: one round for each move the Framer can still make, and two more, decide. -/
theorem LoopView.forever_filler (m : Nat) {v : LoopView} {b : Byte} (hi : v.idle = .filler b) (hd : v.dev = [])
    (hq : ∀ c ∈ v.rxq, c = b) (hc : 0 < v.cap) (hm : v.moves ≤ m) (h : v.live (m + 2)) (n : Nat) : v.live n := by
  induction m using Nat.strongRecOn generalizing v n with
  | ind m ih =>
    have step1 : ∀ {v w : LoopView}, v.idle = .filler b → v.dev = [] → (∀ c ∈ v.rxq, c = b) → 0 < v.cap →
        v.round = some w → w.dev = [] ∧ (∀ c ∈ w.rxq, c = b) ∧ w.plf = decide (b = chLf) ∧
          feedView b v.ss v.cur = some (w.ss, w.cur) ∧ ¬ (v.plf = true ∧ b = chLf) ∧ v.ss ≠ .complete := by
      intro v w hi hd hq hc hr
      obtain ⟨hs, b', q, d, hn, hb, hv, hp, hq', hd', -, -⟩ := LoopView.round_some hr
      obtain ⟨q2, hn2, hq2⟩ := LoopView.filler_byte hi hd hq hc
      rw [hn2] at hn
      simp only [Option.some.injEq, Prod.mk.injEq] at hn
      obtain ⟨rfl, rfl, rfl⟩ := hn
      exact ⟨hd', by rw [hq']; exact hq2, hp, hv, hb, hs⟩
    cases hr : v.round with
    | none => simp [LoopView.live, LoopView.rounds, hr] at h
    | some w =>
      have hr1 : v.rounds 1 = some w := by simp [LoopView.rounds, hr]
      obtain ⟨hwd, hwq, hwp, hv, hb, hs⟩ := step1 hi hd hq hc hr
      have hl := LoopView.round_later hr
      have hwl : w.live (m + 1) := (LoopView.live_add hr1).1 (by rwa [show 1 + (m + 1) = m + 2 by omega])
      by_cases hmv : w.moves = v.moves
      · have hlf : b ≠ chLf := by
          rintro rfl
          cases hr2 : w.round with
          | none => have := LoopView.live_of_le hwl (show 1 ≤ m + 1 by omega); simp [LoopView.live, LoopView.rounds, hr2] at this
          | some x =>
            exact (step1 (hl.idle.trans hi) hwd hwq (by rw [hl.cap]; exact hc) hr2).2.2.2.2.1 ⟨by simp [hwp], rfl⟩
        obtain ⟨e1, e2⟩ := hl.same hmv
        rw [e1, e2] at hv
        have all : ∀ n, ∀ u : LoopView, u.idle = .filler b → u.dev = [] → (∀ c ∈ u.rxq, c = b) → 0 < u.cap →
            u.ss = v.ss → u.cur = v.cur → u.live n := by
          intro n
          induction n with
          | zero => intros; simp [LoopView.live, LoopView.rounds]
          | succ n ihn =>
            intro u ui ud uq uc us ucur
            obtain ⟨q2, hn2, hq2⟩ := LoopView.filler_byte ui ud uq uc
            have hround : u.round = some { u with ss := v.ss, cur := v.cur, plf := decide (b = chLf), rxq := q2, dev := [] } := by
              unfold LoopView.round
              rw [us, if_neg hs, hn2]
              simp [hlf, ucur, hv]
            simpa [LoopView.live, LoopView.rounds, hround] using
              ihn { u with ss := v.ss, cur := v.cur, plf := decide (b = chLf), rxq := q2, dev := [] } ui rfl hq2 uc rfl rfl
        exact all n v hi hd hq hc rfl rfl
      · have hle := hl.le
        refine LoopView.forever_of_rounds hr1 (fun n' => ih (m - 1) (by omega) (hl.idle.trans hi) hwd hwq
          (by rw [hl.cap]; exact hc) (by omega) (LoopView.live_of_le hwl (by omega)) n') n

theorem LoopView.moves_le (v : LoopView) : v.moves ≤ 84 := by unfold LoopView.moves; split <;> omega

/-- A loop that goes on for as many rounds as bytes are left, and then `decidingPeriods` of the idle device, never ends. -/
theorem LoopView.forever {v : LoopView} (hc : 0 < v.cap)
    (h : v.live (v.left + decidingPeriods * idlePeriod v.idle + 1)) (n : Nat) : v.live n := by
  obtain ⟨w, hw, hz, hlw⟩ := LoopView.run_down rfl (LoopView.live_of_le h (show v.left ≤ _ by omega))
  have hwl := (LoopView.live_add hw).1 (by rwa [Nat.add_assoc] at h)
  obtain ⟨hq, hd⟩ := LoopView.wrapped hz (LoopView.live_of_le hwl (by omega))
  have hm := w.moves_le
  have hi := hlw.idle
  rw [show decidingPeriods = 174 from rfl] at hwl
  refine LoopView.forever_of_rounds hw (fun n => ?_) n
  cases hidle : v.idle with
  | silent =>
    exfalso
    rw [hidle] at hwl hi
    have : w.round = none := by
      unfold LoopView.round LoopView.nextByte; simp [hq, hd, hi, idleBursts]
    simp [LoopView.live, LoopView.rounds, this] at hwl
  | filler b =>
    rw [hidle] at hwl hi
    exact LoopView.forever_filler 84 hi hd (by simp [hq]) (by rw [hlw.cap]; exact hc) hm
      (LoopView.live_of_le hwl (by simp [idlePeriod])) n
  | repeats bs =>
    rw [hidle] at hwl hi
    exact LoopView.forever_repeats 84 hi hq hd hm (LoopView.live_of_le hwl (by simp only [idlePeriod]; omega)) n

/-- The queue and the device once AVAIL has filled an empty queue. -/
theorem fillIfEmpty_left (n : Nat) (s : State) :
    ((fillIfEmpty n s).rxq.length + burstBytes (fillIfEmpty n s).dev ≤ s.rxq.length + burstBytes s.dev) ∨
    (s.rxq = [] ∧ s.dev = [] ∧
      ((fillIfEmpty n s).rxq.length + burstBytes (fillIfEmpty n s).dev = burstBytes (idleBursts n s.devIdle)) ∧
      ∀ b, s.devIdle = .filler b → (fillIfEmpty n s).rxq = List.replicate n b ∧ (fillIfEmpty n s).dev = []) := by
  cases hq : s.rxq with
  | cons b q => left; rw [fillIfEmpty_nonempty _ _ (by simp [hq])]; simp [hq]
  | nil =>
    have hf : fillIfEmpty n s = requestBlock n s := by simp [fillIfEmpty, queuedCount, hq]
    rw [hf]
    unfold requestBlock pendingBursts
    by_cases hd : s.dev = []
    · right
      simp only [hd, if_true]
      refine ⟨trivial, trivial, ?_, fun b hb => ?_⟩
      · cases idleBursts n s.devIdle with
        | nil => simp [State.granted, hq, burstBytes]
        | cons burst rest => 
          have := burstBytes_after (n := n) (burst := burst) (rest := rest)
          simp [State.granted, hq] at this ⊢; rw [this]; simp [burstBytes]
      · simp [hb, idleBursts, State.granted, hq, burstsAfter]
    · left
      simp only [hd, if_false]
      cases hdev : s.dev with
      | nil => exact absurd hdev hd
      | cons burst rest =>
        have := burstBytes_after (n := n) (burst := burst) (rest := rest)
        simp [State.granted, hq] at this ⊢; rw [this]; simp [burstBytes]

/-- A round that begins with a byte staged. -/
theorem receiveRound_staged {s t : State} (hl : s.lookV = true) (h : receiveRound s = some t) :
    ∃ n, 0 < n ∧ t.lookV = false ∧ t.devIdle = s.devIdle ∧ t.params = s.params ∧ t.dev = (fillIfEmpty n s).dev ∧
      ∃ pre, (fillIfEmpty n s).rxq = pre ++ t.rxq := by
  unfold receiveRound at h
  split at h
  · simp at h
  obtain ⟨r, a, ha⟩ := availOp_ok s
  rw [ha] at h
  have deliver : ∀ a : State, a.lookV = true → ∀ u, deliverNext a = .ok u →
      u.lookV = false ∧ u.rxq = a.rxq ∧ u.dev = a.dev ∧ u.devIdle = a.devIdle ∧ u.params = a.params := by
    intro a hal u hu
    obtain ⟨-, hd⟩ | ⟨h', -⟩ | ⟨h', -⟩ := rdbyteOp_cases a
    · unfold deliverNext at hu
      rw [hd] at hu
      simp only [ok_bind, bind_eq_ok, pure_eq_ok, Except.ok.injEq] at hu
      obtain ⟨p, hf, rfl⟩ := hu
      rw [feedOp_frame hf, noteDelivered_frame]; simp
    · simp [hal] at h'
    · simp [hal] at h'
  cases r with
  | false => simp at h
  | true =>
    simp only at h
    cases hd : deliverNext a with
    | error e => simp [hd] at h
    | ok u =>
      simp only [hd, Option.some.injEq] at h
      subst h
      obtain ⟨-, ht, -⟩ | ⟨-, -, hr, -⟩ | ⟨-, q, -, hr, -⟩ | ⟨-, b, q, -, hq, -, ht⟩ := availOp_cases ha
      · have hal : a.lookV = true := by rw [ht, fillIfEmpty_frame]; exact hl
        obtain ⟨e1, e2, e3, e4, e5⟩ := deliver a hal u hd
        refine ⟨s.params.frameCap, s.params.frameCapPos, e1, ?_, ?_, by rw [e3, ht], [], by rw [e2, ht]; rfl⟩
        · rw [e4, ht, fillIfEmpty_frame]
        · rw [e5, ht, fillIfEmpty_frame]
      · simp at hr
      · simp at hr
      · obtain ⟨e1, e2, e3, e4, e5⟩ := deliver a (by rw [ht]; rfl) u hd
        refine ⟨1, Nat.one_pos, e1, ?_, ?_, by rw [e3, ht]; rfl, [b], by rw [e2, ht, hq]; rfl⟩
        · rw [e4, ht]; simp only [stageLook, State.popped]; rw [fillIfEmpty_frame]
        · rw [e5, ht]; simp only [stageLook, State.popped]; rw [fillIfEmpty_frame]

end Sys2Proof.Machine
end

