-- ==== Sys2Proof/Laws/Writer.lean ====
section
/-! SUPPORT. What the chunked byte write of SEND can do, said once: after any number of bytes the closed frames are full
and the open one is not (R131, R135). -/

namespace Sys2Proof.Machine

open Sys2Proof

/-- The state reached from `s0` when a transmission has been begun and the bytes `bs` put: `full` frames are closed
and `part` is open. `CKS` is not spoken of. -/
structure Putting (s0 : State) (bs : List Byte) (s : State) (full : List (List Byte)) (part : List Byte) : Prop where
  fullLength : ∀ f ∈ full, f.length = s0.params.frameCap
  partLength : part.length < s0.params.frameCap
  bytes : full.flatten ++ part = bs
  state : s =
    { s0 with
      cks := s.cks
      txOpen := some part
      txCnt := part.length
      txLog := s0.txLog ++ full
      busLog := s0.busLog ++ full.flatMap (frameCalls s0.params.devAddr) ++
        .beginFrame s0.params.devAddr :: part.map .writeOne }

/-- One byte is put: it always succeeds, and a frame that becomes full is closed at once (R131). -/
theorem Putting.putByte {s0 s : State} {bs part : List Byte} {full : List (List Byte)} (b : Byte)
    (h : Putting s0 bs s full part) :
    ∃ t full' part', Machine.putByte b s = .ok t ∧ t.cks = s.cks ∧ Putting s0 (bs ++ [b]) t full' part' := by
  obtain ⟨h1, h2, h3, h4⟩ := h
  have hopen : s.txOpen = some part := by rw [h4]
  have hcap : s.params = s0.params := by rw [h4]
  have hcnt : s.txCnt = part.length := by rw [h4]
  rw [Machine.putByte, writeOne_ok b hopen (by rw [hcap]; exact h2)]
  simp only [ok_bind, hcnt, hcap]
  by_cases hfull : part.length + 1 = s0.params.frameCap
  · rw [if_pos hfull, endFrame_ok rfl]
    simp only [ok_bind]
    rw [beginFrame_ok rfl]
    refine ⟨_, full ++ [part ++ [b]], [], rfl, rfl, ?_, s0.params.frameCapPos, ?_, ?_⟩
    · intro f hf
      rcases List.mem_append.1 hf with hf | hf
      · exact h1 f hf
      · simp only [List.mem_singleton] at hf; subst hf; simpa using hfull
    · simp [← h3]
    · rw [h4]; simp [frameCalls]
  · rw [if_neg hfull]
    refine ⟨_, full, part ++ [b], rfl, rfl, h1, by simp; omega, by simp [← h3], ?_⟩
    rw [h4]; simp

theorem Putting.putAll {s0 s : State} {bs part : List Byte} {full : List (List Byte)} (cs : List Byte)
    (h : Putting s0 bs s full part) :
    ∃ t full' part', Machine.putAll cs s = .ok t ∧ t.cks = s.cks ∧ Putting s0 (bs ++ cs) t full' part' := by
  induction cs generalizing s bs full part with
  | nil => exact ⟨s, full, part, rfl, rfl, by simpa using h⟩
  | cons c cs ih =>
    obtain ⟨u, f1, p1, hu, hk, hput⟩ := h.putByte c
    obtain ⟨t, f2, p2, ht, hk2, hput2⟩ := ih hput
    exact ⟨t, f2, p2, by simp [Machine.putAll, hu, ht], by rw [hk2, hk], by simpa using hput2⟩

/-- The checksum may be set between two puts. -/
theorem Putting.withCks {s0 s : State} {bs part : List Byte} {full : List (List Byte)} (k : Byte)
    (h : Putting s0 bs s full part) : Putting s0 bs { s with cks := k } full part := by
  obtain ⟨h1, h2, h3, h4⟩ := h
  exact ⟨h1, h2, h3, by rw [h4]⟩

theorem Putting.putBody {s0 s : State} {bs part : List Byte} {full : List (List Byte)} (cs : List Byte)
    (h : Putting s0 bs s full part) :
    ∃ t full' part', Machine.putBody cs s = .ok t ∧ t.cks = cs.foldl (fun acc b => acc ^^^ b) s.cks ∧
      Putting s0 (bs ++ cs) t full' part' := by
  induction cs generalizing s bs full part with
  | nil => exact ⟨s, full, part, rfl, rfl, by simpa using h⟩
  | cons c cs ih =>
    obtain ⟨u, f1, p1, hu, hk, hput⟩ := (h.withCks (s.cks ^^^ c)).putByte c
    obtain ⟨t, f2, p2, ht, hk2, hput2⟩ := ih hput
    exact ⟨t, f2, p2, by simp [Machine.putBody, hu, ht], by rw [hk2, hk]; rfl, by simpa using hput2⟩

/-- What SEND does with a length that is not 0 and no frame open: it answers, and the frames hold the sentence
(R132, R133, R135). -/
theorem sendOp_ok {s : State} {len : Byte} (hn : 1 ≤ sendLength len) (hopen : s.txOpen = none) :
    ∃ t full part, sendOp len s = .ok t ∧
      (∀ f ∈ full, f.length = s.params.frameCap) ∧ part.length < s.params.frameCap ∧
      full.flatten ++ part = chDollar :: writtenBody (bodyBytes s (sendLength len)) ++
        sentenceTrailer (xorBytes (writtenBody (bodyBytes s (sendLength len)))) ∧
      t = { s with
            cks := xorBytes (writtenBody (bodyBytes s (sendLength len)))
            txCnt := part.length
            txLog := s.txLog ++ full ++ [part]
            busLog := s.busLog ++ (full ++ [part]).flatMap (frameCalls s.params.devAddr)
            bodyDraws := s.bodyDraws + bodyMissing s (sendLength len) } := by
  set body := writtenBody (bodyBytes s (sendLength len)) with hbody
  generalize hs0 : ({ s with bodyDraws := s.bodyDraws + bodyMissing s (sendLength len) } : State) = s0
  have h0 : Putting s0 [] { s0 with txOpen := some [], busLog := s0.busLog ++ [.beginFrame s0.params.devAddr], txCnt := 0 }
      [] [] := ⟨by simp, s0.params.frameCapPos, rfl, by simp⟩
  obtain ⟨s2, f2, p2, e2, k2, q2⟩ := h0.putByte chDollar
  obtain ⟨s3, f3, p3, e3, k3, q3⟩ := (q2.withCks 0#8).putBody body
  obtain ⟨s4, f4, p4, e4, k4, q4⟩ := q3.putAll (sentenceTrailer s3.cks)
  have k3' : s3.cks = xorBytes body := by rw [k3]; rfl
  have hopen4 : s4.txOpen = some p4 := by rw [q4.state]
  have hb0 : beginFrame s0 = .ok { s0 with txOpen := some [], busLog := s0.busLog ++ [.beginFrame s0.params.devAddr] } :=
    beginFrame_ok (by rw [← hs0]; exact hopen)
  refine ⟨{ s4 with txOpen := none, txLog := s4.txLog ++ [p4], busLog := s4.busLog ++ [.endFrame] }, f4, p4, ?_, ?_,
    ?_, ?_, ?_⟩
  · rw [sendOp, if_neg (by omega)]
    simp only [hs0, hb0, ok_bind, e2, ← hbody, e3, e4, endFrame_ok hopen4]
  · rw [← hs0] at q4; exact q4.fullLength
  · rw [← hs0] at q4; exact q4.partLength
  · rw [q4.bytes, k3']; simp
  · have hc : s4.cks = xorBytes body := by rw [k4, k3']
    rw [q4.state, hc, ← hs0]
    simp [hopen, frameCalls]

end Sys2Proof.Machine
end

