-- ==== Sys2Proof/Tests/Slice0.lean ====
section
/-! SUPPORT. Tests. Every expected value is a word of 30_encoding.md, a vector of 95_test_vectors.md (its name is given)
or worked out by hand from the rules. After them, one named witness for every obligation that has hypotheses. -/

namespace Sys2Proof.Tests

open Sys2Proof Sys2Proof.Machine

/-! ### Helpers -/

/-- Parameters with a given FRAME_CAP less one. -/
def params (pred : Nat) : Params := ⟨pred + 1, Nat.succ_pos _, 66, .textVisible⟩

/-- The machine after reset with FRAME_CAP = 4, the capacity of vectors G1 to G6; MODE_RESET is TextVisible. -/
def base : State := State.resetWith (params 3)

/-- The state an outcome goes on in, if it does. -/
def after : Host.Outcome State Fault Refusal → Option State
  | .next s => some s
  | .fault _ => none
  | .refused _ => none

/-- A field of the state an outcome goes on in. -/
def look {α : Type} (f : State → α) (o : Host.Outcome State Fault Refusal) : Option α := (after o).map f

/-- The flag, result and data of the response. -/
def answer (o : Host.Outcome State Fault Refusal) : Option (Option Bool × Option ResultCode × Option Byte) :=
  look (fun s => (s.resp.flag, s.resp.result, s.resp.data)) o

/-- `base` after bytes have been fed (the FEEDS of rule R62). -/
def fed (bs : List Byte) : State :=
  match feedAll bs base with
  | .ok s => s
  | .error _ => base

/-- `"A*41"`, a sentence after its `$` (vector F1). -/
def sentenceA : List Byte := [0x24#8, 0x41#8, 0x2A#8, 0x34#8, 0x31#8]

/-- `"$GP"`, the tail of vector F9. -/
def tailGP : List Byte := [0x24#8, 0x47#8, 0x50#8]

/-- `"GPGGA,1,2,3"`, the body of vector W1. -/
def bodyW : List Byte := [0x47#8, 0x50#8, 0x47#8, 0x47#8, 0x41#8, 0x2C#8, 0x31#8, 0x2C#8, 0x32#8, 0x2C#8, 0x33#8]

/-- `n` times `A`. -/
def manyA (n : Nat) : List Byte := List.replicate n 0x41#8

/-! ### Well-formedness: each check refuses an ill-formed term -/

theorem test_wf_accA_dollar : (Instr.accA 0x04#5).wellFormed = false := by decide

theorem test_wf_accA_star : (Instr.accA 0x0A#5).wellFormed = false := by decide

theorem test_wf_rejCtl_lf : (Instr.rejCtl 0x0A#5).wellFormed = false := by decide

theorem test_wf_accA_good : (Instr.accA 0x05#5).wellFormed = true := by decide

/-! ### Decoding: one word for every constructor, as the host numbers it -/

theorem test_decode_avail : decodeTableWord 16 0b0001_00000000 = some .avail := by decide
theorem test_decode_rdbyte : decodeTableWord 16 0b0010_10000001 = some .rdbyte := by decide
theorem test_decode_feed : decodeTableWord 16 0b0011_10000001 = some (.feed 0x81#8) := by decide
theorem test_decode_extract : decodeTableWord 16 0b0100_00000000 = some .extract := by decide
theorem test_decode_receive : decodeTableWord 16 0b0101_11111111 = some .receive := by decide
theorem test_decode_send : decodeTableWord 16 0b0110_01100100 = some (.send 100#8) := by decide
theorem test_decode_setmode : decodeTableWord 16 0b0111_11111110 = some (.setmode 2#2) := by decide
theorem test_decode_getmode : decodeTableWord 16 0b1000_00000000 = some .getmode := by decide
theorem test_decode_reserved0 : decodeTableWord 16 0b0000_00000001 = some .reserved0 := by decide
theorem test_decode_reserved9 : decodeTableWord 16 0b1001_00000000 = some .reserved9 := by decide
theorem test_decode_reservedA : decodeTableWord 16 0b1010_00000000 = some .reservedA := by decide
theorem test_decode_reservedB : decodeTableWord 16 0b1011_00000000 = some .reservedB := by decide
theorem test_decode_reservedC : decodeTableWord 16 0b1100_00000000 = some .reservedC := by decide
theorem test_decode_reservedD : decodeTableWord 16 0b1101_00000000 = some .reservedD := by decide
theorem test_decode_reservedE : decodeTableWord 16 0b1110_00000000 = some .reservedE := by decide
theorem test_decode_reservedF : decodeTableWord 16 0b1111_11111111 = some .reservedF := by decide
theorem test_decode_lf : decodeTableWord 8 0b00001010 = some .lf := by decide
theorem test_decode_dollar : decodeTableWord 8 0b00100100 = some .dollar := by decide
theorem test_decode_star : decodeTableWord 8 0b00101010 = some .star := by decide
theorem test_decode_accA : decodeTableWord 8 0b00100000 = some (.accA 0#5) := by decide
theorem test_decode_accB : decodeTableWord 8 0b01011111 = some (.accB 31#5) := by decide
theorem test_decode_rejCtl : decodeTableWord 8 0b00011111 = some (.rejCtl 31#5) := by decide
theorem test_decode_rejLow : decodeTableWord 8 0b01100000 = some (.rejLow 0#5) := by decide
theorem test_decode_rejHigh : decodeTableWord 8 0b11111111 = some (.rejHigh 127#7) := by decide

/-- Bits above the row, and a width no row has, are refused. -/
theorem test_decode_refuses : decodeTableWord 16 0x1000 = none ∧ decodeTableWord 24 0x100 = none ∧
    decodeTableWord 0 0 = none ∧ decodeTableWord 8 0x100 = none := by decide

/-- A word placed by `withFetchWord` is the next to run, as the first after reset too. -/
theorem test_fetch : answer (step (base.withFetchWord 16 0x800)) = some (none, none, some 0x01#8) ∧
    look (·.plf) (step (base.withFetchWord 8 0x0A)) = some true := by decide

/-! ### AVAIL and RDBYTE -/

/-- G1, first row: a full block is requested. -/
theorem test_avail_normal :
    look (fun s => (s.resp.flag, s.rxq, s.busLog))
      (exec .avail { base with dev := [[0x41#8, 0x42#8, 0x0A#8, 0x0A#8]] }) =
    some (some true, [0x41#8, 0x42#8, 0x0A#8, 0x0A#8], [.requestBlock 4 4]) := by decide

/-- G3, third row: the second line feed is taken and the rest flushed. -/
theorem test_avail_flush :
    look (fun s => (s.resp.flag, s.plf, s.rxq, s.busLog))
      (exec .avail { base with plf := true, rxq := [0x0A#8, 0x58#8, 0x59#8] }) =
    some (some false, true, [], [.readOne 0x0A#8, .readOne 0x58#8, .readOne 0x59#8]) := by decide

/-- G2, second row: a delivered line feed sets `PLF`. -/
theorem test_rdbyte_lf :
    look (fun s => (s.resp.flag, s.resp.data, s.plf, s.rxq)) (exec .rdbyte { base with rxq := [0x0A#8, 0x24#8] }) =
    some (some true, some 0x0A#8, true, [0x24#8]) := by decide

/-- G2, fourth row: the staged byte is delivered without a transport call. -/
theorem test_rdbyte_staged :
    look (fun s => (s.resp.data, s.lookV, s.rxq, s.busLog))
      (exec .rdbyte { base with lookV := true, look := 0x24#8, rxq := [0x5A#8] }) =
    some (some 0x24#8, false, [0x5A#8], []) := by decide

/-! ### FEED -/

/-- F1: the state after the last byte. -/
theorem test_feed_completes : (fed sentenceA).ss = .complete ∧ (fed sentenceA).cur = 5 ∧
    (fed sentenceA).buf = [(0, 0x41#8), (1, 0x2A#8), (2, 0x34#8), (3, 0x31#8), (4, 0x00#8)] := by decide

/-- F6: completion forced by the first checksum character. -/
theorem test_feed_forced :
    look (fun s => (s.resp.flag, s.ss, s.cur, s.buf.read 80, s.buf.read 81))
      (exec (.feed 0x34#8) { base with ss := .cks1, cur := 80 }) =
    some (some true, .complete, 82, some 0x34#8, some 0x00#8) := by decide

/-! ### EXTRACT -/

/-- X12: the output, and the tail shifted to the front. -/
theorem test_extract_tail :
    look (fun s => (s.resp.result, s.out, s.outLen, s.ss, s.cur))
      (exec .extract { fed (sentenceA ++ tailGP) with mode := .bodyOnly }) =
    some (some .valid, [(0, 0x41#8), (1, 0x00#8)], 1, .inBody, 2) := by decide

/-- X10, `"$A**1"`: the framing test passes and the characters differ. -/
theorem test_extract_checksum :
    answer (exec .extract (fed [0x24#8, 0x41#8, 0x2A#8, 0x2A#8, 0x31#8])) =
    some (none, some .checksumFailed, some 5#8) := by decide

/-! ### RECEIVE -/

/-- P4, steps 2 and 3 in small: `"$A*41\r\n$B*42"` in one block; the second sentence completes in the drain. -/
theorem test_receive_two :
    look (fun s => (s.resp.result, s.out, s.ss, s.cur, s.plf))
      (exec .receive { State.resetWith (params 31) with dev := [sentenceA ++ [0x0D#8, 0x0A#8, 0x24#8, 0x42#8, 0x2A#8, 0x34#8, 0x32#8]] }) =
    some (some .valid, Memory.ofBytes 0 (sentenceA ++ [0x00#8]), .complete, 5, true) := by decide

/-- M4: a silent device. -/
theorem test_receive_silent :
    look (fun s => (s.resp.result, s.outLen, s.busLog)) (exec .receive base) =
    some (some .noData, 0, [.requestBlock 4 0]) := by decide

/-- R38: a device that repeats its bursts gives the next one, cut to the request, and keeps the rest. -/
theorem test_receive_repeats :
    look (fun s => (s.resp.result, s.outLen, s.rxq, s.dev))
      (exec .receive { base with devIdle := .repeats [sentenceA ++ [0x0D#8], [0x0A#8, 0x0A#8]] }) =
    some (some .valid, 5, [], [[0x0A#8, 0x0A#8]]) := by decide

/-! ### SEND -/

/-- W3: 17 bytes in frames of 17 end with an empty frame. -/
theorem test_send_exact :
    look (fun s => (s.txLog.map List.length, s.cks, s.txCnt))
      (exec (.send 11#8) { State.resetWith (params 16) with body := bodyW }) =
    some ([17, 0], 0x4A#8, 0) := by decide

/-- W13, `"$$A"`: only one leading `$` is skipped. -/
theorem test_send_dollar :
    look (·.txLog) (exec (.send 3#8) { State.resetWith (params 31) with body := [0x24#8, 0x24#8, 0x41#8] }) =
    some [[0x24#8, 0x24#8, 0x41#8, 0x2A#8, 0x36#8, 0x35#8, 0x0D#8, 0x0A#8]] := by decide

/-! ### SETMODE, GETMODE -/

/-- M3: `arg` = 0xFE selects code 2. -/
theorem test_setmode : look (·.mode) (exec (decode (.command 0x7FE#12)) base) = some .fullSentence := by decide

/-- M2: code 3 leaves `MODE`. -/
theorem test_setmode_reserved : look (·.mode) (exec (decode (.command 0x703#12)) base) = some .textVisible := by decide

/-- M1. -/
theorem test_getmode : answer (exec .getmode base) = some (none, none, some 0x01#8) := by decide

/-! ### The data level -/

/-- R100, the STAR column in InBody, and the DOLLAR column there. -/
theorem test_star_dollar :
    look (fun s => (s.ss, s.cur)) (exec .star { base with ss := .inBody, cur := 1 }) = some (.cks1, 2) ∧
    look (fun s => (s.ss, s.cur)) (exec .dollar { base with ss := .inBody, cur := 1 }) = some (.inBody, 2) := by decide

/-- R56: the bytes at the ends of the accepted band are stored. -/
theorem test_band_ends :
    look (fun s => s.buf) (exec (.accA 0#5) { base with ss := .inBody }) = some [(0, 0x20#8)] ∧
    look (fun s => s.buf) (exec (.accB 31#5) { base with ss := .inBody }) = some [(0, 0x5F#8)] := by decide

/-- R56: their neighbours are not. -/
theorem test_band_outside :
    look (fun s => s.buf) (exec (.rejCtl 31#5) { base with ss := .inBody }) = some [] ∧
    look (fun s => s.buf) (exec (.rejLow 0#5) { base with ss := .inBody }) = some [] ∧
    look (fun s => s.buf) (exec (.rejHigh 0x24#7) { base with ss := .inBody }) = some [] := by decide

/-! ### States that meet the invariant -/

theorem base_inv : base.Inv := by
  constructor <;> try simp [base, State.resetWith, State.assembling, Memory.wf, Memory.below]
  exact ⟨[], by simp, rfl, rfl⟩

/-- The invariant holds after any bytes have been fed. -/
theorem fed_inv (bs : List Byte) : (fed bs).Inv := by
  obtain ⟨t, h, hf, hfr⟩ := feedAll_framerInv (bs := bs) base_inv.framer
  have he : fed bs = t := by simp [fed, h]
  rw [he]
  exact .of_parts hf (by rw [hfr]; exact base_inv.gate.congr rfl rfl rfl)
    (by rw [hfr]; exact base_inv.buffer.congr rfl rfl rfl)

/-- The invariant does not speak of these fields. -/
theorem inv_outside {s : State} (h : s.Inv) (mode : OutputMode) (body rxq : List Byte) (dev : List (List Byte))
    (idle : DeviceIdle) (inbox : List HostEvent) :
    ({ s with mode := mode, body := body, rxq := rxq, dev := dev, devIdle := idle, inbox := inbox } : State).Inv :=
  .of_parts (h.framer.congr rfl rfl rfl) (h.gate.congr rfl rfl rfl) (h.buffer.congr rfl rfl rfl)

/-- F9: the sentence `A*41` and the tail `$GP`. -/
theorem complete_tail : CompleteAt (fed (sentenceA ++ tailGP)) 4 where
  pLo := by decide
  pHi := by decide
  sentence := by intro i hi; interval_cases i <;> exact ⟨_, rfl, by decide⟩
  sentinel := by unfold cellIs; decide
  star := .inl (by unfold cellIs; decide)
  curLo := by decide
  curHi := by decide
  tail := by
    have hc : (fed (sentenceA ++ tailGP)).cur = 8 := by decide
    intro i h1 h2
    rw [hc] at h2
    interval_cases i <;> exact ⟨_, rfl, by decide⟩

/-! ### Witnesses: for each obligation with hypotheses, a state and operands that meet them -/

theorem witness_DecodeAndEncodeAgree : (Instr.accA 0x1F#5).wellFormed = true ∧ Instr.avail.wellFormed = true := by decide

theorem witness_FilterIsTheFourAcceptedClasses : (0x20 ≤ (0x20#8).toNat ∧ (0x5F#8).toNat ≤ 0x5F) ∧
    decodeByte 0x20#8 = .accA 0#5 ∧ decodeByte 0x5F#8 = .accB 31#5 := by decide

theorem witness_ChecksumCharacters : (9#4).toNat ≤ 9 ∧ 10 ≤ (10#4).toNat ∧
    hexHi (0xA#4 ++ 0x9#4) = 0x41#8 ∧ hexLo (0xA#4 ++ 0x9#4) = 0x39#8 := by decide

theorem witness_StepRunsTheDecodedWord :
    ({ base with inbox := [.word (encode .getmode)] } : State).inbox = .word (encode .getmode) :: [] ∧
    Instr.getmode.wellFormed = true := by decide

/-- One state for each clause. -/
theorem witness_StepAppliesOutsideEvents : base.inbox = [] ∧
    (∃ s : State, s.inbox = .setup true :: []) ∧ (∃ s : State, s.inbox = .setup false :: []) ∧
    (∃ s : State, s.inbox = .loadBody [0x41#8] :: []) ∧ (∃ s : State, s.inbox = .deviceBurst [] :: []) ∧
    ∃ s : State, s.inbox = .deviceIdle (.filler 0x0A#8) :: [] :=
  ⟨rfl, ⟨{ base with inbox := _ }, rfl⟩, ⟨{ base with inbox := _ }, rfl⟩, ⟨{ base with inbox := _ }, rfl⟩,
    ⟨{ base with inbox := _ }, rfl⟩, ⟨{ base with inbox := _ }, rfl⟩⟩

theorem witness_ResetInputRestoresTheBlockOnly : ({ base with inbox := [.reset] } : State).inbox = .reset :: [] := rfl

/-- A queued byte, a carriage return; and a fed byte that is no start marker. -/
theorem witness_ResetLeavesTheTransport : ∃ s : State, s.inbox = .reset :: [] ∧ s.ready = true ∧ s.rxq ≠ [] ∧
    s.rxq = 0x0D#8 :: [] ∧ (0x25#8 : Byte) ≠ 0x24#8 := ⟨{ base with inbox := [.reset], rxq := [0x0D#8] }, by decide⟩

theorem witness_TransportOperationsNeedSetup : ({ base with ready := false } : State).ready = false := rfl

/-- The two ends of each range of reserved codes. -/
theorem witness_ReservedCodesAreRefused : opField 0x0FF#12 = 0x0#4 ∧ 0x9#4 ≤ opField 0x900#12 ∧
    0x9#4 ≤ opField 0xFFF#12 := by decide

/-- The byte is queued, or the device grants it to a single-byte request; it may be a carriage return or a null. -/
theorem witness_AvailStagesDataFetchedEarly :
    (∃ (s u : State) (b : Byte) (q : List Byte), s.ready = true ∧ s.plf = true ∧
      u = (if s.rxq = [] then requestBlock 1 s else s) ∧ u.rxq = b :: q ∧ b ≠ 0x0A#8) ∧
    ∃ (s u : State) (b : Byte) (q : List Byte), s.ready = true ∧ s.plf = true ∧ s.rxq = [] ∧
      u = (if s.rxq = [] then requestBlock 1 s else s) ∧ u.rxq = b :: q ∧ b ≠ 0x0A#8 :=
  ⟨⟨{ base with plf := true, rxq := [0x0D#8, 0x24#8] }, _, 0x0D#8, [0x24#8], rfl, rfl, rfl, rfl, by decide⟩,
    ⟨{ base with plf := true, dev := [[0x00#8, 0x24#8]] }, _, 0x00#8, [], rfl, rfl, rfl, rfl, rfl, by decide⟩⟩

theorem witness_AvailFlushesOnSecondLineFeed :
    (∃ (s u : State) (q : List Byte), s.ready = true ∧ s.plf = true ∧
      u = (if s.rxq = [] then requestBlock 1 s else s) ∧ u.rxq = 0x0A#8 :: q ∧ q ≠ []) ∧
    ∃ (s u : State) (q : List Byte), s.ready = true ∧ s.plf = true ∧ s.rxq = [] ∧
      u = (if s.rxq = [] then requestBlock 1 s else s) ∧ u.rxq = 0x0A#8 :: q :=
  ⟨⟨{ base with plf := true, rxq := [0x0A#8, 0x58#8] }, _, [0x58#8], rfl, rfl, rfl, rfl, by decide⟩,
    ⟨{ base with plf := true, devIdle := .filler 0x0A#8 }, _, [], rfl, rfl, rfl, rfl, rfl⟩⟩

/-- Pending with nothing granted (G4); not pending with an empty queue (M4) and with a staged byte (G6). -/
theorem witness_AvailWithoutFetchedByte :
    (∃ s u : State, s.ready = true ∧ s.plf = true ∧ u = (if s.rxq = [] then requestBlock 1 s else s) ∧ u.rxq = []) ∧
    (∃ s u : State, s.ready = true ∧ s.plf = false ∧
      u = (if s.rxq = [] then requestBlock s.params.frameCap s else s) ∧ u.rxq = []) ∧
    ∃ s u : State, s.ready = true ∧ s.plf = false ∧ s.lookV = true ∧
      u = (if s.rxq = [] then requestBlock s.params.frameCap s else s) :=
  ⟨⟨{ base with plf := true }, _, rfl, rfl, rfl, rfl⟩, ⟨base, _, rfl, rfl, rfl, rfl⟩,
    ⟨{ base with lookV := true, look := 0x24#8 }, _, rfl, rfl, rfl, rfl⟩⟩

/-- One device for each clause; the listed burst is longer than the request. -/
theorem witness_RequestBlockAppendsFromTheDevice :
    (∃ (s : State) (burst : List Byte) (rest : List (List Byte)), s.dev = burst :: rest ∧ 1 < burst.length) ∧
    (base.dev = [] ∧ base.devIdle = .silent) ∧ (∃ s : State, s.dev = [] ∧ s.devIdle = .repeats []) ∧
    (∃ (s : State) (b : Byte), s.dev = [] ∧ s.devIdle = .filler b) ∧
    ∃ (s : State) (burst : List Byte) (rest : List (List Byte)), s.dev = [] ∧ s.devIdle = .repeats (burst :: rest) :=
  ⟨⟨{ base with dev := [[0x41#8, 0x42#8]] }, _, _, rfl, by decide⟩, ⟨rfl, rfl⟩,
    ⟨{ base with devIdle := .repeats [] }, rfl, rfl⟩, ⟨{ base with devIdle := .filler 0x0A#8 }, _, rfl, rfl⟩,
    ⟨{ base with devIdle := .repeats [[0x78#8], [0x0A#8]] }, _, _, rfl, rfl⟩⟩

theorem witness_AvailAnswersAndItsFrame : base.ready = true ∧
    look (·.resp.flag) (exec .avail { base with rxq := [0x41#8] }) = some (some true) := by decide

theorem witness_RdbyteDeliversTheNextByte :
    (∃ s : State, s.ready = true ∧ s.lookV = true) ∧
    ∃ (s : State) (b : Byte) (q : List Byte), s.ready = true ∧ s.lookV = false ∧ s.rxq = b :: q :=
  ⟨⟨{ base with lookV := true }, rfl, rfl⟩, ⟨{ base with rxq := [0x0A#8] }, 0x0A#8, [], rfl, rfl, rfl⟩⟩

theorem witness_RdbyteWithNothingPresent : base.ready = true ∧ base.lookV = false ∧ base.rxq = [] := by decide

/-- The neighbours of the band. -/
theorem witness_FeedRejectedByteChangesNothing : (0x1F#8).toNat < 0x20 ∧ 0x5F < (0x60#8).toNat := by decide

theorem witness_FeedInSearching : base.ss = .searching ∧ (0x2A#8 : Byte) ≠ 0x24#8 := by decide

/-- The last cursor value with no forcing, and the one that forces, in both states. -/
theorem witness_FeedStoresAndForcesCompletion : accepted 0x2A#8 = true ∧
    (∃ s : State, s.ss = .inBody ∧ s.cur ≤ 80 ∧ s.cur ≠ 80) ∧ (∃ s : State, s.ss = .inBody ∧ s.cur ≤ 80 ∧ s.cur = 80) ∧
    (∃ s : State, s.ss = .cks1 ∧ s.cur ≤ 80 ∧ s.cur ≠ 80) ∧ ∃ s : State, s.ss = .cks1 ∧ s.cur ≤ 80 ∧ s.cur = 80 :=
  ⟨by decide, ⟨{ base with ss := .inBody, cur := 79 }, by decide⟩, ⟨{ base with ss := .inBody, cur := 80 }, by decide⟩,
    ⟨{ base with ss := .cks1, cur := 79 }, by decide⟩, ⟨{ base with ss := .cks1, cur := 80 }, by decide⟩⟩

/-- F5: the second checksum character at cell 80. -/
theorem witness_FeedCompletesASentence :
    ∃ s : State, s.ss = .cks2 ∧ accepted 0x30#8 = true ∧ s.cur ≤ 80 ∧ s.cur = 80 :=
  ⟨{ base with ss := .cks2, cur := 80 }, by decide⟩

theorem witness_FeedAppendsTheTail : accepted 0x24#8 = true ∧
    (∃ s : State, s.ss = .complete ∧ s.cur ≤ 82 ∧ s.cur < 82) ∧ ∃ s : State, s.ss = .complete ∧ s.cur ≤ 82 ∧ s.cur = 82 :=
  ⟨by decide, ⟨{ base with ss := .complete, cur := 81 }, by decide⟩, ⟨{ base with ss := .complete, cur := 82 }, by decide⟩⟩

theorem witness_FeedReturnsTrueExactlyOnCompletion : (fed sentenceA).Inv := fed_inv _

/-- Every row of the table has a state that meets the invariant, the forced rows too. -/
theorem witness_FeedFollowsTheTransitionTable : (fed []).ss = .searching ∧ (fed (0x24#8 :: manyA 80)).ss = .inBody ∧
    (fed (0x24#8 :: manyA 80)).cur + 1 = 81 ∧ (fed (sentenceA.take 3)).ss = .cks1 ∧ (fed (sentenceA.take 4)).ss = .cks2 ∧
    (fed sentenceA).ss = .complete ∧ (fed sentenceA).cur < 82 ∧ ∀ bs, (fed bs).Inv :=
  ⟨by decide, by decide, by decide, by decide, by decide, by decide, by decide, fed_inv⟩

/-- F4, one byte before the end. -/
theorem witness_ForcedCompletionIsFramingOverrun :
    ∃ (s t : State) (c : Byte), s.Inv ∧ s.ready = true ∧ (s.ss = .inBody ∨ s.ss = .cks1) ∧ s.cur = 80 ∧
      accepted c = true ∧ exec (.feed c) s = .next t :=
  have h : (fed (0x24#8 :: manyA 80)).ss = .inBody ∧ (fed (0x24#8 :: manyA 80)).cur = 80 ∧
    (fed (0x24#8 :: manyA 80)).ready = true := by decide
  have ⟨b, t, e⟩ := (fed_inv (0x24#8 :: manyA 80)).framer.feed_ok 0x41#8
  ⟨_, t.respond (flagResponse b), 0x41#8, fed_inv _, h.2.2, .inl h.1, h.2.1, by decide, by simp [exec, execFeed, e]⟩

theorem witness_ExtractOutOfTurn : base.ready = true ∧ base.ss ≠ .complete := by decide

/-- F9, for the three statements about a complete sentence. -/
theorem witness_ExtractResultAndOutput : (fed (sentenceA ++ tailGP)).Inv ∧ (fed (sentenceA ++ tailGP)).ready = true ∧
    (fed (sentenceA ++ tailGP)).ss = .complete ∧ CompleteAt (fed (sentenceA ++ tailGP)) 4 :=
  ⟨fed_inv _, by decide, by decide, complete_tail⟩

/-- Each result in BodyOnly, and another mode. -/
theorem witness_TrailerIsDroppedOnlyFromValidBodies : (fed (sentenceA ++ tailGP)).Inv ∧
    (fed (sentenceA ++ tailGP)).ready = true ∧ (fed (sentenceA ++ tailGP)).ss = .complete ∧
    CompleteAt (fed (sentenceA ++ tailGP)) 4 ∧ (fed (sentenceA ++ tailGP)).mode ≠ .bodyOnly ∧
    answer (exec .extract { fed sentenceA with mode := .bodyOnly }) = some (none, some .valid, some 1#8) ∧
    answer (exec .extract { fed [0x24#8, 0x41#8, 0x2A#8, 0x34#8, 0x32#8] with mode := .bodyOnly }) =
      some (none, some .checksumFailed, some 4#8) :=
  ⟨fed_inv _, by decide, by decide, complete_tail, by decide, by decide, by decide⟩

theorem witness_ExtractShiftsTheTailAndDrains : (fed (sentenceA ++ tailGP)).Inv ∧
    (fed (sentenceA ++ tailGP)).ready = true ∧ (fed (sentenceA ++ tailGP)).ss = .complete ∧
    CompleteAt (fed (sentenceA ++ tailGP)) 4 := ⟨fed_inv _, by decide, by decide, complete_tail⟩

/-- The last byte of the tail. -/
theorem witness_TailMayBeReadInPlace : ∃ (s t : State) (p k : Nat) (tail : List Byte), s.Inv ∧ s.ss = .complete ∧
    CompleteAt s p ∧ tail.length = s.cur - (p + 1) ∧ (∀ j, j < tail.length → s.buf.read (p + 1 + j) = tail[j]?) ∧
    k < tail.length ∧ feedAll (tail.take k) { s with ss := .searching, cur := 0 } = .ok t :=
  ⟨fed (sentenceA ++ tailGP), _, 4, 2, tailGP, fed_inv _, by decide, complete_tail, by decide,
    by intro j hj; have : j < 3 := hj; interval_cases j <;> decide, by decide, rfl⟩

set_option maxRecDepth 8192 in
/-- X5, and one byte before the end of F5. -/
theorem witness_FramingOverrunOnlyAfterForcedCompletion :
    ((fed (0x24#8 :: manyA 81)).Inv ∧ (fed (0x24#8 :: manyA 81)).ready = true ∧
      ∃ t, exec .extract (fed (0x24#8 :: manyA 81)) = .next t ∧ t.resp.result = some .framingOverrun) ∧
    ((fed (0x24#8 :: manyA 78 ++ [0x2A#8, 0x30#8])).Inv ∧
      (fed (0x24#8 :: manyA 78 ++ [0x2A#8, 0x30#8])).ready = true ∧
      (fed (0x24#8 :: manyA 78 ++ [0x2A#8, 0x30#8])).ss = .cks2 ∧ accepted 0x30#8 = true) :=
  ⟨⟨fed_inv _, by decide, _, rfl, by decide⟩, fed_inv _, by decide, by decide, by decide⟩

/-- `"AB*03"` with `A` turned into `C`. -/
theorem witness_CorruptedByteFailsTheChecksum : (0x41#8 : Byte) ≠ 0x43#8 ∧ (0x41#8 : Byte) ≠ 0x2A#8 ∧
    (0x43#8 : Byte) ≠ 0x2A#8 ∧ 0x2A#8 ∉ ([] : List Byte) ∧ 0x2A#8 ∉ [(0x42#8 : Byte)] ∧
    classify ([] ++ 0x41#8 :: [0x42#8] ++ [0x2A#8, 0x30#8, 0x33#8])
      (imageChecksum ([] ++ 0x41#8 :: [0x42#8] ++ [0x2A#8, 0x30#8, 0x33#8])) = .valid := by decide

theorem witness_SendOfNothing : base.ready = true := rfl

/-- W7, the shortest body, and W10, a body longer than the clamp. -/
theorem witness_SendWritesTheFramedSentence :
    (∃ s : State, s.ready = true ∧ s.txOpen = none ∧ s.body ≠ [] ∧ s.body.length = 1) ∧
    ∃ s : State, s.ready = true ∧ s.txOpen = none ∧ s.body ≠ [] ∧ 77 < s.body.length :=
  ⟨⟨{ base with body := [0x24#8] }, by decide⟩, ⟨{ base with body := 0x24#8 :: manyA 100 }, by decide⟩⟩

theorem witness_SendAnswersAndItsFrame : base.ready = true ∧ base.txOpen = none := by decide

/-- The longest body. -/
theorem witness_SentBodyComesBack : ∃ s : State, s.Inv ∧ s.ready = true ∧ s.ss = .searching ∧ s.mode = .bodyOnly ∧
    1 ≤ s.body.length ∧ s.body.length ≤ 77 ∧ (∀ b ∈ s.body, accepted b = true) ∧ 0x2A#8 ∉ s.body ∧
    s.body.head? ≠ some 0x24#8 :=
  ⟨_, inv_outside base_inv .bodyOnly (manyA 77) [] [] .silent [], by decide⟩

/-- The three clauses: P4 step 3, M4, and one round with a byte queued. -/
theorem witness_ReceiveIsItsLoop : (∃ s : State, s.ready = true ∧ s.ss = .complete) ∧
    (∃ s a : State, s.ready = true ∧ s.ss ≠ .complete ∧ exec .avail s = .next a ∧ a.resp.flag = some false) ∧
    ∃ (s a b d : State) (c : Byte), s.ready = true ∧ s.ss ≠ .complete ∧ exec .avail s = .next a ∧
      a.resp.flag = some true ∧ exec .rdbyte a = .next b ∧ b.resp.data = some c ∧ exec (.feed c) b = .next d :=
  ⟨⟨fed sentenceA, by decide⟩, ⟨base, _, by decide, by decide, rfl, by decide⟩,
    ⟨{ base with rxq := [0x24#8] }, _, _, _, 0x24#8, by decide, by decide, rfl, rfl, rfl, rfl, rfl⟩⟩

/-- A silent device, and two that idle on line feeds. -/
theorem witness_ReceiveAnswersOnceTheDeviceIsIdle :
    (base.Inv ∧ base.ready = true ∧ base.devIdle = .silent) ∧
    (∃ s : State, s.Inv ∧ s.ready = true ∧ s.devIdle = .filler 0x0A#8) ∧
    ∃ s : State, s.Inv ∧ s.ready = true ∧
      ∃ bursts, s.devIdle = .repeats bursts ∧ (∀ b ∈ bursts.flatten, b = 0x0A#8) ∧ bursts ≠ [] :=
  ⟨⟨base_inv, rfl, rfl⟩,
    ⟨_, inv_outside base_inv .bodyOnly [] [] [sentenceA] (.filler 0x0A#8) [], rfl, rfl⟩,
    ⟨_, inv_outside base_inv .bodyOnly [] [] [sentenceA] (.repeats [[0x0A#8]]) [], rfl, [[0x0A#8]], rfl, by decide⟩⟩

set_option maxRecDepth 8192 in
/-- A device that repeats `x` for ever (R146). -/
theorem witness_ReceiveHangIsGenuine :
    ∃ s : State, exec .receive s = .fault .receiveNeverReturns :=
  ⟨{ base with devIdle := .filler 0x78#8 }, rfl⟩

/-- The same device, and one that gives `x` and a line feed in turn. -/
theorem witness_ReceiveHangsOnAnEndlessStream : (∃ (s : State) (b : Byte), s.ready = true ∧ s.ss = .searching ∧
      s.dev = [] ∧ s.devIdle = .filler b ∧ s.lookV = false ∧ (∀ c ∈ s.rxq, c = b) ∧ b ≠ 0x0A#8 ∧ b ≠ 0x24#8) ∧
    ∃ (s : State) (bursts : List (List Byte)) (stream : List Byte), s.ready = true ∧ s.ss = .searching ∧
      s.lookV = false ∧ s.devIdle = .repeats bursts ∧ bursts ≠ [] ∧ [] ∉ s.dev ∧ [] ∉ bursts ∧
      stream = s.rxq ++ s.dev.flatten ++ bursts.flatten ++ bursts.flatten ∧ 0x24#8 ∉ stream ∧
      ¬ [0x0A#8, 0x0A#8] <:+: stream ∧ (s.plf = true → stream.head? ≠ some 0x0A#8) :=
  ⟨⟨{ base with devIdle := .filler 0x78#8, rxq := [0x78#8] }, 0x78#8, by decide⟩,
    ⟨{ base with dev := [[0x61#8]], devIdle := .repeats [[0x0A#8, 0x78#8]] }, [[0x0A#8, 0x78#8]], _, rfl, rfl, rfl, rfl,
      by decide, by decide, by decide, rfl, by decide, by decide, by decide⟩⟩

/-- `x` for ever, of which the device has listed three bytes in two bursts. -/
theorem witness_ReceiveRunsOnAnyEndlessStream : ∃ (stream : Nat → Byte) (s : State) (n m : Nat),
    (∀ k, stream k ≠ 0x24#8) ∧ (∀ k, ¬ (stream k = 0x0A#8 ∧ stream (k + 1) = 0x0A#8)) ∧ s.ss = .searching ∧
    s.lookV = false ∧ s.plf = false ∧ s.rxq = [] ∧ [] ∉ s.dev ∧ s.dev.flatten = (List.range m).map stream ∧ n ≤ m ∧
    0 < n :=
  ⟨fun _ => 0x78#8, { base with dev := [[0x78#8, 0x78#8], [0x78#8]] }, 3, 3,
    fun _ => (by decide : (0x78#8 : Byte) ≠ 0x24#8), fun _ h => absurd h.1 (by decide : (0x78#8 : Byte) ≠ 0x0A#8), by decide⟩

theorem witness_ReceiveFrame : ∃ s t : State, exec .receive s = .next t := ⟨base, _, rfl⟩

theorem witness_GetmodeReturnsMode : opField 0x800#12 = 0x8#4 ∧ opField 0x8FF#12 = 0x8#4 := by decide

/-- The rejected control byte next to the line feed. -/
theorem witness_RejectedDataBytes : base.lookV = false ∧ (Instr.rejCtl 0x0B#5).wellFormed = true := by decide

theorem witness_AcceptedDataBytes : base.Inv ∧ base.lookV = false := ⟨base_inv, rfl⟩

theorem witness_StagedByteGoesFirst : ∃ (s a b : State) (i : Instr), isDataByte i = true ∧ s.ready = true ∧
    s.lookV = true ∧ exec .rdbyte s = .next a ∧ exec (.feed s.look) a = .next b :=
  ⟨{ base with lookV := true, look := 0x24#8 }, _, _, .star, rfl, rfl, rfl, rfl, rfl⟩

/-- One instruction for each clause that changes what the clause speaks of. -/
theorem witness_OnlyTheseOperationsChangeWhat :
    look (·.ss) (exec (.feed 0x24#8) base) = some .inBody ∧
    look (·.mode) (exec (.setmode 0#2) base) = some .bodyOnly ∧
    look (·.plf) (exec .lf base) = some true ∧
    look (·.look) (exec .avail { base with plf := true, rxq := [0x24#8] }) = some 0x24#8 ∧
    look (·.outLen) (exec .extract (fed sentenceA)) = some 5 ∧
    look (·.rxq) (exec .rdbyte { base with rxq := [0x24#8] }) = some [] ∧
    look (·.dev) (exec .avail { base with dev := [[0x24#8]] }) = some [] ∧
    look (·.txLog.length) (exec (.send 1#8) { base with body := [0x24#8] }) = some 2 ∧
    look (·.cks) (exec .extract (fed sentenceA)) = some 0x41#8 ∧
    look (·.busLog) (exec .avail base) = some [.requestBlock 4 0] := by decide

theorem witness_EveryStepKeepsTheInvariant : ∃ s t : State, s.Inv ∧ step s = .next t ∧ s.inbox ≠ [] :=
  ⟨_, _, inv_outside base_inv .bodyOnly [] [] [] .silent [.word (encode .avail)], rfl, by decide⟩

theorem witness_InvariantStatesAreSafe : (fed sentenceA).Inv := fed_inv _

end Sys2Proof.Tests
end

section
/-! PROOFS. The Transport Gate's AVAIL on its pending path (40_transport_gate.md rules R72, R73). -/

namespace Sys2Proof.Machine

open Sys2Proof

/-- AVAIL after connection setup drives the flag that its operation answers, in the state the operation reaches. -/
theorem exec_avail_of_availOp {s t : State} {r : Bool} (hready : s.ready = true) (h : availOp s = .ok (r, t)) :
    exec .avail s = .next (t.respond (flagResponse r)) := by
  change execAvail s = _
  rw [execAvail, whenReady_ready hready, h]
  rfl

theorem fillIfEmpty_eq_ite (n : Nat) (s : State) :
    fillIfEmpty n s = if s.rxq = [] then requestBlock n s else s := by
  simp only [fillIfEmpty, queuedCount, List.length_eq_zero_iff]

/-- Pending, with a byte to inspect that is no line feed, every other path of AVAIL is excluded (R72, R73). -/
theorem availOp_stages {s : State} {b : Byte} {q : List Byte} (hplf : s.plf = true)
    (hrxq : (fillIfEmpty 1 s).rxq = b :: q) (hb : b ≠ chLf) :
    availOp s = .ok (true, stageLook b ((fillIfEmpty 1 s).popped b q)) := by
  obtain ⟨r, t, h⟩ := availOp_ok s
  rw [h]
  obtain ⟨hnormal, -, -⟩ | ⟨-, hempty, -, -⟩ | ⟨-, q', hlf, -, -⟩ | ⟨-, c, q', -, hhead, hr, ht⟩ := availOp_cases h
  · simp [hplf] at hnormal
  · simp [hrxq] at hempty
  · rw [hrxq, List.cons.injEq] at hlf
    exact absurd hlf.1 hb
  · rw [hrxq, List.cons.injEq] at hhead
    obtain ⟨rfl, rfl⟩ := hhead
    rw [hr, ht]

/-- Settles O13: AVAIL's operation takes its staging path, and the state it reaches, with the response driven, is the
one stated. -/
theorem availStagesDataFetchedEarly : Obligations.AvailStagesDataFetchedEarly := by
  intro s u b q hready hplf hu hrxq hb
  rw [← fillIfEmpty_eq_ite] at hu
  subst hu
  exact exec_avail_of_availOp hready (availOp_stages hplf hrxq hb)

end Sys2Proof.Machine
end

section
/-! PROOFS. FEED in Searching (41_sentence_framer.md rule R94). -/

namespace Sys2Proof.Machine

open Sys2Proof

/-- FEED drives the flag that its operation answers, in the state the operation reaches. -/
theorem exec_feed_of_feedOp {c : Byte} {s t : State} {r : Bool} (h : feedOp c s = .ok (r, t)) :
    exec (.feed c) s = .next (t.respond (flagResponse r)) := by
  change execFeed c s = _
  rw [execFeed, h]
  rfl

/-- In Searching the filter makes no difference: the start marker passes it, and what it rejects is discarded anyway. -/
theorem feedOp_searching {s : State} (c : Byte) (hs : s.ss = .searching) :
    feedOp c s = .ok (false, if c = chDollar then { s with ss := .inBody } else s) := by
  by_cases ha : accepted c = true
  · simp only [feedOp, ha, if_true, hs]
  · have hc : c ≠ chDollar := by
      rintro rfl
      exact ha accepted_dollar
    simp only [feedOp, if_neg ha, if_neg hc]

/-- Settles O21: FEED's operation answers false in Searching, and its state depends only on whether the byte is the
start marker. -/
theorem feedInSearching : Obligations.FeedInSearching := by
  intro s c hs
  have hexec := exec_feed_of_feedOp (feedOp_searching c hs)
  constructor
  · intro (hc : c = chDollar)
    rw [hexec, if_pos hc]
    rfl
  · intro (hc : c ≠ chDollar)
    rw [hexec, if_neg hc]
    rfl

end Sys2Proof.Machine
end

section
/-! PROOFS. EXTRACT's output: which copied bytes stay in `OUT` (42_message_extractor.md rule R114). -/

namespace Sys2Proof.Machine

open Sys2Proof

/-! ### The formatted output -/

theorem formatOutput_bodyOnly_valid (image : List Byte) :
    formatOutput .bodyOnly .valid image = image.take (image.length - 3) := by
  simp [formatOutput]

theorem formatOutput_bodyOnly_of_ne_valid {r : ResultCode} (hr : r ≠ .valid) (image : List Byte) :
    formatOutput .bodyOnly r image = image := by
  simp [formatOutput, hr]

/-- Outside BodyOnly the whole image follows the start marker, whatever the Result (R111, R114). -/
theorem formatOutput_of_ne_bodyOnly {m : OutputMode} (hm : m ≠ .bodyOnly) (r : ResultCode) (image : List Byte) :
    ∃ ending, formatOutput m r image = chDollar :: (image ++ ending) :=
  ⟨if m = .fullSentence then [chCr, chLf] else [], by simp [formatOutput, hm]⟩

/-! ### The state after EXTRACT -/

/-- Below `OUT_LEN` the output buffer holds the bytes that were written into it. -/
theorem State.withOutput_read (s : State) {bs : List Byte} {i : Nat} (hi : i < bs.length) :
    (s.withOutput bs).out.read i = bs[i]? := by
  rw [withOutput_out, Memory.read_ofBytes, if_pos (Nat.zero_le i), Nat.sub_zero, List.getElem?_append_left hi]

/-- EXTRACT drives the Result that its operation answers, in the state the operation reaches. -/
theorem exec_extract_of_extractOp {s t : State} {r : ResultCode} (hready : s.ready = true)
    (h : extractOp s = .ok (r, t)) : exec .extract s = .next (t.respond (resultResponse r t)) := by
  change execExtract s = _
  rw [execExtract, whenReady_ready hready, h]
  rfl

/-- EXTRACT of a complete sentence answers the classification of the image before the sentinel, and `OUT` holds that
image formatted (R111 to R115). -/
theorem exec_extract_complete {s : State} {p : Nat} (h : s.Inv) (hready : s.ready = true) (hs : s.ss = .complete)
    (hp : CompleteAt s p) :
    ∃ image r t, image.length = p ∧ (∀ i, i < p → s.buf.read i = image[i]?) ∧ exec .extract s = .next t ∧
      r = classify image (imageChecksum image) ∧ t.resp.result = some r ∧
      t.outLen = (formatOutput s.mode r image).length ∧
      ∀ i, i < t.outLen → t.out.read i = (formatOutput s.mode r image)[i]? := by
  obtain ⟨image, t, hscan, hlen, hop, -, -, -, hframe⟩ := extractOp_complete h.framer h.gate hs hp
  obtain ⟨image', -, hscan', -, hcells, -⟩ := hp.scan
  obtain rfl : image' = image := Except.ok.inj (hscan'.symm.trans hscan)
  have hout : t.out = (s.withOutput (formatOutput s.mode (classify image' (imageChecksum image')) image')).out := by
    rw [hframe]
  have houtLen : t.outLen = (formatOutput s.mode (classify image' (imageChecksum image')) image').length := by
    rw [hframe]; rfl
  refine ⟨image', _, _, hlen, hcells, exec_extract_of_extractOp hready hop, rfl, rfl, houtLen, fun i hi => ?_⟩
  rw [State.respond_out, hout]
  exact State.withOutput_read s (houtLen ▸ hi)

/-- Settles O31: in each clause the output is the image less its trailer, the image, or the image after the start
marker, and the image is what `BUF` holds. -/
theorem trailerIsDroppedOnlyFromValidBodies : Obligations.TrailerIsDroppedOnlyFromValidBodies := by
  intro s p hinv hready hs hp
  obtain ⟨image, r, t, rfl, hcells, hexec, -, hresult, houtLen, hout⟩ := exec_extract_complete hinv hready hs hp
  refine ⟨t, hexec, fun hmode hvalid => ?_, fun hmode hvalid => ?_, fun hmode i hi => ?_⟩
  · obtain rfl : r = .valid := Option.some.inj (hresult.symm.trans hvalid)
    rw [hmode, formatOutput_bodyOnly_valid] at houtLen hout
    have hlen : t.outLen = image.length - 3 := by rw [houtLen, List.length_take]; omega
    refine ⟨hlen, fun i hi => ?_⟩
    rw [hout i (by omega), hcells i (by omega), List.getElem?_take_of_lt hi]
  · have hr : r ≠ .valid := fun hr => hvalid (hr ▸ hresult)
    rw [hmode, formatOutput_bodyOnly_of_ne_valid hr] at houtLen hout
    exact ⟨houtLen, fun i hi => (hout i (by omega)).trans (hcells i hi).symm⟩
  · obtain ⟨ending, hformat⟩ := formatOutput_of_ne_bodyOnly hmode r image
    rw [hformat, List.length_cons, List.length_append] at houtLen
    have hlt : i + 1 < t.outLen := by omega
    refine ⟨hlt, ?_⟩
    rw [hout _ hlt, hformat, List.getElem?_cons_succ, List.getElem?_append_left hi, hcells i hi]

end Sys2Proof.Machine
end

section
/-! PROOFS. GETMODE (44_public_operations.md rule R149). -/

namespace Sys2Proof.Machine

open Sys2Proof

/-- GETMODE has no operand: the operation field alone selects it (R50). -/
theorem decodeCommand_getmode {w : CommandWord} (h : opField w = 0x8#4) : decodeCommand w = .getmode := by
  rw [decodeCommand, h]
  rfl

/-- GETMODE drives the code of `MODE` on the data wires and leaves every other field. -/
theorem exec_getmode (s : State) : exec .getmode s = .next (s.respond (modeResponse s.mode)) := rfl

theorem exec_getmode_of_modeData {s : State} {code : Byte} (h : modeData s.mode = code) :
    exec .getmode s = .next (s.respond ⟨none, none, some code⟩) := by
  rw [exec_getmode, modeResponse, h]

theorem modeData_bodyOnly : modeData .bodyOnly = 0x00#8 := by decide

theorem modeData_textVisible : modeData .textVisible = 0x01#8 := by decide

theorem modeData_fullSentence : modeData .fullSentence = 0x02#8 := by decide

/-- Settles O46: GETMODE's one response, read off for each mode, and at reset, where `MODE` is `MODE_RESET`. -/
theorem getmodeReturnsMode : Obligations.GetmodeReturnsMode := by
  refine ⟨fun w hop => decodeCommand_getmode hop, fun s => ?_, fun p => ⟨_, exec_getmode _, rfl⟩⟩
  refine exec_getmode_of_modeData ?_
  cases s.mode with
  | bodyOnly => exact modeData_bodyOnly
  | textVisible => exact modeData_textVisible
  | fullSentence => exact modeData_fullSentence

end Sys2Proof.Machine
end

section
/-! PROOFS. Reset and the transport (70_reset_and_hazards.md rule R182). -/

namespace Sys2Proof.Machine

open Sys2Proof

/-- A waiting reset is taken and restores the block's own state. -/
theorem step_reset {s : State} {rest : List HostEvent} (h : s.inbox = .reset :: rest) :
    step s = .next (resetBlock (s.withInbox rest)) := by
  rw [step, h]
  rfl

/-- Not pending, a queued byte is present, and AVAIL answers so without a request. -/
theorem availOp_queued {s : State} (hplf : s.plf = false) (hrxq : s.rxq ≠ []) : availOp s = .ok (true, s) := by
  have hpresent : 0 < queuedCount s := List.length_pos_iff.mpr hrxq
  obtain ⟨r, t, h⟩ := availOp_ok s
  obtain ⟨-, ht, hr⟩ | ⟨hpending, -⟩ | ⟨hpending, -⟩ | ⟨hpending, -⟩ := availOp_cases h
  · rw [fillIfEmpty_nonempty _ s hrxq] at ht
    rw [ht, decide_eq_true hpresent, Bool.or_true] at hr
    rw [h, hr, ht]
  all_goals simp [hplf] at hpending

/-- RDBYTE after connection setup drives what its operation delivers, in the state the operation reaches. -/
theorem exec_rdbyte_of_rdbyteOp {s t : State} {r : Option Byte} (hready : s.ready = true)
    (h : rdbyteOp s = .ok (r, t)) : exec .rdbyte s = .next (t.respond (byteResponse r)) := by
  change execRdbyte s = _
  rw [execRdbyte, whenReady_ready hready, h]
  rfl

/-- With nothing staged, RDBYTE's operation delivers the head of the queue. -/
theorem rdbyteOp_queued {s : State} {b : Byte} {q : List Byte} (hlook : s.lookV = false) (hrxq : s.rxq = b :: q) :
    rdbyteOp s = .ok (some b, noteDelivered b (s.popped b q)) := by
  obtain ⟨hstaged, -⟩ | ⟨-, c, q', hhead, h⟩ | ⟨-, hempty, -⟩ := rdbyteOp_cases s
  · simp [hlook] at hstaged
  · rw [hrxq, List.cons.injEq] at hhead
    obtain ⟨rfl, rfl⟩ := hhead
    exact h
  · simp [hrxq] at hempty

/-- Not pending and with nothing staged, RDBYTE delivers the head of the queue and is pending after a line feed. -/
theorem exec_rdbyte_queued {s : State} {b : Byte} {q : List Byte} (hready : s.ready = true) (hplf : s.plf = false)
    (hlook : s.lookV = false) (hrxq : s.rxq = b :: q) :
    exec .rdbyte s =
      .next (({ s.popped b q with plf := decide (b = chLf) } : State).respond (byteResponse (some b))) := by
  rw [exec_rdbyte_of_rdbyteOp hready (rdbyteOp_queued hlook hrxq), noteDelivered_frame, State.popped_plf, hplf,
    Bool.or_false]

/-- Settles O10: the reset state keeps every field of the transport; it is not pending, stages nothing and is in
Searching, so AVAIL and RDBYTE see the queue and FEED discards all but the start marker. -/
theorem resetLeavesTheTransport : Obligations.ResetLeavesTheTransport := by
  intro s rest hinbox
  refine ⟨resetBlock (s.withInbox rest), step_reset hinbox, rfl, rfl, rfl, rfl, rfl, rfl, rfl,
    fun hready hrxq => ?avail, fun b q hready hrxq => ?rdbyte, fun c hc => ?feed⟩
  case avail => exact exec_avail_of_availOp hready (availOp_queued rfl hrxq)
  case rdbyte => exact exec_rdbyte_queued hready rfl rfl hrxq
  case feed => exact (feedInSearching _ c rfl).2 hc

end Sys2Proof.Machine
end

section
/-! PROOFS. The two decoders against the encoder and the opcode table (30_encoding.md sections 1, 3 and 5). -/

namespace Sys2Proof.Machine

open Sys2Proof

/-! ### The fields of a command word -/

@[simp] theorem opField_append (op : BitVec 4) (arg : Byte) : opField (op ++ arg) = op :=
  BitVec.extractLsb'_append_eq_left

@[simp] theorem argField_append (op : BitVec 4) (arg : Byte) : argField (op ++ arg) = arg :=
  BitVec.extractLsb'_append_eq_right

/-- A command word is its two fields (R50). -/
theorem opField_append_argField (w : CommandWord) : opField w ++ argField w = w :=
  (BitVec.extractLsb'_append_extractLsb'_eq_extractLsb' rfl).trans BitVec.extractLsb'_eq_self

/-- The sixteen operation codes (R50, R53). -/
theorem operationCode_cases (op : BitVec 4) :
    op = 0x0#4 ∨ op = 0x1#4 ∨ op = 0x2#4 ∨ op = 0x3#4 ∨ op = 0x4#4 ∨ op = 0x5#4 ∨ op = 0x6#4 ∨ op = 0x7#4 ∨
    op = 0x8#4 ∨ op = 0x9#4 ∨ op = 0xA#4 ∨ op = 0xB#4 ∨ op = 0xC#4 ∨ op = 0xD#4 ∨ op = 0xE#4 ∨ op = 0xF#4 := by
  revert op; decide

/-! ### Decoding and encoding -/

/-- A byte is classified once, and its class and operand give it back (R56). -/
theorem decodeByte_wellFormed_encode (b : Byte) :
    (decodeByte b).wellFormed = true ∧ encode (decodeByte b) = .data b := by
  revert b; decide

/-- Every command decodes to a well-formed instruction (R50, R53). -/
theorem decodeCommand_wellFormed (w : CommandWord) : (decodeCommand w).wellFormed = true := by
  unfold decodeCommand
  split <;> rfl

/-- Clearing the operand of a command word leaves the operation field (R50). -/
theorem append_and_operationMask (op : BitVec 4) (arg : Byte) : (op ++ arg) &&& 0xF00#12 = op ++ 0#8 := by
  have hand : (op ++ arg) &&& (0xF#4 ++ 0x00#8) = (op &&& 0xF#4) ++ (arg &&& 0x00#8) := BitVec.and_append
  rwa [BitVec.and_zero, show (0xF#4 : BitVec 4) = BitVec.allOnes 4 from rfl, BitVec.and_allOnes] at hand

/-- Clearing the ignored bits of SETMODE's operand leaves its two low bits (R50, R148). -/
theorem append_and_modeMask (op : BitVec 4) (arg : Byte) :
    (op ++ arg) &&& 0xF03#12 = op ++ (0#6 ++ arg.extractLsb' 0 2 : Byte) := by
  have hlow : ∀ arg : Byte, arg &&& 0x03#8 = 0#6 ++ arg.extractLsb' 0 2 := by decide
  have hand : (op ++ arg) &&& (0xF#4 ++ 0x03#8) = (op &&& 0xF#4) ++ (arg &&& 0x03#8) := BitVec.and_append
  rwa [hlow, show (0xF#4 : BitVec 4) = BitVec.allOnes 4 from rfl, BitVec.and_allOnes] at hand

/-- Encoding a decoded command clears the bits its operation ignores (R50). -/
theorem encode_decodeCommand (w : CommandWord) : encode (decodeCommand w) = clearIgnored (.command w) := by
  obtain ⟨op, arg, rfl⟩ : ∃ op arg, w = op ++ arg := ⟨_, _, (opField_append_argField w).symm⟩
  rw [decodeCommand, clearIgnored, opField_append, argField_append, append_and_operationMask, append_and_modeMask]
  rcases operationCode_cases op with h | h | h | h | h | h | h | h | h | h | h | h | h | h | h | h <;> subst h <;> rfl

/-- Decoding a well-formed instruction's word gives it back. -/
theorem decode_encode {i : Instr} (h : i.wellFormed = true) : decode (encode i) = i := by
  cases i with
  | feed c => simp [encode, commandWord, decode, decodeCommand]
  | send len => simp [encode, commandWord, decode, decodeCommand]
  | setmode code =>
    have hcode : ((0#6 ++ code : Byte).extractLsb' 0 2 : BitVec 2) = code := BitVec.extractLsb'_append_eq_right
    simp [encode, commandWord, decode, decodeCommand, hcode]
  | accA x => revert x; decide
  | accB x => revert x; decide
  | rejCtl x => revert x; decide
  | rejLow x => revert x; decide
  | rejHigh x => revert x; decide
  | _ => rfl

/-- Settles O1: a command word by its two fields, a data byte by its class. -/
theorem decodeAndEncodeAgree : Obligations.DecodeAndEncodeAgree := by
  refine ⟨fun i h => decode_encode h, fun w => ?_⟩
  cases w with
  | command w => exact ⟨decodeCommand_wellFormed w, encode_decodeCommand w⟩
  | data b => exact decodeByte_wellFormed_encode b

/-- Settles O2: the decoder evaluated on each word. -/
theorem sampleWordsDecode : Obligations.SampleWordsDecode := by
  unfold Obligations.SampleWordsDecode
  decide

/-! ### The opcode table -/

/-- Every command row compares the operation field alone (R50, R53). -/
theorem commandRow_matchesWord {r : OpcodeRow} (hr : r ∈ commandRows) (op : BitVec 4) (arg : Byte) :
    r.matchesWord (.command (op ++ arg)) = ((op ++ 0#8).toNat == r.pattern) := by
  have hrows : ∀ r ∈ commandRows, r.width = 12 ∧ r.mask = 0xF00 := by decide
  obtain ⟨hwidth, hmask⟩ := hrows r hr
  rw [← append_and_operationMask op arg, BitVec.toNat_and]
  simp [OpcodeRow.matchesWord, InputWord.bits, hwidth, hmask]

/-- Settles O3: a command by its operation code, a data byte by evaluation of the eight rows. -/
theorem decoderPicksTheTableRow : Obligations.DecoderPicksTheTableRow := by
  refine ⟨fun w => ?_, by decide⟩
  obtain ⟨op, arg, rfl⟩ : ∃ op arg, w = op ++ arg := ⟨_, _, (opField_append_argField w).symm⟩
  rw [List.filter_congr fun r hr => commandRow_matchesWord hr op arg, decode, decodeCommand,
    opField_append]
  rcases operationCode_cases op with h | h | h | h | h | h | h | h | h | h | h | h | h | h | h | h <;> subst h <;> rfl

/-! ### Byte classes and checksum characters -/

theorem accepted_iff_toNat (b : Byte) : accepted b = true ↔ 0x20 ≤ b.toNat ∧ b.toNat ≤ 0x5F := by
  simp [accepted, filterLo, filterHi, BitVec.le_def]

/-- The four accepted classes (R56). -/
def isAcceptedClass : Instr → Bool
  | .dollar | .star | .accA _ | .accB _ => true
  | _ => false

theorem isAcceptedClass_iff (i : Instr) :
    isAcceptedClass i = true ↔ i = .dollar ∨ i = .star ∨ (∃ x, i = .accA x) ∨ ∃ x, i = .accB x := by
  cases i <;> simp [isAcceptedClass]

/-- The filter and the classifier agree on every byte (R56, R92). -/
theorem accepted_eq_isAcceptedClass (b : Byte) : accepted b = isAcceptedClass (decodeByte b) := by
  revert b; decide

/-- Settles O4: the bounds of the band, and the class of each byte. -/
theorem filterIsTheFourAcceptedClasses : Obligations.FilterIsTheFourAcceptedClasses := by
  refine fun b => ⟨accepted_iff_toNat b, ?_⟩
  rw [accepted_eq_isAcceptedClass, isAcceptedClass_iff]

/-- Settles O5: the digits by evaluation, the order of the two characters by the nibbles of the byte. -/
theorem checksumCharacters : Obligations.ChecksumCharacters := by
  refine ⟨by decide, fun h l => ⟨?_, ?_⟩⟩
  · rw [hexHi, BitVec.extractLsb'_append_eq_left]
  · rw [hexLo, BitVec.extractLsb'_append_eq_right]

end Sys2Proof.Machine
end

section
/-! PROOFS. Steps, outside events, reset, and the operations that are refused or write one field (20_memory.md section
4, 70_reset_and_hazards.md sections 1 and 2, 30_encoding.md rule R53). -/

namespace Sys2Proof.Machine

open Sys2Proof

/-! ### Steps -/

theorem step_word {s : State} {w : InputWord} {rest : List HostEvent} (h : s.inbox = .word w :: rest) :
    step s = exec (decode w) (s.withInbox rest) := by
  rw [step, h]

/-- An event that is no word is applied to the state in which it has been taken. -/
theorem step_event {s : State} {e : HostEvent} {rest : List HostEvent} (h : s.inbox = e :: rest)
    (hword : ∀ w, e ≠ .word w) : step s = .next (applyEvent e (s.withInbox rest)) := by
  rw [step, h]
  cases e with
  | word w => exact absurd rfl (hword w)
  | _ => rfl

theorem step_rest {s : State} (h : s.inbox = []) : step s = .next s := by
  rw [step, h]

/-- Settles O6: a step runs the decoded word, and the decoder gives an encoded instruction back. -/
theorem stepRunsTheDecodedWord : Obligations.StepRunsTheDecodedWord := by
  refine ⟨fun s w rest h => step_word h, fun s i rest hi h => ?_⟩
  rw [step_word h, decode_encode hi]

/-- Settles O7: each event that is no word, by what it is applied as. -/
theorem stepAppliesOutsideEvents : Obligations.StepAppliesOutsideEvents := by
  intro s rest
  exact ⟨step_rest, fun h => step_event h (by simp), fun h => step_event h (by simp),
    fun bs h => step_event h (by simp), fun bs h => step_event h (by simp), fun d h => step_event h (by simp)⟩

/-! ### Reset -/

/-- Settles O8: the reset state's fields, whatever the parameters. -/
theorem resetLeavesTheResetValues : Obligations.ResetLeavesTheResetValues :=
  ⟨fun _ => ⟨rfl, rfl, rfl, rfl, rfl, rfl, rfl, rfl, rfl, rfl⟩, Config.params, rfl⟩

/-- Settles O9: the state the reset event leads to, field by field. -/
theorem resetInputRestoresTheBlockOnly : Obligations.ResetInputRestoresTheBlockOnly := by
  intro s rest h
  exact ⟨_, step_reset h, rfl, rfl, rfl, rfl, rfl, rfl, rfl, rfl, rfl, rfl⟩

/-! ### Refusals and SETMODE -/

/-- Settles O11: each of the five operations asks first whether setup has been made. -/
theorem transportOperationsNeedSetup : Obligations.TransportOperationsNeedSetup := by
  intro s h
  exact ⟨whenReady_not h, whenReady_not h, whenReady_not h, whenReady_not h, fun len => whenReady_not h⟩

/-- The reserved operation codes, one by one (R53). -/
theorem reservedCode_cases {op : BitVec 4} (h : op = 0x0#4 ∨ 0x9#4 ≤ op) :
    op = 0x0#4 ∨ op = 0x9#4 ∨ op = 0xA#4 ∨ op = 0xB#4 ∨ op = 0xC#4 ∨ op = 0xD#4 ∨ op = 0xE#4 ∨ op = 0xF#4 := by
  revert op; decide

/-- Settles O12: each reserved code decodes to its own refused instruction; mode code 3 stands for no mode. -/
theorem reservedCodesAreRefused : Obligations.ReservedCodesAreRefused := by
  refine ⟨fun s => ⟨rfl, rfl, rfl, rfl, rfl, rfl, rfl, rfl⟩, fun s w hop => ?_, fun s => ⟨_, rfl, rfl⟩⟩
  rw [decode, decodeCommand]
  rcases reservedCode_cases hop with h | h | h | h | h | h | h | h <;> rw [h] <;> rfl

/-- Settles O45: the mode each code stands for. -/
theorem setmodeWritesMode : Obligations.SetmodeWritesMode := fun _ => ⟨rfl, rfl, rfl, rfl⟩

end Sys2Proof.Machine
end

section
/-! PROOFS. The Transport Gate: every path of AVAIL and RDBYTE, and the block request (40_transport_gate.md sections 2
and 3, 20_memory.md rule R38). -/

namespace Sys2Proof.Machine

open Sys2Proof

/-! ### AVAIL, path by path -/

/-- Pending, and the byte inspected is a line feed: the queue is flushed (R72, R74). -/
theorem availOp_flushes {s : State} {q : List Byte} (hplf : s.plf = true) (hrxq : (fillIfEmpty 1 s).rxq = chLf :: q) :
    availOp s = .ok (false, (fillIfEmpty 1 s).flushed) := by
  have hflush : flushQueue q.length ((fillIfEmpty 1 s).popped chLf q) = .ok (fillIfEmpty 1 s).flushed := by
    rw [flushQueue_eq q.length _ (Nat.le_refl _), State.flushed_popped hrxq]
  simp [availOp, hplf, queuedCount, hrxq, readOne_cons hrxq, hflush]

/-- Pending, and still nothing is queued (R75). -/
theorem availOp_nothing {s : State} (hplf : s.plf = true) (hrxq : (fillIfEmpty 1 s).rxq = []) :
    availOp s = .ok (false, fillIfEmpty 1 s) := by
  simp [availOp, hplf, queuedCount, hrxq]

/-- Not pending: the answer is whether a byte is present once an empty queue has been filled (R71). -/
theorem availOp_normal {s : State} (hplf : s.plf = false) :
    availOp s = .ok (s.lookV || decide ((fillIfEmpty s.params.frameCap s).rxq ≠ []),
      fillIfEmpty s.params.frameCap s) := by
  have hlook : (fillIfEmpty s.params.frameCap s).lookV = s.lookV := by rw [fillIfEmpty_frame]
  simp [availOp, hplf, queuedCount, hlook, List.length_pos_iff]

theorem fillIfEmpty_plf (n : Nat) (s : State) : (fillIfEmpty n s).plf = s.plf := by
  rw [fillIfEmpty_frame]

/-- Settles O14: AVAIL's operation takes its flushing path, where `PLF` is as it was, that is, set. -/
theorem availFlushesOnSecondLineFeed : Obligations.AvailFlushesOnSecondLineFeed := by
  intro s u q hready hplf hu hrxq
  rw [← fillIfEmpty_eq_ite] at hu
  have huplf : u.plf = true := by rw [hu, fillIfEmpty_plf, hplf]
  rw [exec_avail_of_availOp hready (availOp_flushes hplf (hu ▸ hrxq)), ← hu, ← huplf, State.flushed, hrxq]
  rfl

/-- Settles O15: AVAIL's two other paths. -/
theorem availWithoutFetchedByte : Obligations.AvailWithoutFetchedByte := by
  intro s u hready
  rw [← fillIfEmpty_eq_ite, ← fillIfEmpty_eq_ite]
  refine ⟨?_, ?_⟩
  · rintro hplf rfl hrxq
    exact exec_avail_of_availOp hready (availOp_nothing hplf hrxq)
  · rintro hplf rfl
    exact exec_avail_of_availOp hready (availOp_normal hplf)

theorem length_presentBytes (s : State) : (presentBytes s).length = presentCount s := by
  cases h : s.lookV <;> simp [presentBytes, presentCount, queuedCount, h, Nat.add_comm]

/-- Settles O17: AVAIL's operation always answers, answers true only with a byte present, and has its frame. -/
theorem availAnswersAndItsFrame : Obligations.AvailAnswersAndItsFrame := by
  intro s hready
  obtain ⟨r, t, h⟩ := availOp_ok s
  refine ⟨_, exec_avail_of_availOp hready h, Option.some_ne_none _, rfl, rfl, fun hr => ?present, ?frame⟩
  case present =>
    obtain rfl : r = true := Option.some.inj hr
    have hpresent : 0 < (presentBytes t).length := by
      rw [length_presentBytes]
      exact availOp_true_present h
    exact List.length_pos_iff.mp hpresent
  case frame => rw [availOp_frame h]; rfl

/-! ### The block request -/

/-- The bursts a request is answered from, where the device has listed output. -/
theorem pendingBursts_listed (n : Nat) {s : State} {burst : List Byte} {rest : List (List Byte)}
    (h : s.dev = burst :: rest) : pendingBursts n s = burst :: rest := by
  simp [pendingBursts, h]

/-- The bursts a request is answered from, where the device has none listed. -/
theorem pendingBursts_idle (n : Nat) {s : State} (h : s.dev = []) : pendingBursts n s = idleBursts n s.devIdle := by
  simp [pendingBursts, h]

/-- A block of at most `n` bytes goes to the tail of the queue, and it and what is left are what was listed (R38). -/
theorem requestBlock_appends (n : Nat) (s : State) :
    ∃ got : List Byte, got.length ≤ n ∧ (requestBlock n s).rxq = s.rxq ++ got ∧
      (s.dev ≠ [] → s.dev.flatten = got ++ (requestBlock n s).dev.flatten) := by
  cases hdev : s.dev with
  | nil =>
    obtain ⟨got, rest, h, hlen⟩ := requestBlock_cases n s
    exact ⟨got, hlen, by rw [h, State.granted_rxq], by simp⟩
  | cons burst rest =>
    have h := requestBlock_burst (pendingBursts_listed n hdev)
    refine ⟨burst.take n, List.length_take_le n burst, by rw [h, State.granted_rxq], fun _ => ?_⟩
    rw [h, State.granted_dev, burstsAfter_flatten, List.flatten_cons]

/-- Settles O16: the burst each request is answered from, where one is listed and for each kind of idling. -/
theorem requestBlockAppendsFromTheDevice : Obligations.RequestBlockAppendsFromTheDevice := by
  intro s n
  refine ⟨fun burst rest hdev => ?listed, fun hdev hidle => ?silent, fun b hdev hidle => ?filler,
    fun burst rest hdev hidle => ?repeats, requestBlock_appends n s⟩
  case listed => exact requestBlock_burst (pendingBursts_listed n hdev)
  case silent =>
    have hnone : pendingBursts n s = [] := by
      rw [pendingBursts_idle n hdev]
      rcases hidle with hidle | hidle <;> rw [hidle] <;> rfl
    rw [requestBlock_none hnone, State.granted, List.append_nil, ← hdev]
    rfl
  case filler =>
    have hburst : pendingBursts n s = [List.replicate n b] := by rw [pendingBursts_idle n hdev, hidle]; rfl
    simp [requestBlock_burst hburst, State.granted, burstsAfter, hdev]
  case repeats =>
    exact requestBlock_burst (by rw [pendingBursts_idle n hdev, hidle]; rfl)

/-! ### RDBYTE -/

/-- RDBYTE's operation delivers the staged byte first (R76). -/
theorem rdbyteOp_staged {s : State} (hlook : s.lookV = true) :
    rdbyteOp s = .ok (some s.look, noteDelivered s.look { s with lookV := false }) := by
  simp [rdbyteOp, hlook]

/-- RDBYTE's operation with nothing staged and nothing queued (R77). -/
theorem rdbyteOp_nothing {s : State} (hlook : s.lookV = false) (hrxq : s.rxq = []) : rdbyteOp s = .ok (none, s) := by
  simp [rdbyteOp, hlook, queuedCount, hrxq]

/-- Settles O18: the byte RDBYTE's operation delivers, and what noting the delivery writes. -/
theorem rdbyteDeliversTheNextByte : Obligations.RdbyteDeliversTheNextByte := by
  refine fun s hready => ⟨fun hlook => ?_, fun b q hlook hrxq => ?_⟩
  · rw [exec_rdbyte_of_rdbyteOp hready (rdbyteOp_staged hlook), noteDelivered_frame, Bool.or_comm]
    rfl
  · rw [exec_rdbyte_of_rdbyteOp hready (rdbyteOp_queued hlook hrxq), noteDelivered_frame, Bool.or_comm]
    rfl

/-- Settles O19: RDBYTE's operation answers none in the state as it was. -/
theorem rdbyteWithNothingPresent : Obligations.RdbyteWithNothingPresent :=
  fun _ hready hlook hrxq => exec_rdbyte_of_rdbyteOp hready (rdbyteOp_nothing hlook hrxq)

end Sys2Proof.Machine
end

section
/-! PROOFS. The Sentence Framer: one FEED, case by case (41_sentence_framer.md sections 2 and 3). -/

namespace Sys2Proof.Machine

open Sys2Proof

/-! ### FEED's operation, case by case -/

theorem completeSentence_ok {s : State} (h : s.cur < capacity) :
    completeSentence s = .ok (true, { s.stored chNul with ss := .complete }) := by
  have hstore : store chNul { s with ss := .complete } = .ok { s.stored chNul with ss := .complete } := store_ok h
  rw [completeSentence, hstore]
  rfl

theorem forceCheck_forces {s : State} (h : s.cur = forceAt) :
    forceCheck s = .ok (true, { s.stored chNul with ss := .complete }) := by
  rw [forceCheck, if_pos h, completeSentence_ok (h ▸ by decide)]

theorem forceCheck_passes {s : State} (h : s.cur ≠ forceAt) : forceCheck s = .ok (false, s) := by
  rw [forceCheck, if_neg h]

/-- Each case of `FeedCase` is what FEED's operation answers: the cases are exact. -/
theorem FeedCase.feedOp_eq {c : Byte} {s t : State} {r : Bool} (h : FeedCase c s r t) : feedOp c s = .ok (r, t) := by
  cases h with
  | rejected h => simp [feedOp, h]
  | skipped h hs hc => simp [feedOp, h, hs, hc]
  | started hs hc => simp [feedOp, hs, hc]
  | stored h hs hcur hf =>
    rcases hs with hs | hs <;> simp only [feedOp, h, hs, store_ok hcur, ok_bind, if_true, storedSuccessor]
    · by_cases hc : c = chStar
      · rw [if_pos hc, if_pos hc, forceCheck_passes hf]
      · rw [if_neg hc, if_neg hc, forceCheck_passes hf, ← hs]; rfl
    · rw [forceCheck_passes hf]
  | forced h hs hf =>
    have hcur : s.cur < capacity := by simp only [forceAt, capacity] at hf ⊢; omega
    rcases hs with hs | hs <;> simp only [feedOp, h, hs, store_ok hcur, ok_bind, if_true]
    · by_cases hc : c = chStar
      · rw [if_pos hc, forceCheck_forces hf]; rfl
      · rw [if_neg hc, forceCheck_forces hf]; rfl
    · rw [forceCheck_forces hf]; rfl
  | completed h hs hcur =>
    simp only [feedOp, h, hs, store_ok (Nat.lt_of_succ_lt hcur), ok_bind, if_true]
    exact completeSentence_ok hcur
  | appended h hs hcur => simp [feedOp, h, hs, hcur, store_ok (Nat.lt_of_lt_pred hcur)]
  | dropped h hs hcur => simp [feedOp, h, hs, Nat.not_lt.2 hcur]

/-- FEED of a byte in one of the cases of `FeedCase`. -/
theorem FeedCase.exec_eq {c : Byte} {s t : State} {r : Bool} (h : FeedCase c s r t) :
    exec (.feed c) s = .next (t.respond (flagResponse r)) :=
  exec_feed_of_feedOp h.feedOp_eq

@[simp] theorem State.completed_ss (s : State) (c : Byte) : (s.completed c).ss = .complete := rfl

/-- FEED answers true exactly when it moves the state to Complete. -/
theorem FeedCase.true_iff {c : Byte} {s t : State} {r : Bool} (h : FeedCase c s r t) :
    r = true ↔ s.ss ≠ .complete ∧ t.ss = .complete := by
  cases h with
  | rejected h => simp
  | skipped h hs hc => simp [hs]
  | started hs hc => simp
  | stored h hs hcur hf =>
    rcases hs with hs | hs
    · by_cases hc : c = chStar <;> simp [hs, storedSuccessor, hc]
    · simp [hs, storedSuccessor]
  | forced h hs hf => rcases hs with hs | hs <;> simp [hs]
  | completed h hs hcur => simp [hs]
  | appended h hs hcur => simp [hs]
  | dropped h hs hcur => simp

/-- FEED writes no cell but the one at the cursor and, when it answers true, the one after it. -/
theorem FeedCase.read_other {c : Byte} {s t : State} {r : Bool} (h : FeedCase c s r t) {a : Nat} (ha : a ≠ s.cur)
    (hnext : a ≠ s.cur + 1 ∨ r = false) : t.buf.read a = s.buf.read a := by
  cases h with
  | rejected | skipped | started | dropped => rfl
  | stored | appended => exact Memory.read_write_other s.buf c ha
  | forced | completed =>
    have hnext : a ≠ s.cur + 1 := by simpa using hnext
    rw [State.completed, Memory.read_write_other _ _ hnext, Memory.read_write_other _ _ ha]

/-- The byte that completes a sentence, and the sentinel after it. -/
theorem State.completed_read (s : State) (c : Byte) :
    (s.completed c).buf.read s.cur = some c ∧ (s.completed c).buf.read (s.cur + 1) = some chNul := by
  refine ⟨?_, Memory.read_write_same _ _ _⟩
  rw [State.completed, Memory.read_write_other _ _ (Nat.ne_of_lt (Nat.lt_succ_self _)), Memory.read_write_same]

/-- Settles O20: such a byte is rejected. -/
theorem feedRejectedByteChangesNothing : Obligations.FeedRejectedByteChangesNothing := by
  intro s c hc
  have hrejected : accepted c = false := by
    rw [Bool.eq_false_iff, Ne, accepted_iff_toNat]
    omega
  exact (FeedCase.rejected hrejected).exec_eq

/-- Settles O22: the stored and the forced case. -/
theorem feedStoresAndForcesCompletion : Obligations.FeedStoresAndForcesCompletion := by
  refine fun s c hs ha hcur => ⟨fun h80 => ?_, fun h80 => ?_⟩
  · have hroom : s.cur < capacity := Nat.lt_of_le_of_lt hcur (by decide)
    have hnot : s.cur + 1 ≠ forceAt := by simp only [forceAt, capacity]; omega
    have hsucc : storedSuccessor s.ss c =
        if s.ss = .cks1 then .cks2 else if c = 0x2A#8 then .cks1 else .inBody := by
      rcases hs with hs | hs <;> rw [hs] <;> rfl
    rw [(FeedCase.stored ha hs hroom hnot).exec_eq, hsucc]
    rfl
  · rw [(FeedCase.forced ha hs (by rw [h80]; rfl)).exec_eq, State.completed, h80]
    rfl

/-- Settles O23: the case that completes a sentence. -/
theorem feedCompletesASentence : Obligations.FeedCompletesASentence :=
  fun _ _ hs ha hcur => (FeedCase.completed ha hs (Nat.lt_of_le_of_lt (Nat.succ_le_succ hcur) (by decide))).exec_eq

/-- Settles O24: the appended and the dropped case. -/
theorem feedAppendsTheTail : Obligations.FeedAppendsTheTail :=
  fun _ _ hs ha _ => ⟨fun hcur => (FeedCase.appended ha hs hcur).exec_eq,
    fun hcur => (FeedCase.dropped ha hs (Nat.le_of_eq hcur.symm)).exec_eq⟩

/-- Under the invariant FEED answers, in one of the cases of `FeedCase`. -/
theorem exec_feed_cases {s : State} (h : s.Inv) (c : Byte) :
    ∃ r t, exec (.feed c) s = .next (t.respond (flagResponse r)) ∧ FeedCase c s r t := by
  obtain ⟨r, t, hop⟩ := h.framer.feed_ok c
  exact ⟨r, t, exec_feed_of_feedOp hop, feedOp_cases hop⟩

theorem flagResponse_eq_iff (r b : Bool) : flagResponse r = ⟨some b, none, none⟩ ↔ r = b := by
  simp [flagResponse]

/-- Settles O25: FEED's cases answer true on completion alone, and have its frame. -/
theorem feedReturnsTrueExactlyOnCompletion : Obligations.FeedReturnsTrueExactlyOnCompletion := by
  intro s c hinv
  obtain ⟨r, t, hexec, hcase⟩ := exec_feed_cases hinv c
  refine ⟨_, hexec, ?_, ?_, ?_, fun a ha hnext => hcase.read_other ha ?_⟩
  · exact (flagResponse_eq_iff r true).trans hcase.true_iff
  · exact (flagResponse_eq_iff r false).trans ((Bool.not_eq_true r).symm ▸ not_congr hcase.true_iff)
  · rw [feedOp_frame hcase.feedOp_eq]; rfl
  · exact hnext.imp_right fun h => Option.some.inj h

/-! ### The transition table, row by row -/

/-- The row of Searching. -/
theorem FeedCase.row_searching {c : Byte} {s t : State} {r : Bool} (h : FeedCase c s r t) (ha : accepted c = true)
    (hs : s.ss = .searching) : t.ss = (if c = chDollar then .inBody else .searching) ∧ t.buf = s.buf := by
  cases h with
  | rejected h => simp [ha] at h
  | skipped h hs hc => exact ⟨by rw [if_neg hc, hs], rfl⟩
  | started hs hc => exact ⟨by rw [if_pos hc], rfl⟩
  | _ => simp_all

/-- The rows of InBody and Cks1: the store that makes the cursor 81 meets the forced-completion check. -/
theorem FeedCase.row_storing {c : Byte} {s t : State} {r : Bool} (h : FeedCase c s r t) (ha : accepted c = true)
    (hs : s.ss = .inBody ∨ s.ss = .cks1) (hcur : s.cur ≤ 80) :
    t.buf.read s.cur = some c ∧ t.ss = (if t.cur = 82 then .complete else storedSuccessor s.ss c) ∧
      (t.cur = 82 ↔ s.cur + 1 = 81) := by
  cases h with
  | rejected h => simp [ha] at h
  | stored h hs _ hf =>
    have hforce : s.cur + 1 ≠ 81 := hf
    have h82 : s.cur + 1 ≠ 82 := by omega
    exact ⟨Memory.read_write_same _ _ _, (if_neg h82).symm, iff_of_false h82 hforce⟩
  | forced h hs hf =>
    have hforce : s.cur + 1 = 81 := hf
    have h82 : s.cur + 2 = 82 := by omega
    exact ⟨(s.completed_read c).1, (if_pos h82).symm, iff_of_true h82 hforce⟩
  | _ => simp_all

/-- The row of Cks2. -/
theorem FeedCase.row_cks2 {c : Byte} {s t : State} {r : Bool} (h : FeedCase c s r t) (ha : accepted c = true)
    (hs : s.ss = .cks2) :
    t.buf.read s.cur = some c ∧ t.buf.read (s.cur + 1) = some chNul ∧ t.ss = .complete := by
  cases h with
  | rejected h => simp [ha] at h
  | completed => exact ⟨(s.completed_read c).1, (s.completed_read c).2, rfl⟩
  | _ => simp_all

/-- The row of Complete. -/
theorem FeedCase.row_complete {c : Byte} {s t : State} {r : Bool} (h : FeedCase c s r t) (ha : accepted c = true)
    (hs : s.ss = .complete) :
    t.ss = .complete ∧ (s.cur < 82 → t.buf.read s.cur = some c) ∧ (s.cur = 82 → t.buf = s.buf) := by
  cases h with
  | rejected h => simp [ha] at h
  | appended h hs hcur =>
    have hroom : s.cur < 82 := hcur
    exact ⟨hs, fun _ => Memory.read_write_same _ _ _, fun h82 => absurd h82 (Nat.ne_of_lt hroom)⟩
  | dropped h hs hcur => exact ⟨hs, fun hroom => absurd hcur (Nat.not_le.mpr hroom), fun _ => rfl⟩
  | _ => simp_all

/-- Settles O26: the rows of the table; a rejected byte moves nothing. -/
theorem feedFollowsTheTransitionTable : Obligations.FeedFollowsTheTransitionTable := by
  intro s c hinv
  obtain ⟨r, t, hexec, hcase⟩ := exec_feed_cases hinv c
  refine ⟨_, hexec, fun ha => ?rejected, fun ha => ⟨fun hs => ?searching, fun hs => ?inBody, fun hs => ?cks1,
    fun hs => hcase.row_cks2 ha hs, fun hs => hcase.row_complete ha hs⟩, ?flag⟩
  case rejected =>
    have hop := (FeedCase.rejected (s := s) ha).feedOp_eq.symm.trans hcase.feedOp_eq
    obtain ⟨-, rfl⟩ := Prod.mk.inj (Except.ok.inj hop)
    exact ⟨rfl, rfl⟩
  case searching => exact hcase.row_searching ha hs
  case inBody =>
    have hrow := hcase.row_storing ha (.inl hs) (hinv.assemblingCur (.inl hs))
    rwa [hs] at hrow
  case cks1 =>
    have hrow := hcase.row_storing ha (.inr hs) (hinv.assemblingCur (.inr (.inl hs)))
    rwa [hs] at hrow
  case flag => exact Option.some_inj.trans hcase.true_iff

end Sys2Proof.Machine
end

section
/-! PROOFS. FEED reads and writes the Framer's fields alone, and feeding several bytes (41_sentence_framer.md
rules R91 and R92) -/

namespace Sys2Proof.Machine

open Sys2Proof

/-- The state `s` with the Framer's fields of `t`. -/
def State.withFramer (s t : State) : State := { s with buf := t.buf, cur := t.cur, ss := t.ss }

theorem store_withFramer (v : Byte) (s t : State) :
    store v (s.withFramer t) = (store v t).map s.withFramer := by
  by_cases h : t.cur < capacity
  · rw [store_ok h, store_ok (show (s.withFramer t).cur < capacity from h)]; rfl
  · simp [store, h, State.withFramer, Except.map]

theorem completeSentence_withFramer (s t : State) :
    completeSentence (s.withFramer t) = (completeSentence t).map (Prod.map id s.withFramer) := by
  have hstore : store chNul { s.withFramer t with ss := .complete } =
      (store chNul { t with ss := .complete }).map s.withFramer :=
    store_withFramer chNul s { t with ss := .complete }
  simp only [completeSentence, hstore]
  cases store chNul { t with ss := .complete } <;> rfl

theorem forceCheck_withFramer (s t : State) :
    forceCheck (s.withFramer t) = (forceCheck t).map (Prod.map id s.withFramer) := by
  unfold forceCheck
  by_cases h : t.cur = forceAt
  · rw [if_pos h, if_pos (show (s.withFramer t).cur = forceAt from h), completeSentence_withFramer]
  · rw [if_neg h, if_neg (show ¬ (s.withFramer t).cur = forceAt from h)]; rfl


/-- Two steps that each answer up to a change of the state answer so one after the other. -/
theorem map_bind_comm {α β : Type} (x : Except Fault α) (g : α → α) (k : β → β) (f f' : α → Except Fault β)
    (h : ∀ a, f' (g a) = (f a).map k) : (x.map g >>= f') = (x >>= f).map k := by
  cases x with
  | error e => rfl
  | ok a => exact h a

/-- FEED's operation reads and writes the Framer's fields alone (R91). -/
theorem feedOp_withFramer (c : Byte) (s t : State) :
    feedOp c (s.withFramer t) = (feedOp c t).map (Prod.map id s.withFramer) := by
  unfold feedOp
  by_cases ha : accepted c = true
  · rw [if_pos ha, if_pos ha, show (s.withFramer t).ss = t.ss from rfl]
    cases t.ss with
    | searching =>
      by_cases hc : c = chDollar
      · simp only [if_pos hc]; rfl
      · simp only [if_neg hc]; rfl
    | inBody =>
      simp only [store_withFramer]
      refine map_bind_comm _ _ _ _ _ fun u => ?_
      rw [← forceCheck_withFramer]
      split <;> rfl
    | cks1 =>
      simp only [store_withFramer]
      refine map_bind_comm _ _ _ _ _ fun u => ?_
      rw [← forceCheck_withFramer]; rfl
    | cks2 =>
      simp only [store_withFramer]
      exact map_bind_comm _ _ _ _ _ fun u => completeSentence_withFramer s u
    | complete =>
      simp only [store_withFramer]
      rw [show (s.withFramer t).cur = t.cur from rfl]
      split
      · exact map_bind_comm _ _ _ _ _ fun u => rfl
      · rfl
  · rw [if_neg ha, if_neg ha]; rfl

/-- Feeding bytes reads and writes the Framer's fields alone. -/
theorem feedAll_withFramer (bs : List Byte) (s t : State) :
    feedAll bs (s.withFramer t) = (feedAll bs t).map s.withFramer := by
  induction bs generalizing t with
  | nil => rfl
  | cons b bs ih =>
    rw [feedAll, feedOp_withFramer, feedAll]
    exact map_bind_comm _ _ _ _ _ fun p => ih p.2

/-! ### Feeding several bytes -/

theorem feedAll_cons_of_feedOp {b : Byte} {bs : List Byte} {s t : State} {r : Bool} (h : feedOp b s = .ok (r, t)) :
    feedAll (b :: bs) s = feedAll bs t := by
  rw [feedAll, h]
  rfl

/-- Bytes fed in two parts. -/
theorem feedAll_append (as bs : List Byte) (s : State) : feedAll (as ++ bs) s = feedAll as s >>= feedAll bs := by
  induction as generalizing s with
  | nil => rfl
  | cons a as ih =>
    rw [List.cons_append, feedAll, feedAll]
    cases feedOp a s with
    | error e => rfl
    | ok p => exact ih p.2

/-- Settles O27: by induction over the bytes, a rejected one leaving the state as it is. -/
theorem rejectedBytesAreInvisible : Obligations.RejectedBytesAreInvisible := by
  intro bs
  induction bs with
  | nil => intro s; rfl
  | cons b bs ih =>
    intro s
    cases hb : accepted b with
    | false => rw [List.filter_cons_of_neg (by simp [hb]), feedAll_cons_of_feedOp (FeedCase.rejected hb).feedOp_eq, ih]
    | true =>
      rw [List.filter_cons_of_pos hb, feedAll, feedAll]
      exact congrArg _ (funext fun p => ih p.2)

end Sys2Proof.Machine
end

section
/-! PROOFS. The data level: a data byte is delivered after the staged byte, if there is one (30_encoding.md section 3,
10_state.md section 4). -/

namespace Sys2Proof.Machine

open Sys2Proof

/-! ### One delivery -/

/-- The staged byte is delivered first, without touching the queue (R76). -/
theorem deliverNext_staged {s : State} (h : s.lookV = true) :
    deliverNext s = deliverByte s.look { s with lookV := false } := by
  simp [deliverNext, rdbyteOp_staged h, deliverByte]

/-- With nothing staged the head of the queue is delivered (R76). -/
theorem deliverNext_queued {s : State} {b : Byte} {q : List Byte} (hlook : s.lookV = false) (hrxq : s.rxq = b :: q) :
    deliverNext s = deliverByte b (s.popped b q) := by
  simp [deliverNext, rdbyteOp_queued hlook hrxq, deliverByte]

theorem deliverByte_of_feedOp {b : Byte} {s t : State} {r : Bool} (h : feedOp b (noteDelivered b s) = .ok (r, t)) :
    deliverByte b s = .ok t := by
  rw [deliverByte, h]
  rfl

/-- A byte the Framer rejects is only noted (R56, R92). -/
theorem deliverByte_rejected {b : Byte} (h : accepted b = false) (s : State) :
    deliverByte b s = .ok (noteDelivered b s) :=
  deliverByte_of_feedOp (FeedCase.rejected h).feedOp_eq

/-- What a delivery leaves unchanged (R76, R91). -/
theorem deliverByte_frame {b : Byte} {s t : State} (h : deliverByte b s = .ok t) :
    t = { s with buf := t.buf, cur := t.cur, ss := t.ss, plf := decide (b = chLf) || s.plf } := by
  simp only [deliverByte, bind_eq_ok, pure_eq_ok, Except.ok.injEq] at h
  obtain ⟨⟨r, u⟩, hfeed, rfl⟩ := h
  rw [feedOp_frame hfeed, noteDelivered_frame]

/-- A delivery answers and keeps the Framer's part of the invariant. -/
theorem deliverByte_framerInv (b : Byte) {s : State} (h : FramerInv s) :
    ∃ t, deliverByte b s = .ok t ∧ FramerInv t := by
  have hnoted : FramerInv (noteDelivered b s) := by rw [noteDelivered_frame]; exact h.congr rfl rfl rfl
  obtain ⟨r, t, hfeed⟩ := hnoted.feed_ok b
  exact ⟨t, deliverByte_of_feedOp hfeed, feedOp_framerInv hfeed hnoted⟩

/-! ### The response wires have no part in a delivery (R18) -/

theorem noteDelivered_respond (b : Byte) (s : State) (r : Response) :
    noteDelivered b (s.respond r) = (noteDelivered b s).respond r := by
  rw [noteDelivered_frame, noteDelivered_frame]
  rfl

theorem feedOp_respond (c : Byte) (s : State) (r : Response) :
    feedOp c (s.respond r) = (feedOp c s).map (Prod.map id fun t => t.respond r) := by
  refine (feedOp_withFramer c (s.respond r) s).trans ?_
  cases hfeed : feedOp c s with
  | error e => rfl
  | ok p =>
    have hframe : (s.respond r).withFramer p.2 = p.2.respond r := by rw [feedOp_frame hfeed]; rfl
    exact congrArg (fun t => Except.ok (p.1, t)) hframe

theorem deliverByte_respond (b : Byte) (s : State) (r : Response) :
    deliverByte b (s.respond r) = (deliverByte b s).map fun t => t.respond r := by
  rw [deliverByte, noteDelivered_respond, feedOp_respond, deliverByte]
  exact map_bind_comm _ _ _ _ _ fun p => rfl

/-! ### The data-level instructions -/

/-- The byte a data-level instruction stands for (R56). -/
def dataByte : Instr → Byte
  | .lf => chLf
  | .dollar => chDollar
  | .star => chStar
  | .accA x => 0b001#3 ++ x
  | .accB x => 0b010#3 ++ x
  | .rejCtl x => 0b000#3 ++ x
  | .rejLow x => 0b011#3 ++ x
  | .rejHigh x => 0b1#1 ++ x
  | _ => chNul

/-- A data-level instruction is the arrival of its byte. -/
theorem exec_dataByte {i : Instr} (hi : isDataByte i = true) (s : State) : exec i s = arriveByte (dataByte i) s := by
  cases i with
  | lf | dollar | star | accA | accB | rejCtl | rejLow | rejHigh => rfl
  | _ => simp [isDataByte] at hi

/-- With nothing staged, the arriving byte is delivered. -/
theorem arriveByte_not_staged {s : State} (hlook : s.lookV = false) (b : Byte) :
    arriveByte b s = finish (do
      let t ← deliverByte b s
      return (.undriven, t)) := by
  simp [arriveByte, hlook]

theorem arriveByte_of_deliverByte {b : Byte} {s t : State} (hlook : s.lookV = false) (h : deliverByte b s = .ok t) :
    arriveByte b s = .next (t.respond .undriven) := by
  rw [arriveByte_not_staged hlook, h]
  rfl

/-- A staged byte is delivered before the arriving one (R16). -/
theorem arriveByte_staged {s t : State} (hlook : s.lookV = true)
    (h : deliverByte s.look { s with lookV := false } = .ok t) (b : Byte) : arriveByte b s = arriveByte b t := by
  have hnext : t.lookV = false := by rw [deliverByte_frame h]
  simp [arriveByte, hlook, deliverNext_staged hlook, h, hnext]

/-- The arrival drives the response anew, so it does not matter what the wires held. -/
theorem arriveByte_respond (b : Byte) {s : State} (hlook : s.lookV = false) (r : Response) :
    arriveByte b (s.respond r) = arriveByte b s := by
  rw [arriveByte_not_staged hlook, arriveByte_not_staged (s := s.respond r) hlook, deliverByte_respond]
  cases deliverByte b s <;> rfl

/-- A rejected byte that is no line feed leaves the state as it is. -/
theorem arriveByte_rejected {b : Byte} {s : State} (hlook : s.lookV = false)
    (h : accepted b = false ∧ b ≠ chLf) : arriveByte b s = .next (s.respond .undriven) := by
  refine arriveByte_of_deliverByte hlook ?_
  rw [deliverByte_rejected h.1, noteDelivered_other s h.2]

/-- An accepted byte does what FEED does with it: it is no line feed, so the Gate notes nothing. -/
theorem arriveByte_accepted {b : Byte} {s : State} (hinv : s.Inv) (hlook : s.lookV = false)
    (h : accepted b = true) :
    ∃ u, exec (.feed b) s = .next u ∧ arriveByte b s = .next { u with resp := ⟨none, none, none⟩ } := by
  obtain ⟨r, t, hop⟩ := hinv.framer.feed_ok b
  have hdeliver : deliverByte b s = .ok t :=
    deliverByte_of_feedOp (by rw [noteDelivered_other s (accepted_ne_lf h), hop])
  refine ⟨_, exec_feed_of_feedOp hop, ?_⟩
  rw [arriveByte_of_deliverByte hlook hdeliver]
  rfl

/-- Settles O47: the rejected classes, evaluated at every operand; the line feed is rejected but noted. -/
theorem rejectedDataBytes : Obligations.RejectedDataBytes := by
  refine fun s hlook => ⟨?lf, fun x hx => ?_, fun x => ?_, fun x => ?_⟩
  case lf =>
    have hdeliver : deliverByte chLf s = .ok { s with plf := true } := by
      rw [deliverByte_rejected (by decide), noteDelivered_lf]
    exact arriveByte_of_deliverByte hlook hdeliver
  all_goals exact arriveByte_rejected hlook (by revert x; decide)

/-- Settles O48: the accepted classes, evaluated at every operand. -/
theorem acceptedDataBytes : Obligations.AcceptedDataBytes :=
  fun _ hinv hlook => ⟨arriveByte_accepted hinv hlook accepted_dollar, arriveByte_accepted hinv hlook accepted_star,
    fun x => arriveByte_accepted hinv hlook (by revert x; decide),
    fun x => arriveByte_accepted hinv hlook (by revert x; decide)⟩

/-- FEED's next state comes from its operation's. -/
theorem exec_feed_next {c : Byte} {s t : State} :
    exec (.feed c) s = .next t ↔ ∃ r u, feedOp c s = .ok (r, u) ∧ t = u.respond (flagResponse r) := by
  constructor
  · intro h
    cases hop : feedOp c s with
    | error e => simp [exec, execFeed, hop] at h
    | ok p =>
      rw [exec_feed_of_feedOp hop] at h
      exact ⟨p.1, p.2, rfl, (Host.Outcome.next.inj h).symm⟩
  · rintro ⟨r, u, hop, rfl⟩
    exact exec_feed_of_feedOp hop

/-- RDBYTE of the staged byte and FEED of it are its delivery, but for the responses they drive. -/
theorem deliverByte_of_rdbyte_feed {s a b : State} (hready : s.ready = true) (hlook : s.lookV = true)
    (ha : exec .rdbyte s = .next a) (hb : exec (.feed s.look) a = .next b) :
    ∃ t r, deliverByte s.look { s with lookV := false } = .ok t ∧ b = t.respond r := by
  rw [exec_rdbyte_of_rdbyteOp hready (rdbyteOp_staged hlook)] at ha
  obtain ⟨f, u, hop, rfl⟩ := exec_feed_next.mp hb
  have hdeliver := deliverByte_respond s.look { s with lookV := false } (byteResponse (some s.look))
  rw [deliverByte_of_feedOp (r := f) (t := u)] at hdeliver
  · cases hd : deliverByte s.look { s with lookV := false } with
    | error e => simp [hd, Except.map] at hdeliver
    | ok t =>
      rw [hd] at hdeliver
      exact ⟨t, flagResponse f, rfl, by rw [Except.ok.inj hdeliver]; rfl⟩
  · rw [← hop, ← Host.Outcome.next.inj ha, noteDelivered_frame, noteDelivered_frame]
    rfl

/-- Settles O49: the staged byte's delivery comes first, and the response it leaves is driven anew. -/
theorem stagedByteGoesFirst : Obligations.StagedByteGoesFirst := by
  intro s a b i hi hready hlook ha hb
  obtain ⟨t, r, hdeliver, rfl⟩ := deliverByte_of_rdbyte_feed hready hlook ha hb
  have hnext : t.lookV = false := by rw [deliverByte_frame hdeliver]
  rw [exec_dataByte hi, exec_dataByte hi, arriveByte_staged hlook hdeliver, arriveByte_respond _ hnext]

end Sys2Proof.Machine
end

section
/-! PROOFS. The invariant between operations: it holds after reset, every step keeps it, and no run from it stops but
where the spec says so (10_state.md section 9, 60_exceptions.md section 1). -/

namespace Sys2Proof.Machine

open Sys2Proof

/-! ### Reset -/

/-- A Framer in Searching with the cursor at 0 meets its part of the invariant. -/
theorem framerInv_of_searching {s : State} (hwf : Memory.wf s.buf = true) (hbelow : Memory.below 82 s.buf = true)
    (hs : s.ss = .searching) (hcur : s.cur = 0) : FramerInv s where
  bufWf := hwf
  bufBelow := hbelow
  curRange := by omega
  searchingCur _ := hcur
  assemblingCur _ := by omega
  assemblingCells _ i hi := by omega
  inBodyStars h := by simp [hs] at h
  cks1Star h := by simp [hs] at h
  cks2Star h := by simp [hs] at h
  completeImage h := by simp [hs] at h

theorem gateInv_of_clear {s : State} (hplf : s.plf = false) (hlook : s.lookV = false) : GateInv s where
  oneFlag := by simp [hplf]
  lookNotLf := by simp [hlook]

theorem resetBlock_inv {s : State} (h : s.Inv) : (resetBlock s).Inv :=
  .of_parts (framerInv_of_searching rfl rfl rfl rfl) (gateInv_of_clear rfl rfl)
    ⟨⟨[], by simp, rfl, rfl⟩, h.frameClosed⟩

theorem resetWith_inv (p : Params) : (State.resetWith p).Inv :=
  .of_parts (framerInv_of_searching rfl rfl rfl rfl) (gateInv_of_clear rfl rfl) ⟨⟨[], by simp, rfl, rfl⟩, rfl⟩

/-- Settles O51: reset meets each part of the invariant, whatever the parameters. -/
theorem resetMeetsTheInvariant : Obligations.ResetMeetsTheInvariant := ⟨resetWith_inv _, resetWith_inv⟩

/-! ### Fields the invariant does not speak of -/

/-- The invariant looks at the Framer's fields, the Gate's flags, `OUT` and the open frame alone. -/
theorem State.Inv.congr {s t : State} (h : s.Inv) (hf : (t.buf, t.cur, t.ss) = (s.buf, s.cur, s.ss))
    (hg : (t.plf, t.look, t.lookV) = (s.plf, s.look, s.lookV))
    (hb : (t.out, t.outLen, t.txOpen) = (s.out, s.outLen, s.txOpen)) : t.Inv := by
  simp only [Prod.mk.injEq] at hf hg hb
  exact .of_parts (h.framer.congr hf.1 hf.2.1 hf.2.2) (h.gate.congr hg.1 hg.2.1 hg.2.2)
    (h.buffer.congr hb.1 hb.2.1 hb.2.2)

/-- Every event keeps the invariant. -/
theorem applyEvent_inv (e : HostEvent) {s : State} (h : s.Inv) : (applyEvent e s).Inv := by
  cases e with
  | reset => exact resetBlock_inv h
  | setup acknowledged =>
    cases acknowledged with
    | true => exact h.congr rfl rfl rfl
    | false => exact h
  | word | loadBody | deviceBurst | deviceIdle => exact h.congr rfl rfl rfl

/-! ### One operation -/

/-- An outcome that is safe, and a next state that meets the invariant. -/
def safeInv : Host.Outcome State Fault Refusal → Prop
  | .next t => t.Inv
  | .fault f => f = .receiveNeverReturns
  | .refused r => (∃ op, r = .reservedCommand op) ∨ ∃ m, r = .notReady m

theorem safeInv.safeOutcome {o : Host.Outcome State Fault Refusal} (h : safeInv o) : safeOutcome o := by
  cases o with
  | next => trivial
  | fault => exact h
  | refused => exact h

/-- An operation that answers in a state that meets the invariant. -/
theorem safeInv_respond {t : State} (r : Response) (h : t.Inv) : safeInv (.next (t.respond r)) := respond_inv r h

/-- A transport operation is safe where it is safe after connection setup (R184). -/
theorem safeInv_whenReady {m : String} {s : State} {o : Host.Outcome State Fault Refusal} (h : safeInv o) :
    safeInv (whenReady m s o) := by
  unfold whenReady
  split
  · exact h
  · exact .inr ⟨m, rfl⟩

theorem execAvail_safeInv {s : State} (h : s.Inv) : safeInv (execAvail s) := by
  obtain ⟨r, t, hop⟩ := availOp_ok s
  rw [execAvail, hop]
  exact safeInv_whenReady (safeInv_respond _ (availOp_inv hop h))

/-- RDBYTE's operation answers and keeps the invariant. -/
theorem rdbyteOp_inv {s : State} (h : s.Inv) : ∃ r t, rdbyteOp s = .ok (r, t) ∧ t.Inv := by
  obtain ⟨r, t, hop⟩ : ∃ r t, rdbyteOp s = .ok (r, t) := by
    obtain ⟨-, hop⟩ | ⟨-, b, q, -, hop⟩ | ⟨-, -, hop⟩ := rdbyteOp_cases s <;> exact ⟨_, _, hop⟩
  have hframe := rdbyteOp_frame hop
  refine ⟨r, t, hop, .of_parts ?_ (rdbyteOp_gateInv hop h.gate) ?_⟩
  · rw [hframe]; exact h.framer.congr rfl rfl rfl
  · rw [hframe]; exact h.buffer.congr rfl rfl rfl

theorem execRdbyte_safeInv {s : State} (h : s.Inv) : safeInv (execRdbyte s) := by
  obtain ⟨r, t, hop, ht⟩ := rdbyteOp_inv h
  rw [execRdbyte, hop]
  exact safeInv_whenReady (safeInv_respond _ ht)

theorem execFeed_safeInv (c : Byte) {s : State} (h : s.Inv) : safeInv (execFeed c s) := by
  obtain ⟨r, t, hop⟩ := h.framer.feed_ok c
  rw [execFeed, hop]
  refine safeInv_respond _ (.of_parts (feedOp_framerInv hop h.framer) ?_ ?_)
  · rw [feedOp_frame hop]; exact h.gate.congr rfl rfl rfl
  · rw [feedOp_frame hop]; exact h.buffer.congr rfl rfl rfl

theorem execExtract_safeInv {s : State} (h : s.Inv) : safeInv (execExtract s) := by
  obtain ⟨r, t, hop, ht⟩ := extractOp_inv h
  rw [execExtract, hop]
  exact safeInv_whenReady (safeInv_respond _ ht)

theorem execReceive_safeInv {s : State} (h : s.Inv) : safeInv (execReceive s) := by
  rw [execReceive]
  obtain hhang | ⟨r, t, hop, ht⟩ := receiveLoop_inv (n := receiveBound s) h
  · rw [hhang]
    exact safeInv_whenReady rfl
  · rw [hop]
    exact safeInv_whenReady (safeInv_respond _ ht)

/-- SEND's operation answers and keeps the invariant. -/
theorem sendOp_inv (len : Byte) {s : State} (h : s.Inv) : ∃ t, sendOp len s = .ok t ∧ t.Inv := by
  by_cases hn : 1 ≤ sendLength len
  · obtain ⟨t, full, part, hop, -, -, -, hframe⟩ := sendOp_ok hn h.frameClosed
    refine ⟨t, hop, ?_⟩
    rw [hframe]
    exact h.congr rfl rfl rfl
  · exact ⟨s, by rw [sendOp, if_pos (by omega)], h⟩

theorem execSend_safeInv (len : Byte) {s : State} (h : s.Inv) : safeInv (execSend len s) := by
  obtain ⟨t, hop, ht⟩ := sendOp_inv len h
  rw [execSend, hop]
  exact safeInv_whenReady (safeInv_respond _ ht)

/-- A delivery with nothing staged answers and keeps the invariant. -/
theorem deliverByte_inv (b : Byte) {s : State} (hlook : s.lookV = false) (h : s.Inv) :
    ∃ t, deliverByte b s = .ok t ∧ t.lookV = false ∧ t.Inv := by
  obtain ⟨t, hop, ht⟩ := deliverByte_framerInv b h.framer
  have hframe := deliverByte_frame hop
  have hnext : t.lookV = false := by rw [hframe]; exact hlook
  refine ⟨t, hop, hnext, .of_parts ht ⟨by simp [hnext], by simp [hnext]⟩ ?_⟩
  rw [hframe]
  exact h.buffer.congr rfl rfl rfl

/-- The arrival of a byte is safe: the staged byte is delivered before it. -/
theorem arriveByte_safeInv (b : Byte) {s : State} (h : s.Inv) : safeInv (arriveByte b s) := by
  have hfree : ∀ u : State, u.lookV = false → u.Inv → safeInv (arriveByte b u) := by
    intro u hlook hu
    obtain ⟨t, hop, -, ht⟩ := deliverByte_inv b hlook hu
    rw [arriveByte_of_deliverByte hlook hop]
    exact safeInv_respond _ ht
  cases hlook : s.lookV with
  | false => exact hfree s hlook h
  | true =>
    have htaken : ({ s with lookV := false } : State).Inv :=
      .of_parts (h.framer.congr rfl rfl rfl) ⟨by simp, by simp⟩ (h.buffer.congr rfl rfl rfl)
    obtain ⟨t, hop, hnext, ht⟩ := deliverByte_inv s.look rfl htaken
    rw [arriveByte_staged hlook hop]
    exact hfree t hnext ht

/-- Every instruction is safe where the invariant holds, and keeps it (R25, R160). -/
theorem exec_safeInv (i : Instr) {s : State} (h : s.Inv) : safeInv (exec i s) := by
  cases i with
  | avail => exact execAvail_safeInv h
  | rdbyte => exact execRdbyte_safeInv h
  | feed c => exact execFeed_safeInv c h
  | extract => exact execExtract_safeInv h
  | receive => exact execReceive_safeInv h
  | send len => exact execSend_safeInv len h
  | setmode code => exact h.congr rfl rfl rfl
  | getmode => exact respond_inv _ h
  | reserved0 | reserved9 | reservedA | reservedB | reservedC | reservedD | reservedE | reservedF =>
    exact .inl ⟨_, rfl⟩
  | lf | dollar | star | accA | accB | rejCtl | rejLow | rejHigh => exact arriveByte_safeInv _ h

/-! ### Steps and runs -/

/-- Every step is safe where the invariant holds, and keeps it. -/
theorem step_safeInv {s : State} (h : s.Inv) : safeInv (step s) := by
  cases hinbox : s.inbox with
  | nil => rw [step_rest hinbox]; exact h
  | cons e rest =>
    have htaken : (s.withInbox rest).Inv := h.congr rfl rfl rfl
    cases e with
    | word w => rw [step_word hinbox]; exact exec_safeInv _ htaken
    | _ => rw [step_event hinbox (by simp)]; exact applyEvent_inv _ htaken

/-- Settles O52: a step's outcome meets the invariant where it is a next state. -/
theorem everyStepKeepsTheInvariant : Obligations.EveryStepKeepsTheInvariant := by
  intro s t h ht
  have hstep := step_safeInv h
  rwa [ht] at hstep

/-- A run from a state of an invariant ends well when each step does and keeps the invariant. -/
theorem run_of_invariant {M : Host.Core} {I : M.State → Prop} {Q : Host.Outcome M.State M.Fault M.Refusal → Prop}
    (hstay : ∀ s, I s → Q (.next s)) (hstop : ∀ s, I s → Q (M.step s))
    (hkeep : ∀ s t, I s → M.step s = .next t → I t) (k : Nat) {s : M.State} (h : I s) : Q (M.run k s) := by
  induction k generalizing s with
  | zero => exact hstay s h
  | succ k ih =>
    have hs := hstop s h
    rw [Host.Core.run]
    cases hout : M.step s with
    | next t => exact ih (hkeep s t h hout)
    | fault f => rwa [hout] at hs
    | refused r => rwa [hout] at hs

/-- Settles O53: each step of a run is safe and keeps the invariant. -/
theorem invariantStatesAreSafe : Obligations.InvariantStatesAreSafe := fun _ h k =>
  run_of_invariant (M := Sys2Proof.core) (I := State.Inv) (Q := safeOutcome) (fun _ _ => trivial)
    (fun _ hs => (step_safeInv hs).safeOutcome) everyStepKeepsTheInvariant k h

end Sys2Proof.Machine
end

section
/-! PROOFS. The Message Extractor: the drain, the tail shift, the Result and the output (42_message_extractor.md). -/

namespace Sys2Proof.Machine

open Sys2Proof

/-! ### The drain -/

/-- Every present byte has been read, and the line feeds among them noted (R117). -/
def State.drained (s : State) : State :=
  { s with
    plf := s.plf || (presentBytes s).contains chLf
    lookV := false
    rxq := []
    busLog := s.busLog ++ s.rxq.map .readOne }

/-- A delivery feeds the byte and notes it. -/
theorem deliverByte_withFramer (b : Byte) (s t : State) :
    deliverByte b (s.withFramer t) = (feedOp b t).map fun p => (noteDelivered b s).withFramer p.2 := by
  have hnoted : noteDelivered b (s.withFramer t) = (noteDelivered b s).withFramer t := by
    rw [noteDelivered_frame, noteDelivered_frame]; rfl
  rw [deliverByte, hnoted, feedOp_withFramer]
  cases feedOp b t <;> rfl

theorem presentBytes_staged {s : State} (h : s.lookV = true) : presentBytes s = s.look :: s.rxq := by
  simp [presentBytes, h]

theorem presentBytes_not_staged {s : State} (h : s.lookV = false) : presentBytes s = s.rxq := by
  simp [presentBytes, h]

/-- The state `s` once its first present byte is noted as delivered, and the others drained. -/
theorem noteDelivered_drained (b : Byte) {s : State} (h : s.lookV = false) :
    (noteDelivered b s).drained =
      { s.drained with plf := s.plf || (b :: s.rxq).contains chLf } := by
  have hb : decide (b = chLf) = decide (chLf = b) := decide_eq_decide.mpr eq_comm
  rw [noteDelivered_frame]
  simp [State.drained, presentBytes, h, hb, Bool.or_assoc, Bool.or_left_comm]

/-- With a byte present, a delivery takes the first of them; the drain of what is left ends as the whole drain. -/
theorem deliverNext_present {s : State} {b : Byte} {bs : List Byte} (h : presentBytes s = b :: bs) :
    ∃ a, deliverNext s = (feedOp b s).map (fun p => a.withFramer p.2) ∧ presentBytes a = bs ∧
      a.drained = s.drained := by
  cases hlook : s.lookV with
  | true =>
    obtain ⟨rfl, rfl⟩ := List.cons.inj ((presentBytes_staged hlook).symm.trans h)
    refine ⟨noteDelivered s.look { s with lookV := false }, ?_, ?_, ?_⟩
    · rw [deliverNext_staged hlook]
      exact deliverByte_withFramer s.look { s with lookV := false } s
    · rw [noteDelivered_frame]
      exact presentBytes_not_staged rfl
    · rw [noteDelivered_drained _ rfl]
      simp [State.drained, presentBytes_staged hlook]
  | false =>
    have hrxq := (presentBytes_not_staged hlook).symm.trans h
    refine ⟨noteDelivered b (s.popped b bs), ?_, ?_, ?_⟩
    · rw [deliverNext_queued hlook hrxq]
      exact deliverByte_withFramer b (s.popped b bs) s
    · rw [noteDelivered_frame]
      exact presentBytes_not_staged hlook
    · rw [noteDelivered_drained b (s := s.popped b bs) hlook]
      simp [State.drained, presentBytes_not_staged hlook, hrxq]

/-- With nothing present the drain changes nothing. -/
theorem State.drained_nothing {s : State} (h : presentBytes s = []) : s.drained = s := by
  cases hlook : s.lookV with
  | true => simp [presentBytes_staged hlook] at h
  | false =>
    have hrxq : s.rxq = [] := (presentBytes_not_staged hlook).symm.trans h
    cases s
    simp_all [State.drained]

/-- The drain feeds the present bytes in order (R117). -/
theorem drainQueue_eq (n : Nat) {s : State} (hn : (presentBytes s).length ≤ n) :
    drainQueue n s = (feedAll (presentBytes s) s).map s.drained.withFramer := by
  induction n generalizing s with
  | zero =>
    have hnone := List.eq_nil_of_length_eq_zero (Nat.le_zero.mp hn)
    rw [hnone, State.drained_nothing hnone]
    rfl
  | succ n ih =>
    have htest : (s.lookV = true ∨ 0 < queuedCount s) ↔ presentBytes s ≠ [] := by
      cases hlook : s.lookV <;> simp [presentBytes, hlook, queuedCount, List.length_pos_iff]
    rw [drainQueue]
    cases h : presentBytes s with
    | nil =>
      rw [if_neg (by simp [htest, h]), State.drained_nothing h]
      rfl
    | cons b bs =>
      obtain ⟨a, hnext, hrest, hdrained⟩ := deliverNext_present h
      rw [if_pos (by simp [htest, h]), hnext, feedAll]
      cases hfeed : feedOp b s with
      | error e => rfl
      | ok p =>
        have hlen : (presentBytes (a.withFramer p.2)).length ≤ n := by
          rw [h] at hn
          exact (congrArg List.length hrest).trans_le (Nat.le_of_succ_le_succ hn)
        have hdrain := ih hlen
        rw [show presentBytes (a.withFramer p.2) = bs from hrest, feedAll_withFramer] at hdrain
        simp only [Except.map, ok_bind, hdrain]
        cases feedAll bs p.2 with
        | error e => rfl
        | ok u =>
          have hend : a.drained.withFramer u = s.drained.withFramer u := by rw [hdrained]
          exact congrArg Except.ok hend

/-! ### EXTRACT of a complete sentence -/

/-- The state EXTRACT leaves: the checksum and the output of `image`, every present byte read, and the Framer as in `u`
(R111 to R117). -/
def State.extracted (s : State) (image : List Byte) (u : State) : State :=
  ((({ s with cks := imageChecksum image } : State).withOutput
    (formatOutput s.mode (classify image (imageChecksum image)) image)).drained).withFramer u

/-- EXTRACT of a complete sentence: the image before the sentinel is classified and formatted, the Framer restarts and
is fed the tail and the present bytes, and these are taken (R110 to R118). -/
theorem extractOp_eq {s : State} {p : Nat} (h : s.Inv) (hs : s.ss = .complete) (hp : CompleteAt s p) :
    ∃ image tail u, image.length = p ∧ (∀ i, i < p → s.buf.read i = image[i]?) ∧
      tail.length = s.cur - (p + 1) ∧ (∀ k, k < tail.length → s.buf.read (p + 1 + k) = tail[k]?) ∧
      feedAll (tail ++ presentBytes s) s.restarted = .ok u ∧
      extractOp s = .ok (classify image (imageChecksum image), s.extracted image u) := by
  obtain ⟨image, tail, hscan, hlen, hcells, htail⟩ := hp.scan
  obtain ⟨htailLen, htailCells⟩ := readCells_ok.mp htail
  obtain ⟨u, hu, -, -⟩ := feedAll_framerInv (bs := tail ++ presentBytes s) (restarted_framerInv h.framer)
  refine ⟨image, tail, u, hlen, hcells, htailLen, fun k hk => (htailCells k (htailLen ▸ hk)).2, hu, ?_⟩
  rw [feedAll_append, bind_eq_ok] at hu
  obtain ⟨v, hv, hu⟩ := hu
  rw [State.extracted]
  generalize hres : classify image (imageChecksum image) = res
  have hshort : (formatOutput s.mode res image).length < outCap := by
    have h81 := hp.pHi
    have hformat := formatOutput_length s.mode res image
    simp only [outCap, capacity]
    omega
  rw [extractOp, if_pos hs, hscan]
  simp only [ok_bind, hres, writeOut_ok hshort]
  generalize hw : ({ s with cks := imageChecksum image } : State).withOutput (formatOutput s.mode res image) = w
  have hshift : feedAll tail w.restarted = .ok (w.withFramer v) := by
    have hfeed := feedAll_withFramer tail w s.restarted
    rw [hv] at hfeed
    have hw' : w.restarted = w.withFramer s.restarted := by rw [← hw]; rfl
    rw [hw', hfeed]
    rfl
  have hpresent : presentBytes (w.withFramer v) = presentBytes s := by rw [← hw]; rfl
  have hdrain := drainQueue_eq (presentCount (w.withFramer v)) (s := w.withFramer v)
    (Nat.le_of_eq (length_presentBytes _))
  rw [hpresent, feedAll_withFramer, hu] at hdrain
  have htail' : tailBytes image.length w = .ok tail := by rw [hlen, ← hw]; exact htail
  simp only [tailShift, htail', ok_bind, hshift, hdrain, pure_eq_ok]
  rfl

/-- Settles O32: the tail, then the present bytes, fed to the restarted Framer. -/
theorem extractShiftsTheTailAndDrains : Obligations.ExtractShiftsTheTailAndDrains := by
  intro s p hinv hready hs hp
  obtain ⟨image, tail, u, -, -, hlen, hcells, hfeed, hop⟩ := extractOp_eq hinv hs hp
  exact ⟨tail, _, u, hlen, hcells, exec_extract_of_extractOp hready hop, hfeed, rfl, rfl, rfl, rfl, rfl, rfl, rfl⟩

/-! ### The Result -/

theorem framingOk_iff {image : List Byte} (h : 3 ≤ image.length) :
    framingOk image = true ↔ image[image.length - 3]? = some chStar := by
  simp [framingOk, h]

/-- The Result is FramingOverrun when the framing check fails, and then only (R112). -/
theorem classify_framingOverrun_iff {image : List Byte} (h : 3 ≤ image.length) (k : Byte) :
    classify image k = .framingOverrun ↔ image[image.length - 3]? ≠ some chStar := by
  rw [Ne, ← framingOk_iff h, classify]
  by_cases hf : framingOk image = true <;> by_cases hc : checksumOk image k = true <;> simp [hf, hc]

/-- The Result is Valid when both checks pass, and then only (R112, R113). -/
theorem classify_valid_iff {image : List Byte} (h : 3 ≤ image.length) (k : Byte) :
    classify image k = .valid ↔ image[image.length - 3]? = some chStar ∧
      image[image.length - 2]? = some (hexHi k) ∧ image[image.length - 1]? = some (hexLo k) := by
  have hc : checksumOk image k = true ↔
      image[image.length - 2]? = some (hexHi k) ∧ image[image.length - 1]? = some (hexLo k) := by simp [checksumOk]
  rw [← framingOk_iff h, ← hc, classify]
  by_cases hf : framingOk image = true <;> by_cases hc : checksumOk image k = true <;> simp [hf, hc]

/-- A scanned image is never answered NoData. -/
theorem classify_ne_noData (image : List Byte) (k : Byte) : classify image k ≠ .noData := by
  unfold classify
  split_ifs <;> simp

/-! ### The output -/

theorem formatOutput_textVisible (r : ResultCode) (image : List Byte) :
    formatOutput .textVisible r image = chDollar :: image := by
  simp [formatOutput]

theorem formatOutput_fullSentence (r : ResultCode) (image : List Byte) :
    formatOutput .fullSentence r image = chDollar :: image ++ [chCr, chLf] := by
  simp [formatOutput]

/-- The null that follows the output. -/
theorem State.withOutput_read_end (s : State) (bs : List Byte) : (s.withOutput bs).out.read bs.length = some chNul := by
  rw [Machine.withOutput_read, List.getElem?_concat_length]

/-- Settles O30: the image is classified and formatted in the output buffer. -/
theorem extractResultAndOutput : Obligations.ExtractResultAndOutput := by
  intro s p hinv hready hs hp
  obtain ⟨image, tail, u, rfl, hcells, -, -, -, hop⟩ := extractOp_eq hinv hs hp
  refine ⟨image, formatOutput s.mode (classify image (imageChecksum image)) image, classify image (imageChecksum image),
    _, rfl, hcells, exec_extract_of_extractOp hready hop, rfl, classify_framingOverrun_iff hp.pLo _,
    classify_valid_iff hp.pLo _, classify_ne_noData _ _, fun hm hv => ?bodyOnlyValid, fun hm hv => ?bodyOnlyOther,
    fun hm => ?textVisible, fun hm => ?fullSentence, rfl, fun i hi => State.withOutput_read s hi,
    State.withOutput_read_end s _, rfl, rfl⟩
  case bodyOnlyValid => rw [hm, hv, formatOutput_bodyOnly_valid]
  case bodyOnlyOther => rw [hm, formatOutput_bodyOnly_of_ne_valid hv]
  case textVisible => rw [hm, formatOutput_textVisible]; rfl
  case fullSentence => rw [hm, formatOutput_fullSentence]; rfl

end Sys2Proof.Machine
end

section
/-! PROOFS. Forced completion and FramingOverrun (41_sentence_framer.md section 2, 60_exceptions.md section 1) -/

namespace Sys2Proof.Machine

open Sys2Proof

/-- The sentinel is the one null below the cursor. -/
theorem CompleteAt.eq_of_nul {s : State} {p q : Nat} (h : CompleteAt s p) (hq : q < s.cur)
    (hnul : s.buf.read q = some chNul) : q = p := by
  have hno : ¬ cellAccepted s.buf q := by
    rintro ⟨b, hb, ha⟩
    exact accepted_ne_nul ha (Option.some.inj (hb.symm.trans hnul))
  rcases Nat.lt_trichotomy q p with hlt | heq | hgt
  · exact absurd (h.sentence q hlt) hno
  · exact heq
  · exact absurd (h.tail q hgt hq) hno

/-- A complete sentence is a matter of `BUF` and the cursor. -/
theorem CompleteAt.congr {s t : State} {p : Nat} (h : CompleteAt s p) (hb : t.buf = s.buf) (hc : t.cur = s.cur) :
    CompleteAt t p where
  pLo := h.pLo
  pHi := h.pHi
  sentence := hb ▸ h.sentence
  sentinel := hb ▸ h.sentinel
  star := hb ▸ h.star
  curLo := hc ▸ h.curLo
  curHi := hc ▸ h.curHi
  tail := hb ▸ hc ▸ h.tail

/-- FEED keeps the invariant. -/
theorem FeedCase.inv {c : Byte} {s t : State} {r : Bool} (h : FeedCase c s r t) (hinv : s.Inv) : t.Inv := by
  have hframe := feedOp_frame h.feedOp_eq
  refine .of_parts (feedOp_framerInv h.feedOp_eq hinv.framer) ?_ ?_
  · rw [hframe]; exact hinv.gate.congr rfl rfl rfl
  · rw [hframe]; exact hinv.buffer.congr rfl rfl rfl

/-- The sentinel of a sentence that has just been completed. -/
theorem completed_completeAt {c : Byte} {s : State} (h : FeedCase c s true (s.completed c)) (hinv : s.Inv) :
    CompleteAt (s.completed c) (s.cur + 1) := by
  obtain ⟨p, hp⟩ := (h.inv hinv).completeImage rfl
  have heq := hp.eq_of_nul (Nat.lt_succ_self (s.cur + 1)) (s.completed_read c).2
  rwa [heq]

/-- A cell before the cursor is not touched by the completion. -/
theorem State.completed_read_below (s : State) (c : Byte) {i : Nat} (hi : i < s.cur) :
    (s.completed c).buf.read i = s.buf.read i := by
  rw [State.completed, Memory.read_write_other _ _ (by omega), Memory.read_write_other _ _ (by omega)]

/-- EXTRACT of a complete sentence answers FramingOverrun exactly when the byte three places before the sentinel is no
star, and never NoData (R112). -/
theorem exec_extract_framing {s : State} {p : Nat} (h : s.Inv) (hready : s.ready = true) (hs : s.ss = .complete)
    (hp : CompleteAt s p) :
    ∃ image r t, image.length = p ∧ exec .extract s = .next t ∧ t.resp.result = some r ∧
      t.outLen = (formatOutput s.mode r image).length ∧ r ≠ .noData ∧
      (r = .framingOverrun ↔ s.buf.read (p - 3) ≠ some chStar) := by
  obtain ⟨image, r, t, rfl, hcells, hexec, hr, hres, hlen, -⟩ := exec_extract_complete h hready hs hp
  have h3 := hp.pLo
  refine ⟨image, r, t, rfl, hexec, hres, hlen, ?_, ?_⟩
  · rw [hr]; exact classify_ne_noData _ _
  · rw [hr, classify_framingOverrun_iff h3, hcells _ (by omega)]

/-- Where completion is forced, there is no star three places before the sentinel: in InBody there is none at all, in
Cks1 the only one is the last byte. -/
theorem forced_no_star {s : State} (h : s.Inv) (hs : s.ss = .inBody ∨ s.ss = .cks1) (hcur : s.cur = 80) :
    s.buf.read 78 ≠ some chStar := by
  rcases hs with hs | hs
  · exact h.inBodyStars hs 78 (by omega)
  · obtain ⟨-, -, hno⟩ := h.cks1Star hs
    exact hno 78 (by omega)

/-- EXTRACT right after FEED has completed a sentence: the sentinel stands where FEED stored it. -/
theorem exec_extract_completed {c : Byte} {s : State} (hinv : s.Inv) (hready : s.ready = true)
    (hcase : FeedCase c s true (s.completed c)) :
    ∃ r u, exec .extract ((s.completed c).respond (flagResponse true)) = .next u ∧ u.resp.result = some r ∧
      r ≠ .noData ∧ (r = .framingOverrun ↔ s.buf.read (s.cur - 2) ≠ some chStar) := by
  have hp := (completed_completeAt hcase hinv).congr (t := (s.completed c).respond (flagResponse true)) rfl rfl
  obtain ⟨image, r, u, -, hu, hres, -, hdata, hframing⟩ :=
    exec_extract_framing (respond_inv (flagResponse true) (hcase.inv hinv)) hready rfl hp
  have h3 := hp.pLo
  rw [State.respond_buf, s.completed_read_below c (by omega)] at hframing
  exact ⟨r, u, hu, hres, hdata, hframing⟩

/-- Settles O28: no star stands where the framing check looks. -/
theorem forcedCompletionIsFramingOverrun : Obligations.ForcedCompletionIsFramingOverrun := by
  intro s t c hinv hready hs hcur ha hexec
  have hcase : FeedCase c s true (s.completed c) := .forced ha hs (by rw [hcur]; rfl)
  obtain rfl := Host.Outcome.next.inj (hcase.exec_eq.symm.trans hexec)
  obtain ⟨r, u, hu, hres, -, hframing⟩ := exec_extract_completed hinv hready hcase
  rw [hcur] at hframing
  exact ⟨u, hu, hres.trans (congrArg some (hframing.mpr (forced_no_star hinv hs hcur)))⟩

/-- EXTRACT out of turn answers NoData (R110). -/
theorem extractOp_outOfTurn {s : State} (hs : s.ss ≠ .complete) : extractOp s = .ok (.noData, reportNoData s) := by
  rw [extractOp, if_neg hs]

/-- Settles O29: EXTRACT's operation writes an empty output. -/
theorem extractOutOfTurn : Obligations.ExtractOutOfTurn := by
  intro s hready hs
  exact ⟨_, exec_extract_of_extractOp hready (extractOp_outOfTurn hs), rfl, rfl, rfl, rfl⟩

/-- The output of a sentence that is not Valid has the image's length, and the `$` and the line end in their modes. -/
theorem formatOutput_length_of_ne_valid (m : OutputMode) {r : ResultCode} (hr : r ≠ .valid) (image : List Byte) :
    (formatOutput m r image).length =
      image.length + match m with | .bodyOnly => 0 | .textVisible => 1 | .fullSentence => 3 := by
  cases m with
  | bodyOnly => rw [formatOutput_bodyOnly_of_ne_valid hr]; rfl
  | textVisible => rw [formatOutput_textVisible]; rfl
  | fullSentence => rw [formatOutput_fullSentence, List.cons_append, List.length_cons, List.length_append]; rfl

/-- Settles O34: under the invariant only a sentinel at 81 may lack the star, and the second checksum character is
stored two places after one. -/
theorem framingOverrunOnlyAfterForcedCompletion : Obligations.FramingOverrunOnlyAfterForcedCompletion := by
  refine ⟨fun s t hinv hready hexec hres => ?_, fun s c hinv hready hs ha => ?_⟩
  · have hs : s.ss = .complete := by
      by_contra hs
      rw [exec_extract_of_extractOp hready (extractOp_outOfTurn hs)] at hexec
      rw [← Host.Outcome.next.inj hexec] at hres
      simp [resultResponse] at hres
    obtain ⟨p, hp⟩ := hinv.completeImage hs
    obtain ⟨image, r, t', hlen, hexec', hres', houtLen, -, hframing⟩ := exec_extract_framing hinv hready hs hp
    obtain rfl := Host.Outcome.next.inj (hexec.symm.trans hexec')
    obtain rfl : r = .framingOverrun := Option.some.inj (hres'.symm.trans hres)
    have hstar := hframing.mp rfl
    obtain rfl := hp.star.resolve_left hstar
    refine ⟨hp, hstar, ?_⟩
    rw [houtLen, formatOutput_length_of_ne_valid _ (by simp), hlen]
    cases s.mode <;> rfl
  · have h80 := hinv.assemblingCur (.inr (.inr hs))
    have hcase : FeedCase c s true (s.completed c) :=
      .completed ha hs (Nat.lt_of_le_of_lt (Nat.succ_le_succ h80) (by decide))
    obtain ⟨r, u, hu, hres, hdata, hframing⟩ := exec_extract_completed hinv hready hcase
    obtain ⟨-, hstar, -⟩ := hinv.cks2Star hs
    refine ⟨_, u, hcase.exec_eq, rfl, hu, ?_⟩
    rw [hres]
    cases r with
    | valid => exact .inl rfl
    | checksumFailed => exact .inr rfl
    | framingOverrun => exact absurd hstar (hframing.mp rfl)
    | noData => exact absurd rfl hdata

end Sys2Proof.Machine
end

section
/-! PROOFS. The checksum of a sentence with one corrupted byte (42_message_extractor.md section 7) -/

namespace Sys2Proof.Machine

open Sys2Proof

/-- A digit stands for one nibble (R59). -/
theorem hexdigit_injective : Function.Injective hexdigit := by
  unfold Function.Injective
  decide

/-- Two bytes with the same checksum characters are the same (R59). -/
theorem eq_of_hex {k l : Byte} (hhi : hexHi k = hexHi l) (hlo : hexLo k = hexLo l) : k = l := by
  have hnibbles : ∀ x : Byte, x.extractLsb' 4 4 ++ x.extractLsb' 0 4 = x := fun x =>
    (BitVec.extractLsb'_append_extractLsb'_eq_extractLsb' rfl).trans BitVec.extractLsb'_eq_self
  rw [← hnibbles k, ← hnibbles l, hexdigit_injective hhi, hexdigit_injective hlo]

/-- The XOR engine started from another byte. -/
theorem foldl_xor (bs : List Byte) (a : Byte) : bs.foldl (fun acc b => acc ^^^ b) a = a ^^^ xorBytes bs := by
  induction bs generalizing a with
  | nil => exact (BitVec.xor_zero).symm
  | cons b bs ih =>
    rw [xorBytes, List.foldl_cons, List.foldl_cons, ih, ih (0#8 ^^^ b), BitVec.zero_xor, BitVec.xor_assoc]

theorem xorBytes_append (as bs : List Byte) : xorBytes (as ++ bs) = xorBytes as ^^^ xorBytes bs := by
  rw [xorBytes, List.foldl_append, foldl_xor]
  rfl

theorem xorBytes_cons (b : Byte) (bs : List Byte) : xorBytes (b :: bs) = b ^^^ xorBytes bs := by
  rw [xorBytes, List.foldl_cons, foldl_xor, BitVec.zero_xor]

/-- The checksum of an image whose body holds no star (R111). -/
theorem imageChecksum_body {body : List Byte} (h : chStar ∉ body) (rest : List Byte) :
    imageChecksum (body ++ chStar :: rest) = xorBytes body := by
  have hall : ∀ b ∈ body, (b != chStar) = true := fun b hb => by
    rw [bne_iff_ne]; rintro rfl; exact h hb
  rw [imageChecksum, List.takeWhile_append_of_pos hall]
  simp

/-- The Result of an image that ends in a star and two characters. -/
theorem classify_body (body : List Byte) (h l k : Byte) :
    classify (body ++ [chStar, h, l]) k = if h = hexHi k ∧ l = hexLo k then .valid else .checksumFailed := by
  have hlen : (body ++ [chStar, h, l]).length = body.length + 3 := by simp
  have hframing : framingOk (body ++ [chStar, h, l]) = true := by simp [framingOk]
  have hchecksum : checksumOk (body ++ [chStar, h, l]) k = true ↔ h = hexHi k ∧ l = hexLo k := by
    simp [checksumOk]
  rw [classify, if_pos hframing]
  exact if_congr hchecksum rfl rfl

/-- The Result of an image whose body holds one byte apart from `pre` and `post`, none of it a star. -/
theorem classify_body_byte {pre post : List Byte} {x : Byte} (hpre : chStar ∉ pre) (hpost : chStar ∉ post)
    (hx : x ≠ chStar) (h l : Byte) :
    classify (pre ++ x :: post ++ [chStar, h, l]) (imageChecksum (pre ++ x :: post ++ [chStar, h, l])) =
      if h = hexHi (x ^^^ (xorBytes pre ^^^ xorBytes post)) ∧ l = hexLo (x ^^^ (xorBytes pre ^^^ xorBytes post))
      then .valid else .checksumFailed := by
  have hbody : chStar ∉ pre ++ x :: post := by
    simp only [List.mem_append, List.mem_cons, not_or]
    exact ⟨hpre, hx.symm, hpost⟩
  have hxor : xorBytes (pre ++ x :: post) = x ^^^ (xorBytes pre ^^^ xorBytes post) := by
    rw [xorBytes_append, xorBytes_cons, ← BitVec.xor_assoc, BitVec.xor_comm _ x, BitVec.xor_assoc]
  rw [imageChecksum_body hbody, hxor, classify_body]

/-- Settles O35: one changed byte changes the XOR, and so the two characters that stand for it. -/
theorem corruptedByteFailsTheChecksum : Obligations.CorruptedByteFailsTheChecksum := by
  intro pre post b c h l hne hb hc hpre hpost hvalid
  refine (classify_body_byte hpre hpost hc h l).trans (if_neg ?_)
  rintro ⟨hhi, hlo⟩
  by_cases hright : h = hexHi (b ^^^ (xorBytes pre ^^^ xorBytes post)) ∧
      l = hexLo (b ^^^ (xorBytes pre ^^^ xorBytes post))
  · have hsame := eq_of_hex (hright.1.symm.trans hhi) (hright.2.symm.trans hlo)
    exact hne ((BitVec.xor_left_inj _).mp hsame)
  · have hfailed := (classify_body_byte hpre hpost hb h l).trans (if_neg hright)
    exact absurd (hfailed.symm.trans hvalid) (by simp)

end Sys2Proof.Machine
end

section
/-! PROOFS. Reading the tail in place while it is fed again (20_memory.md section 4) -/

namespace Sys2Proof.Machine

open Sys2Proof

/-- The cursor after `n` bytes fed from 0: each moves it by one, and the one that completes a sentence by two. -/
def CursorWithin (n : Nat) (s : State) : Prop := s.cur ≤ n + 1 ∧ (s.ss ≠ .complete → s.cur ≤ n)

/-- The byte that completes a sentence and the sentinel move the cursor by two. -/
theorem completed_cursorWithin {c : Byte} {s : State} {n : Nat} (h : s.cur ≤ n) :
    CursorWithin (n + 1) (s.completed c) ∧ s.cur ≤ (s.completed c).cur ∧
      ∀ a, (s.completed c).cur ≤ a → (s.completed c).buf.read a = s.buf.read a := by
  refine ⟨⟨Nat.succ_le_succ (Nat.succ_le_succ h), fun hs => absurd rfl hs⟩, Nat.le_add_right _ _, fun a ha => ?_⟩
  have ha : s.cur + 2 ≤ a := ha
  rw [State.completed, Memory.read_write_other _ _ (by omega), Memory.read_write_other _ _ (by omega)]

/-- FEED moves the cursor forward, within its bound, and writes below where it ends. -/
theorem FeedCase.cursorWithin {c : Byte} {s t : State} {r : Bool} (h : FeedCase c s r t) {n : Nat}
    (hn : CursorWithin n s) :
    CursorWithin (n + 1) t ∧ s.cur ≤ t.cur ∧ ∀ a, t.cur ≤ a → t.buf.read a = s.buf.read a := by
  obtain ⟨hle, hbefore⟩ := hn
  cases h with
  | rejected | skipped | dropped =>
    exact ⟨⟨by omega, fun hs => (hbefore hs).trans (Nat.le_succ n)⟩, Nat.le_refl _, fun _ _ => rfl⟩
  | started hs hc => exact ⟨⟨hle.trans (Nat.le_succ _), fun _ => hle⟩, Nat.le_refl _, fun _ _ => rfl⟩
  | stored ha hs hcur hf =>
    have hn : s.cur ≤ n := hbefore (by rcases hs with hs | hs <;> simp [hs])
    exact ⟨⟨Nat.succ_le_succ hle, fun _ => Nat.succ_le_succ hn⟩, Nat.le_succ _,
      fun a ha => Memory.read_write_other _ _ (Nat.ne_of_gt ha)⟩
  | forced ha hs hf => exact completed_cursorWithin (hbefore (by rcases hs with hs | hs <;> simp [hs]))
  | completed ha hs hcur => exact completed_cursorWithin (hbefore (by simp [hs]))
  | appended ha hs hcur =>
    exact ⟨⟨Nat.succ_le_succ hle, fun h => absurd hs h⟩, Nat.le_succ _,
      fun a ha => Memory.read_write_other _ _ (Nat.ne_of_gt ha)⟩

/-- Feeding bytes leaves every cell from the cursor on as it was. -/
theorem feedAll_cursorWithin {bs : List Byte} {s t : State} (h : feedAll bs s = .ok t) {n : Nat}
    (hn : CursorWithin n s) : CursorWithin (n + bs.length) t ∧ s.cur ≤ t.cur ∧
      ∀ a, t.cur ≤ a → t.buf.read a = s.buf.read a := by
  induction bs generalizing s n with
  | nil =>
    obtain rfl := Except.ok.inj h
    exact ⟨hn, Nat.le_refl _, fun _ _ => rfl⟩
  | cons b bs ih =>
    rw [feedAll, bind_eq_ok] at h
    obtain ⟨⟨r, u⟩, hfeed, hrest⟩ := h
    obtain ⟨hu, hsu, hread⟩ := (feedOp_cases hfeed).cursorWithin hn
    obtain ⟨ht, hut, hread'⟩ := ih hrest hu
    refine ⟨?_, hsu.trans hut, fun a ha => (hread' a ha).trans (hread a (hut.trans ha))⟩
    rw [List.length_cons, Nat.add_comm bs.length 1, ← Nat.add_assoc]
    exact ht

/-- Settles O33: the cursor cannot have reached the cell, three cells at least beyond the number of bytes fed. -/
theorem tailMayBeReadInPlace : Obligations.TailMayBeReadInPlace := by
  intro s t p k tail hinv hs hp hlen hcells hk hfeed
  have hstart : CursorWithin 0 { s with ss := .searching, cur := 0 } := ⟨by simp, by simp⟩
  obtain ⟨⟨hcur, -⟩, -, hread⟩ := feedAll_cursorWithin hfeed hstart
  have h3 := hp.pLo
  have hfed : (tail.take k).length ≤ k := List.length_take_le k tail
  exact hread _ (by omega)

end Sys2Proof.Machine
end

section
/-! PROOFS. The Sentence Writer (43_sentence_writer.md). -/

namespace Sys2Proof.Machine

open Sys2Proof

/-- SEND after connection setup leaves the state its operation reaches and drives no wire. -/
theorem exec_send_of_sendOp {len : Byte} {s t : State} (hready : s.ready = true) (h : sendOp len s = .ok t) :
    exec (.send len) s = .next (t.respond .undriven) := by
  change execSend len s = _
  rw [execSend, whenReady_ready hready, h]
  rfl

/-- A length of 0 is sent as nothing (R130). -/
theorem sendOp_nothing {len : Byte} (h : ¬ 1 ≤ sendLength len) (s : State) : sendOp len s = .ok s := by
  rw [sendOp, if_pos (by omega)]

/-- Settles O36: the length is 0. -/
theorem sendOfNothing : Obligations.SendOfNothing :=
  fun s hready => exec_send_of_sendOp hready (sendOp_nothing (by decide) s)

/-- Settles O38: no frame for a length of 0, else the full frames and the last one, which is shorter. -/
theorem sendAnswersAndItsFrame : Obligations.SendAnswersAndItsFrame := by
  intro s len hready hopen
  by_cases hn : 1 ≤ sendLength len
  · obtain ⟨t, full, part, hop, hfull, hpart, -, ht⟩ := sendOp_ok hn hopen
    refine ⟨_, full ++ [part], exec_send_of_sendOp hready hop, ?_, fun f hf => ?_, ?_⟩
    · rw [State.respond_txLog, ht, List.append_assoc]
    · rcases List.mem_append.mp hf with hf | hf
      · exact Nat.le_of_eq (hfull f hf)
      · rw [List.mem_singleton.mp hf]
        exact Nat.le_of_lt hpart
    · rw [ht]; rfl
  · exact ⟨_, [], exec_send_of_sendOp hready (sendOp_nothing hn s), (List.append_nil _).symm, by simp, rfl⟩

/-! ### A body the host has put in `BODY` -/

/-- The length SEND takes from the command of a body of `n` bytes (R51, R130). -/
theorem sendLength_ofNat (n : Nat) : sendLength (BitVec.ofNat 8 (min n 255)) = min n 77 := by
  have hfit : min n 255 % 2 ^ 8 = min n 255 :=
    Nat.mod_eq_of_lt (Nat.lt_of_le_of_lt (Nat.min_le_right n 255) (by decide))
  rw [sendLength, BitVec.toNat_ofNat, hfit, sendMax, capacity]
  omega

/-- Within the body SEND reads the host's bytes, and no free one (R132, log entry 15). -/
theorem bodyBytes_within {s : State} {n : Nat} (h : n ≤ s.body.length) : bodyBytes s n = s.body.take n := by
  simp [bodyBytes, bodyMissing, Nat.sub_eq_zero_of_le h]

theorem bodyMissing_within {s : State} {n : Nat} (h : n ≤ s.body.length) : bodyMissing s n = 0 :=
  Nat.sub_eq_zero_of_le h

/-- What SEND does with the command of the body in `BODY` (R132, R133, R135). -/
theorem sendOp_body {s : State} (hopen : s.txOpen = none) (hbody : s.body ≠ []) {out : List Byte}
    (hout : out = writtenBody (s.body.take 77)) :
    ∃ full last, (∀ f ∈ full, f.length = s.params.frameCap) ∧ last.length < s.params.frameCap ∧
      full.flatten ++ last = chDollar :: out ++ sentenceTrailer (xorBytes out) ∧
      sendOp (BitVec.ofNat 8 (min s.body.length 255)) s = .ok
        { s with
          cks := xorBytes out, txCnt := last.length, txLog := s.txLog ++ full ++ [last]
          busLog := s.busLog ++ (full ++ [last]).flatMap (frameCalls s.params.devAddr) } := by
  have hlen := sendLength_ofNat s.body.length
  have hpos : 0 < s.body.length := List.length_pos_iff.mpr hbody
  have hwithin : min s.body.length 77 ≤ s.body.length := Nat.min_le_left _ _
  have htake : s.body.take (min s.body.length 77) = s.body.take 77 := by
    rw [Nat.min_comm, ← List.take_take, List.take_length]
  obtain ⟨t, full, last, hop, hfull, hlast, hbytes, ht⟩ :=
    sendOp_ok (s := s) (len := BitVec.ofNat 8 (min s.body.length 255)) (by rw [hlen]; omega) hopen
  rw [hlen, bodyBytes_within hwithin, htake, ← hout] at hbytes ht
  rw [bodyMissing_within hwithin] at ht
  exact ⟨full, last, hfull, hlast, hbytes, hop.trans (congrArg Except.ok ht)⟩

/-- Frames of one length and a shorter last one: how many there are, and how long the last one is. -/
theorem frames_div_mod {cap : Nat} {full : List (List Byte)} {last : List Byte} (hfull : ∀ f ∈ full, f.length = cap)
    (hlast : last.length < cap) :
    full.length = (full.flatten ++ last).length / cap ∧ last.length = (full.flatten ++ last).length % cap := by
  have hlen : (full.flatten ++ last).length = last.length + cap * full.length := by
    rw [List.length_append, List.length_flatten, List.map_congr_left hfull, List.map_const', List.sum_replicate,
      smul_eq_mul, Nat.add_comm, Nat.mul_comm]
  rw [hlen, Nat.add_mul_div_left _ _ (Nat.zero_lt_of_lt hlast), Nat.div_eq_of_lt hlast, Nat.add_mul_mod_self_left,
    Nat.mod_eq_of_lt hlast, Nat.zero_add]
  exact ⟨rfl, rfl⟩

/-- Settles O37: the frames SEND's operation writes, counted. -/
theorem sendWritesTheFramedSentence : Obligations.SendWritesTheFramedSentence := by
  intro s hready hopen hbody
  obtain ⟨full, last, hfull, hlast, hbytes, hop⟩ := sendOp_body hopen hbody rfl
  obtain ⟨hcount, hrest⟩ := frames_div_mod hfull hlast
  exact ⟨s.body.take 77, writtenBody (s.body.take 77), full.flatten ++ last, last, full, _, _, rfl, rfl, rfl, hbytes,
    exec_send_of_sendOp hready hop, hcount, hfull, hrest, rfl, rfl⟩

end Sys2Proof.Machine
end

section
/-! PROOFS. The round trip: what SEND writes, fed back to the Framer and extracted (44_public_operations.md section
2). -/

namespace Sys2Proof.Machine

open Sys2Proof

/-! ### Bytes stored one after the other -/

/-- `BUF[CUR] <- v; CUR <- CUR + 1` for each byte in order (R93). -/
def State.storedAll (s : State) (bs : List Byte) : State := bs.foldl State.stored s

theorem State.storedAll_append (s : State) (as bs : List Byte) :
    s.storedAll (as ++ bs) = (s.storedAll as).storedAll bs :=
  List.foldl_append

theorem State.storedAll_cur (s : State) (bs : List Byte) : (s.storedAll bs).cur = s.cur + bs.length := by
  induction bs generalizing s with
  | nil => rfl
  | cons b bs ih =>
    refine (ih (s.stored b)).trans ?_
    rw [State.stored_cur, List.length_cons]
    omega

theorem State.storedAll_frame (s : State) (bs : List Byte) :
    s.storedAll bs = { s with buf := (s.storedAll bs).buf, cur := (s.storedAll bs).cur } := by
  induction bs generalizing s with
  | nil => rfl
  | cons b bs ih => exact ih (s.stored b)

/-- A store does not look at the Search State. -/
theorem State.storedAll_withState (s : State) (bs : List Byte) (x : SearchState) :
    ({ s with ss := x } : State).storedAll bs = { s.storedAll bs with ss := x } := by
  induction bs generalizing s with
  | nil => rfl
  | cons b bs ih => exact ih (s.stored b)

theorem State.storedAll_read_below (s : State) (bs : List Byte) {i : Nat} (h : i < s.cur) :
    (s.storedAll bs).buf.read i = s.buf.read i := by
  induction bs generalizing s with
  | nil => rfl
  | cons b bs ih =>
    refine (ih (s.stored b) (Nat.lt_succ_of_lt h)).trans ?_
    rw [stored_read, if_neg (Nat.ne_of_lt h)]

theorem State.storedAll_read (s : State) {bs : List Byte} {k : Nat} (h : k < bs.length) :
    (s.storedAll bs).buf.read (s.cur + k) = bs[k]? := by
  induction bs generalizing s k with
  | nil => simp at h
  | cons b bs ih =>
    cases k with
    | zero =>
      refine ((s.stored b).storedAll_read_below bs (Nat.lt_succ_self _)).trans ?_
      rw [stored_read, if_pos rfl]
      rfl
    | succ k =>
      have hread := ih (s.stored b) (Nat.lt_of_succ_lt_succ h)
      rwa [State.stored_cur, Nat.add_assoc, Nat.add_comm 1 k] at hread

/-! ### Feeding a sentence -/

/-- Accepted bytes without a star are stored in InBody while there is room (R95). -/
theorem feedAll_inBody {bs : List Byte} {s : State} (hs : s.ss = .inBody) (haccepted : ∀ b ∈ bs, accepted b = true)
    (hstar : chStar ∉ bs) (hroom : s.cur + bs.length ≤ 80) : feedAll bs s = .ok (s.storedAll bs) := by
  induction bs generalizing s with
  | nil => rfl
  | cons b bs ih =>
    rw [List.length_cons] at hroom
    obtain ⟨hb, hbs⟩ := List.forall_mem_cons.mp haccepted
    obtain ⟨hne, hnot⟩ := not_or.mp fun h => hstar (List.mem_cons.mpr h)
    have hcase := FeedCase.stored hb (.inl hs) (by simp only [capacity]; omega)
      (by simp only [forceAt, capacity]; omega)
    have hstored : ({ s.stored b with ss := storedSuccessor s.ss b } : State) = s.stored b := by
      rw [hs, storedSuccessor, if_neg (Ne.symm hne), ← hs]
      rfl
    rw [hstored] at hcase
    rw [feedAll_cons_of_feedOp hcase.feedOp_eq]
    exact ih (s := s.stored b) hs hbs hnot (by rw [State.stored_cur]; omega)

/-- A star and two characters after a body complete the sentence, and the line end is rejected (R95 to R97, R92). -/
theorem feedAll_trailer {s : State} {h l : Byte} (hs : s.ss = .inBody) (hroom : s.cur ≤ 77) (hh : accepted h = true)
    (hl : accepted l = true) :
    feedAll [chStar, h, l, chCr, chLf] s = .ok { s.storedAll [chStar, h, l, chNul] with ss := .complete } := by
  have hstar : FeedCase chStar s false { s.stored chStar with ss := .cks1 } := by
    have hcase := FeedCase.stored accepted_star (.inl hs) (by simp only [capacity]; omega)
      (by simp only [forceAt, capacity]; omega)
    rwa [hs, storedSuccessor, if_pos rfl] at hcase
  have hfirst : FeedCase h { s.stored chStar with ss := .cks1 } false
      { (s.stored chStar).stored h with ss := .cks2 } :=
    .stored hh (.inr rfl) (by simp only [capacity, State.stored_cur]; omega)
      (by simp only [forceAt, capacity, State.stored_cur]; omega)
  have hsecond : FeedCase l { (s.stored chStar).stored h with ss := .cks2 } true
      { s.storedAll [chStar, h, l, chNul] with ss := .complete } :=
    .completed hl rfl (by simp only [capacity, State.stored_cur]; omega)
  rw [feedAll_cons_of_feedOp hstar.feedOp_eq, feedAll_cons_of_feedOp hfirst.feedOp_eq,
    feedAll_cons_of_feedOp hsecond.feedOp_eq, rejectedBytesAreInvisible]
  rfl

/-- The start marker, a body, a star and two characters complete a sentence; the line end is rejected. -/
theorem feedAll_sentence {body : List Byte} {s : State} {h l : Byte} (hs : s.ss = .searching) (hcur : s.cur = 0)
    (haccepted : ∀ b ∈ body, accepted b = true) (hstar : chStar ∉ body) (hroom : body.length ≤ 77)
    (hh : accepted h = true) (hl : accepted l = true) :
    feedAll (chDollar :: body ++ [chStar, h, l, chCr, chLf]) s =
      .ok { s.storedAll (body ++ [chStar, h, l, chNul]) with ss := .complete } := by
  have hbody := feedAll_inBody (s := { s with ss := .inBody }) rfl haccepted hstar
    (by simp only [hcur]; omega)
  rw [State.storedAll_withState] at hbody
  have htrailer := feedAll_trailer (s := { s.storedAll body with ss := .inBody }) rfl
    (by simp only [State.storedAll_cur, hcur]; omega) hh hl
  rw [List.cons_append, feedAll_cons_of_feedOp (FeedCase.started hs rfl).feedOp_eq, feedAll_append, hbody, ok_bind,
    htrailer, State.storedAll_append]
  rfl

/-! ### The round trip -/

theorem accepted_hex (k : Byte) : accepted (hexHi k) = true ∧ accepted (hexLo k) = true := by
  revert k; decide

/-- Feeding bytes keeps the invariant. -/
theorem feedAll_inv {bs : List Byte} {s t : State} (h : s.Inv) (hfeed : feedAll bs s = .ok t) : t.Inv := by
  obtain ⟨u, hu, hinv, hframe⟩ := feedAll_framerInv (bs := bs) h.framer
  obtain rfl := Except.ok.inj (hu.symm.trans hfeed)
  refine .of_parts hinv ?_ ?_
  · rw [hframe]; exact h.gate.congr rfl rfl rfl
  · rw [hframe]; exact h.buffer.congr rfl rfl rfl

/-- A complete sentence whose cells are known is answered with the Result and the output of that image. -/
theorem exec_extract_image {s : State} {image : List Byte} (h : s.Inv) (hready : s.ready = true)
    (hs : s.ss = .complete) (hcells : ∀ i, i < image.length → s.buf.read i = image[i]?)
    (hnul : s.buf.read image.length = some chNul) (hcur : image.length < s.cur) :
    ∃ v o, exec .extract s = .next v ∧ o = formatOutput s.mode (classify image (imageChecksum image)) image ∧
      v.resp = ⟨none, some (classify image (imageChecksum image)), some (BitVec.ofNat 8 o.length)⟩ ∧
      v.outLen = o.length ∧ (∀ i, i < o.length → v.out.read i = o[i]?) ∧ v.out.read o.length = some chNul := by
  obtain ⟨p, hp⟩ := h.completeImage hs
  obtain rfl := hp.eq_of_nul hcur hnul
  obtain ⟨image', tail, u, hlen, hcells', -, -, -, hop⟩ := extractOp_eq h hs hp
  obtain rfl : image' = image := by
    refine List.ext_getElem? fun i => ?_
    by_cases hi : i < image.length
    · rw [← hcells' i hi, hcells i hi]
    · rw [List.getElem?_eq_none (by omega), List.getElem?_eq_none (by omega)]
  exact ⟨_, _, exec_extract_of_extractOp hready hop, rfl, rfl, rfl, fun i hi => State.withOutput_read s hi,
    State.withOutput_read_end s _⟩

/-- A body with its star and checksum is answered Valid, and in BodyOnly the output is the body (R111 to R114). -/
theorem classify_sent {body : List Byte} (hstar : chStar ∉ body) {image : List Byte}
    (himage : image = body ++ [chStar, hexHi (xorBytes body), hexLo (xorBytes body)]) :
    classify image (imageChecksum image) = .valid ∧ formatOutput .bodyOnly .valid image = body := by
  constructor
  · rw [himage, imageChecksum_body hstar, classify_body, if_pos ⟨rfl, rfl⟩]
  · rw [formatOutput_bodyOnly_valid, himage]
    simp

/-- A body without a star that does not begin with `$` is written whole (R132). -/
theorem writtenBody_self {body : List Byte} (hstar : chStar ∉ body) (hdollar : body.head? ≠ some chDollar) :
    writtenBody body = body := by
  rw [writtenBody, if_neg hdollar, List.takeWhile_eq_self_iff]
  intro b hb
  rw [bne_iff_ne]
  rintro rfl
  exact hstar hb

/-- What is fed back: the sentence SEND wrote, stored up to its sentinel and answered Valid. -/
theorem exec_extract_sent {s : State} {body : List Byte} (hinv : s.Inv) (hready : s.ready = true)
    (hs : s.ss = .searching) (hmode : s.mode = .bodyOnly) (haccepted : ∀ b ∈ body, accepted b = true)
    (hstar : chStar ∉ body) (hmax : body.length ≤ 77) :
    ∃ u v, feedAll (chDollar :: body ++ sentenceTrailer (xorBytes body)) s = .ok u ∧ exec .extract u = .next v ∧
      v.resp = ⟨none, some .valid, some (BitVec.ofNat 8 body.length)⟩ ∧ v.outLen = body.length ∧
      (∀ i, i < body.length → v.out.read i = body[i]?) ∧ v.out.read body.length = some chNul := by
  obtain ⟨hhi, hlo⟩ := accepted_hex (xorBytes body)
  have hcur := hinv.searchingCur hs
  have hfeed := feedAll_sentence hs hcur haccepted hstar hmax hhi hlo
  generalize himage : body ++ [chStar, hexHi (xorBytes body), hexLo (xorBytes body)] = image
  have hstored : body ++ [chStar, hexHi (xorBytes body), hexLo (xorBytes body), chNul] = image ++ [chNul] := by
    rw [← himage, List.append_assoc]; rfl
  rw [hstored] at hfeed
  have hread : ∀ k, k < (image ++ [chNul]).length →
      (s.storedAll (image ++ [chNul])).buf.read k = (image ++ [chNul])[k]? := fun k hk => by
    rw [← s.storedAll_read hk, hcur, Nat.zero_add]
  have hlen : (image ++ [chNul]).length = image.length + 1 := List.length_append
  obtain ⟨hvalid, hformat⟩ := classify_sent hstar himage.symm
  have hframe := s.storedAll_frame (image ++ [chNul])
  obtain ⟨v, o, hexec, ho, hresp, houtLen, hout, hend⟩ := exec_extract_image (image := image) (feedAll_inv hinv hfeed)
    (by simp only; rw [hframe]; exact hready) rfl
    (fun i hi => (hread i (by omega)).trans (List.getElem?_append_left hi))
    ((hread _ (by omega)).trans List.getElem?_concat_length)
    (by simp only [State.storedAll_cur, hcur]; omega)
  have hmode' : (s.storedAll (image ++ [chNul])).mode = .bodyOnly := by rw [hframe]; exact hmode
  simp only [hmode', hvalid, hformat] at ho
  subst ho
  rw [hvalid] at hresp
  exact ⟨_, v, hfeed, hexec, hresp, houtLen, hout, hend⟩

/-- Settles O39: the body is written whole, and the sentence fed back is answered Valid. -/
theorem sentBodyComesBack : Obligations.SentBodyComesBack := by
  intro s hinv hready hs hmode hpos hmax haccepted hstar hdollar
  have hwritten : s.body = writtenBody (s.body.take 77) := by
    rw [List.take_of_length_le hmax, writtenBody_self hstar hdollar]
  obtain ⟨full, last, -, -, hbytes, hop⟩ :=
    sendOp_body hinv.frameClosed (List.length_pos_iff.mp hpos) hwritten
  rw [Nat.min_eq_left (hmax.trans (by decide))] at hop
  have hsent := hinv.congr (t := ({ s with
    cks := xorBytes s.body, txCnt := last.length, txLog := s.txLog ++ full ++ [last]
    busLog := s.busLog ++ (full ++ [last]).flatMap (frameCalls s.params.devAddr) } : State).respond .undriven)
    rfl rfl rfl
  obtain ⟨u, v, hfeed, hresult⟩ := exec_extract_sent hsent hready hs hmode haccepted hstar hmax
  refine ⟨_, u, v, full ++ [last], exec_send_of_sendOp hready hop, List.append_assoc _ _ _, ?_, hresult⟩
  rw [List.flatten_append, List.flatten_singleton, hbytes]
  exact hfeed

end Sys2Proof.Machine
end

section
/-! PROOFS. Frames: what each operation leaves unchanged, and so which operations can change what (10_state.md sections
2 to 8, 44_public_operations.md sections 1 and 4). Nothing is assumed of the state but that the operation answers. -/

namespace Sys2Proof.Machine

open Sys2Proof

/-! ### The operations -/

theorem feedAll_frame {bs : List Byte} {s t : State} (h : feedAll bs s = .ok t) :
    t = { s with buf := t.buf, cur := t.cur, ss := t.ss } := by
  induction bs generalizing s with
  | nil => obtain rfl := Except.ok.inj h; rfl
  | cons b bs ih =>
    rw [feedAll, bind_eq_ok] at h
    obtain ⟨p, hfeed, hrest⟩ := h
    rw [ih hrest, feedOp_frame hfeed]

theorem deliverNext_frame {s t : State} (h : deliverNext s = .ok t) :
    t = { s with
          buf := t.buf, cur := t.cur, ss := t.ss, plf := t.plf, lookV := t.lookV, rxq := t.rxq
          busLog := t.busLog } := by
  rw [deliverNext, bind_eq_ok] at h
  obtain ⟨⟨b, u⟩, hread, hfeed⟩ := h
  cases b with
  | none => cases hfeed
  | some b =>
    simp only [bind_eq_ok, pure_eq_ok, Except.ok.injEq] at hfeed
    obtain ⟨p, hfeed, rfl⟩ := hfeed
    rw [feedOp_frame hfeed, rdbyteOp_frame hread]

theorem drainQueue_frame {n : Nat} {s t : State} (h : drainQueue n s = .ok t) :
    t = { s with
          buf := t.buf, cur := t.cur, ss := t.ss, plf := t.plf, lookV := t.lookV, rxq := t.rxq
          busLog := t.busLog } := by
  induction n generalizing s with
  | zero => obtain rfl := Except.ok.inj h; rfl
  | succ n ih =>
    rw [drainQueue] at h
    split at h
    · rw [bind_eq_ok] at h
      obtain ⟨u, hnext, hrest⟩ := h
      rw [ih hrest, deliverNext_frame hnext]
    · obtain rfl := Except.ok.inj h; rfl

theorem extractOp_frame {s t : State} {r : ResultCode} (h : extractOp s = .ok (r, t)) :
    t = { s with
          buf := t.buf, cur := t.cur, ss := t.ss, plf := t.plf, lookV := t.lookV, cks := t.cks, out := t.out
          outLen := t.outLen, rxq := t.rxq, busLog := t.busLog } := by
  rw [extractOp] at h
  split at h
  · simp only [tailShift, bind_eq_ok, pure_eq_ok, Except.ok.injEq, Prod.mk.injEq] at h
    obtain ⟨image, -, u, hwrite, v, ⟨tail, -, w, hfeed, hdrain⟩, -, rfl⟩ := h
    obtain ⟨-, rfl⟩ := writeOut_cases hwrite
    rw [drainQueue_frame hdrain, feedAll_frame hfeed]
    rfl
  · obtain ⟨-, rfl⟩ := Prod.mk.inj (Except.ok.inj h)
    rfl

theorem receiveLoop_frame {n : Nat} {s t : State} {r : ResultCode} (h : receiveLoop n s = .ok (r, t)) :
    t = { s with
          buf := t.buf, cur := t.cur, ss := t.ss, plf := t.plf, look := t.look, lookV := t.lookV, cks := t.cks
          out := t.out, outLen := t.outLen, rxq := t.rxq, dev := t.dev, busLog := t.busLog } := by
  induction n generalizing s with
  | zero => cases h
  | succ n ih =>
    rw [receiveLoop] at h
    split at h
    · rw [extractOp_frame h]
    · rw [bind_eq_ok] at h
      obtain ⟨⟨more, u⟩, havail, h⟩ := h
      cases more with
      | true =>
        simp only [if_true, bind_eq_ok] at h
        obtain ⟨v, hnext, hrest⟩ := h
        rw [ih hrest, deliverNext_frame hnext, availOp_frame havail]
      | false =>
        simp only [Bool.false_eq_true, if_false, pure_eq_ok, Except.ok.injEq, Prod.mk.injEq] at h
        obtain ⟨-, rfl⟩ := h
        rw [availOp_frame havail]
        rfl

/-- SEND's operation answers only with no frame open, or with nothing to send (R39). -/
theorem sendOp_frame {len : Byte} {s t : State} (h : sendOp len s = .ok t) :
    t = { s with
          cks := t.cks, txCnt := t.txCnt, txLog := t.txLog, busLog := t.busLog, bodyDraws := t.bodyDraws } := by
  by_cases hn : 1 ≤ sendLength len
  · by_cases hopen : s.txOpen = none
    · obtain ⟨u, full, part, hop, -, -, -, hu⟩ := sendOp_ok hn hopen
      obtain rfl := Except.ok.inj (hop.symm.trans h)
      rw [hu]
    · obtain ⟨f, hf⟩ := Option.ne_none_iff_exists'.mp hopen
      simp [sendOp, Nat.not_lt.mpr hn, beginFrame, hf] at h
  · rw [sendOp_nothing hn] at h
    obtain rfl := Except.ok.inj h
    rfl

/-! ### The instructions -/

/-- An operation that ends in a next state has answered, and drives its response there. -/
theorem finish_bind_next {α : Type} {x : Except Fault α} {f : α → Response × State} {t : State}
    (h : finish (x >>= fun a => .ok (f a)) = .next t) : ∃ a, x = .ok a ∧ t = (f a).2.respond (f a).1 := by
  obtain ⟨r, u, hx, rfl⟩ := finish_next.mp h
  obtain ⟨a, ha, hfa⟩ := bind_eq_ok.mp hx
  exact ⟨a, ha, by rw [Except.ok.inj hfa]⟩

theorem exec_avail_frame {s t : State} (h : exec .avail s = .next t) :
    t = { s with
          plf := t.plf, look := t.look, lookV := t.lookV, rxq := t.rxq, dev := t.dev, busLog := t.busLog
          resp := t.resp } := by
  obtain ⟨p, hop, rfl⟩ := finish_bind_next (whenReady_next.mp h).2
  rw [availOp_frame hop]
  rfl

theorem exec_rdbyte_frame {s t : State} (h : exec .rdbyte s = .next t) :
    t = { s with plf := t.plf, lookV := t.lookV, rxq := t.rxq, busLog := t.busLog, resp := t.resp } := by
  obtain ⟨p, hop, rfl⟩ := finish_bind_next (whenReady_next.mp h).2
  rw [rdbyteOp_frame hop]
  rfl

theorem exec_feed_frame {c : Byte} {s t : State} (h : exec (.feed c) s = .next t) :
    t = { s with buf := t.buf, cur := t.cur, ss := t.ss, resp := t.resp } := by
  obtain ⟨p, hop, rfl⟩ := finish_bind_next h
  rw [feedOp_frame hop]
  rfl

theorem exec_extract_frame {s t : State} (h : exec .extract s = .next t) :
    t = { s with
          buf := t.buf, cur := t.cur, ss := t.ss, plf := t.plf, lookV := t.lookV, cks := t.cks, out := t.out
          outLen := t.outLen, rxq := t.rxq, busLog := t.busLog, resp := t.resp } := by
  obtain ⟨p, hop, rfl⟩ := finish_bind_next (whenReady_next.mp h).2
  rw [extractOp_frame hop]
  rfl

/-- Settles O44: the frame of RECEIVE's loop. -/
theorem receiveFrame : Obligations.ReceiveFrame := by
  intro s t h
  obtain ⟨p, hop, rfl⟩ := finish_bind_next (whenReady_next.mp h).2
  rw [receiveLoop_frame hop]
  rfl

theorem exec_send_frame {len : Byte} {s t : State} (h : exec (.send len) s = .next t) :
    t = { s with
          cks := t.cks, txCnt := t.txCnt, txLog := t.txLog, busLog := t.busLog, bodyDraws := t.bodyDraws
          resp := t.resp } := by
  obtain ⟨u, hop, rfl⟩ := finish_bind_next (whenReady_next.mp h).2
  rw [sendOp_frame hop]
  rfl

/-- The arrival of a byte takes the staged byte too, but none from the queue (R16). -/
theorem arriveByte_frame {b : Byte} {s t : State} (h : arriveByte b s = .next t) :
    t = { s with buf := t.buf, cur := t.cur, ss := t.ss, plf := t.plf, lookV := t.lookV, resp := t.resp } := by
  have hfree : ∀ u : State, u.lookV = false → arriveByte b u = .next t →
      t = { u with buf := t.buf, cur := t.cur, ss := t.ss, plf := t.plf, resp := t.resp } := by
    intro u hlook hu
    rw [arriveByte_not_staged hlook] at hu
    obtain ⟨v, hop, rfl⟩ := finish_bind_next hu
    rw [deliverByte_frame hop]
    rfl
  cases hlook : s.lookV with
  | false => rw [hfree s hlook h, hlook]
  | true =>
    cases hop : deliverByte s.look { s with lookV := false } with
    | error e => simp [arriveByte, hlook, deliverNext_staged hlook, hop] at h
    | ok u =>
      rw [arriveByte_staged hlook hop] at h
      have hframe := deliverByte_frame hop
      rw [hfree u (by rw [hframe]) h, hframe]

/-- Settles O50: the frame of each instruction. -/
theorem onlyTheseOperationsChangeWhat : Obligations.OnlyTheseOperationsChangeWhat := by
  intro i s t h
  by_cases hi : isDataByte i = true
  · rw [exec_dataByte hi] at h
    rw [arriveByte_frame h]
    simp [hi]
  · cases i with
    | avail => rw [exec_avail_frame h]; simp
    | rdbyte => rw [exec_rdbyte_frame h]; simp
    | feed c => rw [exec_feed_frame h]; simp
    | extract => rw [exec_extract_frame h]; simp
    | receive => rw [receiveFrame s t h]; simp
    | send len => rw [exec_send_frame h]; simp
    | setmode code => obtain rfl := Host.Outcome.next.inj h; simp
    | getmode => obtain rfl := Host.Outcome.next.inj h; simp
    | reserved0 | reserved9 | reservedA | reservedB | reservedC | reservedD | reservedE | reservedF => cases h
    | lf | dollar | star | accA | accB | rejCtl | rejLow | rejHigh => exact absurd rfl hi

end Sys2Proof.Machine
end

section
/-! PROOFS. RECEIVE's loop: a loop found not to end never ends (44_public_operations.md section 1, log entry 12). -/

namespace Sys2Proof.Machine

open Sys2Proof

/-! ### A loop found not to end -/

/-- RECEIVE's loop goes on for ever (R146). -/
def Hangs (s : State) : Prop := ∀ n, receiveLoop n s = .error .receiveNeverReturns

/-- A loop whose first round leads to one that goes on for ever. -/
theorem Hangs.of_round {s t : State} (ht : receiveRound s = some t) (h : Hangs t) : Hangs s := by
  intro n
  cases n with
  | zero => rfl
  | succ n => exact receiveLoop_hang_succ.mpr ⟨t, ht, h n⟩

/-- A loop that goes on for ever does so after its first round. -/
theorem Hangs.round {s : State} (h : Hangs s) : ∃ t, receiveRound s = some t ∧ Hangs t := by
  obtain ⟨t, ht, -⟩ := receiveLoop_hang_succ.mp (h 1)
  refine ⟨t, ht, fun n => ?_⟩
  obtain ⟨t', ht', hn⟩ := receiveLoop_hang_succ.mp (h (n + 1))
  rwa [Option.some.inj (ht.symm.trans ht')]

/-- With no byte staged, the loop goes on for ever when its view does. -/
theorem hangs_iff_view {s : State} (hlook : s.lookV = false) : Hangs s ↔ ∀ n, s.loopView.live n :=
  forall_congr' fun _ => receiveLoop_hang_view hlook

/-- On a device that repeats bursts, a loop that reads what is left and then two periods for each of the 84 moves the
Framer can make, and two more periods, never ends. -/
theorem LoopView.forever_repeats_left {v : LoopView} {bursts : List (List Byte)} (hidle : v.idle = .repeats bursts)
    (h : v.live (v.left + (2 * (84 + 1) * burstBytes bursts + 1))) (n : Nat) : v.live n := by
  obtain ⟨w, hw, hzero, hlater⟩ := LoopView.run_down rfl (LoopView.live_of_le h (Nat.le_add_right _ _))
  have hlive := (LoopView.live_add hw).mp h
  obtain ⟨hrxq, hdev⟩ := LoopView.wrapped hzero (LoopView.live_of_le hlive (Nat.le_add_left 1 _))
  exact LoopView.forever_of_rounds hw
    (LoopView.forever_repeats 84 (hlater.idle.trans hidle) hrxq hdev w.moves_le hlive) n

/-- With no byte staged, `receiveBound` rounds decide. -/
theorem hangs_of_bound {s : State} {k : Nat} (hlook : s.lookV = false)
    (hk : s.rxq.length + burstBytes s.dev + decidingPeriods * idlePeriod s.devIdle + 1 ≤ k)
    (h : receiveLoop k s = .error .receiveNeverReturns) : Hangs s :=
  (hangs_iff_view hlook).mpr
    (LoopView.forever s.params.frameCapPos (LoopView.live_of_le ((receiveLoop_hang_view hlook).mp h) hk))

/-- A round that begins with a byte staged may find the queue and the device's list empty and begin a period of the idle
device; the rounds that are left decide still. -/
theorem hangs_after_staged {s t : State} {k : Nat} (hlook : s.lookV = true) (ht : receiveRound s = some t)
    (hk : s.rxq.length + burstBytes s.dev + decidingPeriods * idlePeriod s.devIdle + 2 ≤ k)
    (h : receiveLoop k t = .error .receiveNeverReturns) : Hangs t := by
  obtain ⟨n, -, htlook, hidle, hparams, hdev, pre, hrxq⟩ := receiveRound_staged hlook ht
  have hlen : t.rxq.length ≤ (fillIfEmpty n s).rxq.length := by rw [hrxq, List.length_append]; omega
  have hlive := (receiveLoop_hang_view htlook).mp h
  obtain hle | ⟨hsrxq, hsdev, hfilled, hfiller⟩ := fillIfEmpty_left n s
  · refine hangs_of_bound htlook ?_ h
    rw [hdev, hidle]
    omega
  · have hdeciding : decidingPeriods = 174 := rfl
    have hk : 174 * idlePeriod s.devIdle + 2 ≤ k := by rw [hdeciding] at hk; omega
    have hleft : t.loopView.left ≤ burstBytes (idleBursts n s.devIdle) := by
      rw [← hfilled, ← hdev]
      exact Nat.add_le_add_right hlen _
    cases hs : s.devIdle with
    | silent =>
      rw [hs] at hleft
      have hzero : t.loopView.left = 0 := Nat.le_zero.mp hleft
      refine hangs_of_bound htlook ?_ h
      rw [hidle, hs]
      exact (Nat.add_le_add_right (Nat.le_of_eq hzero) 1).trans (by omega)
    | filler b =>
      rw [hs] at hk
      obtain ⟨hcopies, hnone⟩ := hfiller b hs
      have honly : ∀ c ∈ t.rxq, c = b := fun c hc =>
        List.eq_of_mem_replicate (hcopies ▸ hrxq ▸ List.mem_append_right pre hc)
      have henough : 84 + 2 ≤ k := (show 84 + 2 ≤ 174 * 1 + 2 by decide).trans hk
      exact (hangs_iff_view htlook).mpr (LoopView.forever_filler 84 (hidle.trans hs) (hdev.trans hnone) honly
        t.params.frameCapPos (LoopView.moves_le _) (LoopView.live_of_le hlive henough))
    | repeats bursts =>
      rw [hs] at hk hleft
      have hperiod : idlePeriod (.repeats bursts) = burstBytes bursts := rfl
      have hburst : burstBytes (idleBursts n (.repeats bursts)) = burstBytes bursts := rfl
      exact (hangs_iff_view htlook).mpr (LoopView.forever_repeats_left (hidle.trans hs)
        (LoopView.live_of_le hlive (by omega)))

/-- A loop found not to end in `receiveBound` rounds never ends (log entry 12). -/
theorem hangs_of_receiveBound {s : State} (h : receiveLoop (receiveBound s) s = .error .receiveNeverReturns) :
    Hangs s := by
  cases hlook : s.lookV with
  | false => exact hangs_of_bound hlook (by simp [receiveBound, presentCount, hlook, queuedCount]) h
  | true =>
    have hbound : receiveBound s =
        s.rxq.length + burstBytes s.dev + decidingPeriods * idlePeriod s.devIdle + 2 + 1 := by
      simp only [receiveBound, presentCount, hlook, queuedCount, if_true]
      omega
    rw [hbound] at h
    obtain ⟨t, ht, hloop⟩ := receiveLoop_hang_succ.mp h
    exact .of_round ht (hangs_after_staged hlook ht (Nat.le_refl _) hloop)

/-- RECEIVE after connection setup answers what its loop does in `receiveBound` rounds. -/
theorem exec_receive {s : State} (hready : s.ready = true) :
    exec .receive s = finish (do
      let (res, t) ← receiveLoop (receiveBound s) s
      return (resultResponse res t, t)) :=
  whenReady_ready hready

theorem exec_receive_of_loop {s t : State} {r : ResultCode} (hready : s.ready = true)
    (h : receiveLoop (receiveBound s) s = .ok (r, t)) : exec .receive s = .next (t.respond (resultResponse r t)) := by
  rw [exec_receive hready, h]
  rfl

/-- RECEIVE does not return exactly when its loop goes on for ever (R146). -/
theorem exec_receive_hang_iff {s : State} (hready : s.ready = true) :
    exec .receive s = .fault .receiveNeverReturns ↔ Hangs s := by
  refine ⟨fun h => hangs_of_receiveBound ?_, fun h => by rw [exec_receive hready, h (receiveBound s)]; rfl⟩
  rw [exec_receive hready] at h
  cases hloop : receiveLoop (receiveBound s) s with
  | ok p => simp [hloop] at h
  | error e =>
    rw [hloop] at h
    exact congrArg Except.error (Host.Outcome.fault.inj h)

/-- Settles O42: `receiveBound` rounds decide. -/
theorem receiveHangIsGenuine : Obligations.ReceiveHangIsGenuine := by
  intro s h
  cases hready : s.ready with
  | true => exact (exec_receive_hang_iff hready).mp h
  | false =>
    have hrefused : exec .receive s = .refused (.notReady "RECEIVE") := whenReady_not hready
    cases hrefused.symm.trans h

/-- Any number of rounds that decides answers what `receiveBound` rounds do. -/
theorem receiveLoop_bound {n : Nat} {s : State} (h : receiveLoop n s = .error .receiveNeverReturns → Hangs s) :
    receiveLoop (receiveBound s) s = receiveLoop n s := by
  by_cases hhangs : Hangs s
  · rw [hhangs, hhangs]
  · have hn : receiveLoop n s ≠ .error .receiveNeverReturns := fun hn => hhangs (h hn)
    have hbound : receiveLoop (receiveBound s) s ≠ .error .receiveNeverReturns := fun hb =>
      hhangs (hangs_of_receiveBound hb)
    rw [← receiveLoop_mono n hbound, ← receiveLoop_mono (receiveBound s) hn, Nat.add_comm]

end Sys2Proof.Machine
end

section
/-! PROOFS. RECEIVE is its loop over AVAIL, RDBYTE, FEED and EXTRACT, whose responses have no part in it
(44_public_operations.md section 1, 10_state.md rule R18) -/

namespace Sys2Proof.Machine

open Sys2Proof

theorem fillIfEmpty_respond (n : Nat) (s : State) (r : Response) :
    fillIfEmpty n (s.respond r) = (fillIfEmpty n s).respond r := by
  rw [fillIfEmpty_eq_ite, fillIfEmpty_eq_ite]
  by_cases hrxq : s.rxq = []
  · rw [if_pos hrxq, if_pos (show (s.respond r).rxq = [] from hrxq), requestBlock, requestBlock,
      show pendingBursts n (s.respond r) = pendingBursts n s from rfl]
    cases pendingBursts n s <;> rfl
  · rw [if_neg hrxq, if_neg (show (s.respond r).rxq ≠ [] from hrxq)]

theorem availOp_respond {s t : State} {b : Bool} (h : availOp s = .ok (b, t)) (r : Response) :
    availOp (s.respond r) = .ok (b, t.respond r) := by
  have hfill := fun n => fillIfEmpty_respond n s r
  obtain ⟨hplf, rfl, rfl⟩ | ⟨hplf, hrxq, rfl, rfl⟩ | ⟨hplf, q, hrxq, rfl, rfl⟩ | ⟨hplf, b, q, hb, hrxq, rfl, rfl⟩ :=
    availOp_cases h
  · rw [availOp, if_neg (by simp [hplf])]
    exact congrArg (fun u => Except.ok (u.lookV || decide (0 < queuedCount u), u)) (hfill _)
  · rw [availOp_nothing (s := s.respond r) hplf (by rw [hfill]; exact hrxq), hfill]
  · rw [availOp_flushes (s := s.respond r) hplf (by rw [hfill]; exact hrxq), hfill]
    rfl
  · rw [availOp_stages (s := s.respond r) hplf (by rw [hfill]; exact hrxq) hb, hfill]
    rfl

theorem rdbyteOp_respond (s : State) (r : Response) :
    rdbyteOp (s.respond r) = (rdbyteOp s).map (Prod.map id fun t => t.respond r) := by
  cases hlook : s.lookV with
  | true =>
    rw [rdbyteOp_staged hlook, rdbyteOp_staged (s := s.respond r) hlook]
    exact congrArg (fun t => Except.ok (some s.look, t)) (noteDelivered_respond s.look { s with lookV := false } r)
  | false =>
    cases hrxq : s.rxq with
    | nil => rw [rdbyteOp_nothing hlook hrxq, rdbyteOp_nothing (s := s.respond r) hlook hrxq]; rfl
    | cons b q =>
      rw [rdbyteOp_queued hlook hrxq, rdbyteOp_queued (s := s.respond r) hlook hrxq]
      exact congrArg (fun t => Except.ok (some b, t)) (noteDelivered_respond b (s.popped b q) r)

theorem deliverNext_respond (s : State) (r : Response) :
    deliverNext (s.respond r) = (deliverNext s).map fun t => t.respond r := by
  rw [deliverNext, rdbyteOp_respond, deliverNext]
  refine map_bind_comm _ _ _ _ _ fun p => ?_
  obtain ⟨b, t⟩ := p
  cases b with
  | none => rfl
  | some b =>
    simp only [Prod.map, id, feedOp_respond]
    exact map_bind_comm _ _ _ _ _ fun q => rfl

theorem feedAll_respond (bs : List Byte) (s : State) (r : Response) :
    feedAll bs (s.respond r) = (feedAll bs s).map fun t => t.respond r := by
  induction bs generalizing s with
  | nil => rfl
  | cons b bs ih =>
    rw [feedAll, feedOp_respond, feedAll]
    exact map_bind_comm _ _ _ _ _ fun p => ih p.2

theorem drainQueue_respond (n : Nat) (s : State) (r : Response) :
    drainQueue n (s.respond r) = (drainQueue n s).map fun t => t.respond r := by
  induction n generalizing s with
  | zero => rfl
  | succ n ih =>
    rw [drainQueue, drainQueue]
    by_cases hpresent : s.lookV = true ∨ 0 < queuedCount s
    · rw [if_pos hpresent, if_pos (show (s.respond r).lookV = true ∨ 0 < queuedCount (s.respond r) from hpresent),
        deliverNext_respond]
      exact map_bind_comm _ _ _ _ _ ih
    · rw [if_neg hpresent,
        if_neg (show ¬ ((s.respond r).lookV = true ∨ 0 < queuedCount (s.respond r)) from hpresent)]
      rfl

theorem writeOut_respond (bs : List Byte) (s : State) (r : Response) :
    writeOut bs (s.respond r) = (writeOut bs s).map fun t => t.respond r := by
  rw [writeOut, writeOut]
  split <;> rfl

theorem tailShift_respond (p : Nat) (s : State) (r : Response) :
    tailShift p (s.respond r) = (tailShift p s).map fun t => t.respond r := by
  rw [tailShift, tailShift, show tailBytes p (s.respond r) = tailBytes p s from rfl]
  cases tailBytes p s with
  | error e => rfl
  | ok tail =>
    simp only [ok_bind, show (s.respond r).restarted = s.restarted.respond r from rfl, feedAll_respond]
    exact map_bind_comm _ _ _ _ _ fun t => drainQueue_respond (presentCount t) t r

theorem extractOp_respond (s : State) (r : Response) :
    extractOp (s.respond r) = (extractOp s).map (Prod.map id fun t => t.respond r) := by
  rw [extractOp, extractOp]
  by_cases hs : s.ss = .complete
  · rw [if_pos hs, if_pos (show (s.respond r).ss = .complete from hs), State.respond_buf]
    cases scanBuf s.buf capacity 0 with
    | error e => rfl
    | ok image =>
      have hwrite := writeOut_respond (formatOutput s.mode (classify image (imageChecksum image)) image)
        { s with cks := imageChecksum image } r
      simp only [ok_bind, State.respond_mode]
      refine (congrArg (· >>= _) hwrite).trans (map_bind_comm _ _ _ _ _ fun t => ?_)
      rw [tailShift_respond]
      exact map_bind_comm _ _ _ _ _ fun u => rfl
  · rw [if_neg hs, if_neg (show (s.respond r).ss ≠ .complete from hs)]
    rfl

theorem receiveLoop_respond (n : Nat) (s : State) (r : Response) :
    receiveLoop n (s.respond r) = (receiveLoop n s).map (Prod.map id fun t => t.respond r) := by
  induction n generalizing s with
  | zero => rfl
  | succ n ih =>
    rw [receiveLoop, receiveLoop]
    by_cases hs : s.ss = .complete
    · rw [if_pos hs, if_pos (show (s.respond r).ss = .complete from hs), extractOp_respond]
    · obtain ⟨b, t, h⟩ := availOp_ok s
      rw [if_neg hs, if_neg (show (s.respond r).ss ≠ .complete from hs), h, availOp_respond h]
      cases b with
      | false => rfl
      | true =>
        simp only [ok_bind, if_true, deliverNext_respond]
        exact map_bind_comm _ _ _ _ _ ih

/-- RECEIVE drives the response anew, so it does not matter what the wires held. -/
theorem exec_receive_respond {s : State} (hready : s.ready = true) (r : Response) :
    exec .receive (s.respond r) = exec .receive s := by
  rw [exec_receive hready, exec_receive (s := s.respond r) hready, receiveLoop_respond,
    show receiveBound (s.respond r) = receiveBound s from rfl]
  cases receiveLoop (receiveBound s) s <;> rfl

/-! ### RECEIVE is its loop -/

theorem receiveBound_succ (s : State) : ∃ n, receiveBound s = n + 1 := ⟨_, rfl⟩

theorem exec_receive_complete {s : State} (hready : s.ready = true) (hs : s.ss = .complete) :
    exec .receive s = exec .extract s := by
  obtain ⟨n, hn⟩ := receiveBound_succ s
  have hextract : exec .extract s = _ := whenReady_ready hready
  rw [exec_receive hready, hextract, hn, receiveLoop, if_pos hs]

/-- AVAIL answering false ends the loop (R145). -/
theorem receiveLoop_nothing {s t : State} (hs : s.ss ≠ .complete) (h : availOp s = .ok (false, t)) (n : Nat) :
    receiveLoop (n + 1) s = .ok (.noData, reportNoData t) := by
  rw [receiveLoop, if_neg hs, h]
  rfl

/-- A round that delivers a byte, and the loop from there. -/
theorem receiveLoop_round {s t u : State} (hs : s.ss ≠ .complete) (havail : availOp s = .ok (true, t))
    (hnext : deliverNext t = .ok u) (n : Nat) : receiveLoop (n + 1) s = receiveLoop n u := by
  rw [receiveLoop, if_neg hs, havail]
  simp [hnext]

/-- RECEIVE goes on from the state a round leads to. -/
theorem exec_receive_round {s t u : State} (hready : s.ready = true) (hs : s.ss ≠ .complete)
    (havail : availOp s = .ok (true, t)) (hnext : deliverNext t = .ok u) : exec .receive s = exec .receive u := by
  obtain ⟨n, hn⟩ := receiveBound_succ s
  have hround : receiveRound s = some u := by simp [receiveRound, hs, havail, hnext]
  have hloop : receiveLoop (receiveBound u) u = receiveLoop (receiveBound s) s := by
    rw [hn, receiveLoop_round hs havail hnext]
    refine receiveLoop_bound fun hhang => ?_
    rw [← receiveLoop_round hs havail hnext, ← hn] at hhang
    obtain ⟨v, hv, hhangs⟩ := (hangs_of_receiveBound hhang).round
    rwa [Option.some.inj (hround.symm.trans hv)]
  have hready' : u.ready = true := by rw [deliverNext_frame hnext, availOp_frame havail]; exact hready
  rw [exec_receive hready, exec_receive hready', hloop]

theorem map_eq_ok {α β : Type} {x : Except Fault α} {f : α → β} {b : β} (h : x.map f = .ok b) :
    ∃ a, x = .ok a ∧ f a = b := by
  cases x with
  | error e => cases h
  | ok a => exact ⟨a, rfl, Except.ok.inj h⟩

/-- RDBYTE that delivers and FEED of the byte are a delivery, but for the responses they drive. -/
theorem deliverNext_of_rdbyte_feed {s b d : State} {c : Byte} {r : Response} (hb : exec .rdbyte (s.respond r) = .next b)
    (hc : b.resp.data = some c) (hd : exec (.feed c) b = .next d) :
    ∃ u r', deliverNext s = .ok u ∧ d = u.respond r' := by
  obtain ⟨p, hmapped, rfl⟩ := finish_bind_next (whenReady_next.mp hb).2
  rw [rdbyteOp_respond] at hmapped
  obtain ⟨⟨c', v⟩, hread, rfl⟩ := map_eq_ok hmapped
  obtain rfl : c' = some c := by
    cases c' with
    | none => cases hc
    | some c' => exact hc
  obtain ⟨f, w, hfeed, rfl⟩ := exec_feed_next.mp hd
  obtain ⟨⟨f', u⟩, hfed, heq⟩ := map_eq_ok ((feedOp_respond c v (byteResponse (some c))).symm.trans hfeed)
  obtain ⟨-, rfl⟩ := Prod.mk.inj heq
  refine ⟨u, flagResponse f, ?_, rfl⟩
  rw [deliverNext, hread]
  simp only [ok_bind, hfed, pure_eq_ok]

/-- Settles O40: the three ways a round of the loop can end. -/
theorem receiveIsItsLoop : Obligations.ReceiveIsItsLoop := by
  refine fun s hready => ⟨exec_receive_complete hready, fun a hs ha hflag => ?ends,
    fun a b c d hs ha hflag hb hc hd => ?goesOn⟩
  case ends =>
    obtain ⟨⟨more, t⟩, havail, rfl⟩ := finish_bind_next (whenReady_next.mp ha).2
    obtain rfl : more = false := Option.some.inj hflag
    obtain ⟨n, hn⟩ := receiveBound_succ s
    have hloop : receiveLoop (receiveBound s) s = .ok (.noData, reportNoData t) := by
      rw [hn, receiveLoop_nothing hs havail]
    exact ⟨_, exec_receive_of_loop hready hloop, rfl, rfl, rfl, rfl⟩
  case goesOn =>
    obtain ⟨⟨more, t⟩, havail, rfl⟩ := finish_bind_next (whenReady_next.mp ha).2
    obtain rfl : more = true := Option.some.inj hflag
    obtain ⟨u, r, hnext, rfl⟩ := deliverNext_of_rdbyte_feed hb hc hd
    have hready' : u.ready = true := by rw [deliverNext_frame hnext, availOp_frame havail]; exact hready
    rw [exec_receive_round hready hs havail hnext, exec_receive_respond hready']

end Sys2Proof.Machine
end

section
/-! PROOFS. The bytes RECEIVE's loop reads next, and RECEIVE on a device that idles on line feeds
(44_public_operations.md section 1). -/

namespace Sys2Proof.Machine

open Sys2Proof

/-! ### The bytes the loop reads next -/

/-- The bursts a request is answered from. -/
def LoopView.bursts (v : LoopView) : List (List Byte) := if v.dev = [] then idleBursts v.wanted v.idle else v.dev

/-- The bytes that come before the idle device gives its bytes again: those queued and listed, or those the idle device
now gives when there are none. -/
def LoopView.pending (v : LoopView) : List Byte := if v.rxq = [] then v.bursts.flatten else v.rxq ++ v.dev.flatten

theorem LoopView.pending_listed {v : LoopView} (h : v.rxq ++ v.dev.flatten ≠ []) :
    v.pending = v.rxq ++ v.dev.flatten := by
  rw [LoopView.pending]
  split
  next hrxq =>
    have hdev : v.dev ≠ [] := by
      rintro hdev
      simp [hrxq, hdev] at h
    rw [LoopView.bursts, if_neg hdev, hrxq, List.nil_append]
  next => rfl

theorem LoopView.pending_wrapped {v : LoopView} (hrxq : v.rxq = []) (hdev : v.dev = []) :
    v.pending = (idleBursts v.wanted v.idle).flatten := by
  rw [LoopView.pending, if_pos hrxq, LoopView.bursts, if_pos hdev]

/-- A pending byte is queued or listed, or given by the idle device. -/
theorem LoopView.mem_pending {v : LoopView} {c : Byte} (h : c ∈ v.pending) :
    c ∈ v.rxq ++ v.dev.flatten ∨ c ∈ (idleBursts v.wanted v.idle).flatten := by
  rw [LoopView.pending] at h
  split at h
  next =>
    rw [LoopView.bursts] at h
    split at h
    next => exact .inr h
    next => exact .inl (List.mem_append_right _ h)
  next => exact .inl h

/-- The first byte that a request of `n` gets from `bursts`, the others it gets, and the bursts that are left. -/
def byteOfBursts (n : Nat) : List (List Byte) → Option (Byte × List Byte × List (List Byte))
  | [] => none
  | burst :: rest =>
    match burst.take n with
    | [] => none
    | b :: q => some (b, q, burstsAfter n burst rest)

/-- With the queue empty, the next byte comes from the first burst. -/
theorem LoopView.nextByte_empty {v : LoopView} (hrxq : v.rxq = []) : v.nextByte = byteOfBursts v.wanted v.bursts := by
  rw [LoopView.nextByte, hrxq]
  rfl

/-- The loop takes the first pending byte and leaves the others queued and listed. -/
theorem LoopView.nextByte_pending {v : LoopView} {b : Byte} {q : List Byte} {d : List (List Byte)}
    (h : v.nextByte = some (b, q, d)) : v.pending = b :: (q ++ d.flatten) := by
  cases hrxq : v.rxq with
  | cons c q' =>
    simp only [LoopView.nextByte, hrxq, Option.some.injEq, Prod.mk.injEq] at h
    obtain ⟨rfl, rfl, rfl⟩ := h
    simp [LoopView.pending, hrxq]
  | nil =>
    rw [LoopView.nextByte_empty hrxq] at h
    rw [LoopView.pending, if_pos hrxq]
    cases hbursts : v.bursts with
    | nil => simp [hbursts, byteOfBursts] at h
    | cons burst rest =>
      cases htake : burst.take v.wanted with
      | nil => simp [hbursts, byteOfBursts, htake] at h
      | cons c q' =>
        simp only [hbursts, byteOfBursts, htake, Option.some.injEq, Prod.mk.injEq] at h
        obtain ⟨rfl, rfl, rfl⟩ := h
        rw [List.flatten_cons, ← burstsAfter_flatten v.wanted, htake]
        rfl

theorem LoopView.wanted_pos {v : LoopView} (h : 0 < v.cap) : 0 < v.wanted := by
  rw [LoopView.wanted]
  split
  · exact Nat.one_pos
  · exact h

/-- A request that does not take the whole burst leaves no empty one. -/
theorem nil_not_mem_burstsAfter {n : Nat} {burst : List Byte} {rest : List (List Byte)} (h : [] ∉ rest) :
    [] ∉ burstsAfter n burst rest := by
  rw [burstsAfter]
  split
  next => exact h
  next hlong =>
    rw [List.mem_cons, not_or]
    refine ⟨fun hdrop => hlong ?_, h⟩
    exact List.drop_eq_nil_iff.mp hdrop.symm

/-- Where no burst is empty, a pending byte is the next byte. -/
theorem LoopView.nextByte_of_pending {v : LoopView} {b : Byte} {bs : List Byte} (hcap : 0 < v.cap)
    (hdev : [] ∉ v.dev) (hbursts : v.rxq = [] → [] ∉ v.bursts) (h : v.pending = b :: bs) :
    ∃ q d, v.nextByte = some (b, q, d) ∧ q ++ d.flatten = bs ∧ [] ∉ d := by
  suffices hex : ∃ c q d, v.nextByte = some (c, q, d) ∧ [] ∉ d by
    obtain ⟨c, q, d, hnext, hd⟩ := hex
    obtain ⟨rfl, hbs⟩ := List.cons.inj ((LoopView.nextByte_pending hnext).symm.trans h)
    exact ⟨q, d, hnext, hbs, hd⟩
  cases hrxq : v.rxq with
  | cons c q => exact ⟨c, q, v.dev, by simp [LoopView.nextByte, hrxq], hdev⟩
  | nil =>
    have hfull := hbursts hrxq
    rw [LoopView.pending, if_pos hrxq] at h
    rw [LoopView.nextByte_empty hrxq]
    cases hbursts : v.bursts with
    | nil => simp [hbursts] at h
    | cons burst rest =>
      rw [hbursts, List.mem_cons, not_or] at hfull
      have htake : burst.take v.wanted ≠ [] := by
        rw [Ne, List.take_eq_nil_iff, not_or]
        exact ⟨(LoopView.wanted_pos hcap).ne', Ne.symm hfull.1⟩
      obtain ⟨c, q, hcq⟩ := List.exists_cons_of_ne_nil htake
      exact ⟨c, q, burstsAfter v.wanted burst rest, by simp [byteOfBursts, hcq], nil_not_mem_burstsAfter hfull.2⟩

/-! ### A device that idles on line feeds, or is silent -/

/-- Where only line feeds are pending and to come, the loop ends at the second at the latest (R74). -/
theorem LoopView.not_live_of_lf {v : LoopView} (hpending : ∀ c ∈ v.pending, c = chLf)
    (hidle : ∀ n, ∀ c ∈ (idleBursts n v.idle).flatten, c = chLf) : ¬ v.live 2 := by
  intro hlive
  cases hv : v.round with
  | none => simp [LoopView.live, LoopView.rounds, hv] at hlive
  | some w =>
    cases hw : w.round with
    | none => simp [LoopView.live, LoopView.rounds, hv, hw] at hlive
    | some x =>
      obtain ⟨-, b, q, d, hnext, -, -, hplf, rfl, rfl, hwidle, -⟩ := LoopView.round_some hv
      obtain ⟨-, b', q', d', hnext', hdouble, -⟩ := LoopView.round_some hw
      rw [LoopView.nextByte_pending hnext] at hpending
      obtain ⟨hb, hleft⟩ := List.forall_mem_cons.mp hpending
      have hb' : b' = chLf := by
        have hmem : b' ∈ w.pending := by rw [LoopView.nextByte_pending hnext']; exact List.mem_cons_self
        rcases LoopView.mem_pending hmem with hmem | hmem
        · exact hleft b' hmem
        · exact hidle _ b' (hwidle ▸ hmem)
      exact hdouble ⟨by rw [hplf, decide_eq_true hb], hb'⟩

/-- The loop ends on a device that is silent or idles on line feeds (R146). -/
theorem not_hangs_of_lf {s : State} (hidle : ∀ n, ∀ c ∈ (idleBursts n s.devIdle).flatten, c = chLf) : ¬ Hangs s := by
  have hfree : ∀ t : State, t.lookV = false → t.devIdle = s.devIdle → ¬ Hangs t := by
    intro t hlook ht hhangs
    have hlive := (hangs_iff_view hlook).mp hhangs
    obtain ⟨w, hw, hzero, hlater⟩ := LoopView.run_down rfl (hlive t.loopView.left)
    have hwlive : ∀ n, w.live n := fun n => (LoopView.live_add hw).mp (hlive _)
    obtain ⟨hrxq, hdev⟩ := LoopView.wrapped hzero (hwlive 1)
    have hwidle : w.idle = s.devIdle := hlater.idle.trans ht
    refine LoopView.not_live_of_lf ?_ ?_ (hwlive 2)
    · rw [LoopView.pending_wrapped hrxq hdev, hwidle]
      exact hidle _
    · rw [hwidle]
      exact hidle
  intro hhangs
  cases hlook : s.lookV with
  | false => exact hfree s hlook rfl hhangs
  | true =>
    obtain ⟨t, ht, hthangs⟩ := hhangs.round
    obtain ⟨-, -, htlook, htidle, -⟩ := receiveRound_staged hlook ht
    exact hfree t htlook htidle hthangs

/-- Settles O41: under the invariant the loop answers or goes on for ever, and here it does not go on for ever. -/
theorem receiveAnswersOnceTheDeviceIsIdle : Obligations.ReceiveAnswersOnceTheDeviceIsIdle := by
  intro s hinv hready hidle
  have hlf : ∀ n, ∀ c ∈ (idleBursts n s.devIdle).flatten, c = chLf := by
    intro n c hc
    obtain hs | hs | ⟨bursts, hs, hbursts⟩ := hidle
    · simp [hs, idleBursts] at hc
    · rw [hs, idleBursts, List.flatten_singleton] at hc
      exact List.eq_of_mem_replicate hc
    · rw [hs] at hc
      exact hbursts c hc
  obtain hhang | ⟨r, t, hloop, -⟩ := receiveLoop_inv (n := receiveBound s) hinv
  · exact absurd (hangs_of_receiveBound hhang) (not_hangs_of_lf hlf)
  · exact ⟨_, exec_receive_of_loop hready hloop, Option.some_ne_none r, rfl⟩

end Sys2Proof.Machine
end

section
/-! PROOFS. RECEIVE on an endless stream with no sentence in it (44_public_operations.md section 1,
70_reset_and_hazards.md section 3) -/

namespace Sys2Proof.Machine

open Sys2Proof

/-- What begins no sentence and ends no loop: no start marker, and no line feed after a line feed, the byte before the
first being a line feed when `plf` is set. -/
def quietAfter : Bool → List Byte → Prop
  | _, [] => True
  | plf, b :: bs => b ≠ chDollar ∧ ¬ (plf = true ∧ b = chLf) ∧ quietAfter (decide (b = chLf)) bs

theorem quietAfter_false {plf : Bool} {bs : List Byte} (h : quietAfter plf bs) : quietAfter false bs := by
  cases bs with
  | nil => trivial
  | cons b bs => exact ⟨h.1, by simp, h.2.2⟩

/-- A beginning of quiet bytes is quiet. -/
theorem quietAfter_left {plf : Bool} {as bs : List Byte} (h : quietAfter plf (as ++ bs)) : quietAfter plf as := by
  induction as generalizing plf with
  | nil => trivial
  | cons a as ih => exact ⟨h.1, h.2.1, ih h.2.2⟩

/-- An end of quiet bytes is quiet. -/
theorem quietAfter_right {plf : Bool} {as bs : List Byte} (h : quietAfter plf (as ++ bs)) : quietAfter false bs := by
  induction as generalizing plf with
  | nil => exact quietAfter_false h
  | cons a as ih => exact ih h.2.2

/-- Bytes without a start marker and without two line feeds in a row are quiet. -/
theorem quietAfter_of_not_infix {plf : Bool} {bs : List Byte} (hdollar : chDollar ∉ bs)
    (hpair : ¬ [chLf, chLf] <:+: bs) (hfirst : plf = true → bs.head? ≠ some chLf) : quietAfter plf bs := by
  induction bs generalizing plf with
  | nil => trivial
  | cons b bs ih =>
    obtain ⟨hb, hbs⟩ := not_or.mp fun h => hdollar (List.mem_cons.mpr h)
    refine ⟨Ne.symm hb, fun ⟨hplf, hlf⟩ => hfirst hplf (congrArg some hlf), ih hbs ?_ fun hlf hhead => hpair ?_⟩
    · exact fun h => hpair (List.infix_cons h)
    · obtain ⟨rest, hrest⟩ := List.head?_eq_some_iff.mp hhead
      rw [of_decide_eq_true hlf, hrest]
      exact List.IsPrefix.isInfix ⟨rest, rfl⟩

/-- While no sentence has begun, a quiet byte is skipped. -/
theorem LoopView.round_quiet {v : LoopView} {b : Byte} {bs q : List Byte} {d : List (List Byte)}
    (hs : v.ss = .searching) (hnext : v.nextByte = some (b, q, d)) (hquiet : quietAfter v.plf (b :: bs)) :
    v.round = some { v with plf := decide (b = chLf), rxq := q, dev := d } := by
  obtain ⟨hdollar, hlf, -⟩ := hquiet
  have hskip : feedView b v.ss v.cur = some (v.ss, v.cur) := by
    simp [feedView, hs, hdollar]
  rw [LoopView.round, if_neg (by simp [hs]), hnext]
  simp only [if_neg hlf, hskip]

theorem LoopView.live_succ {v w : LoopView} (h : v.round = some w) {n : Nat} (hw : w.live n) : v.live (n + 1) := by
  simpa [LoopView.live, LoopView.rounds, h] using hw

/-- While no sentence has begun, the loop reads every quiet byte queued and listed, in whatever bursts. -/
theorem LoopView.live_of_quiet {n : Nat} {v : LoopView} (hcap : 0 < v.cap) (hs : v.ss = .searching)
    (hdev : [] ∉ v.dev) (hquiet : quietAfter v.plf (v.rxq ++ v.dev.flatten))
    (hn : n ≤ (v.rxq ++ v.dev.flatten).length) : v.live n := by
  induction n generalizing v with
  | zero => rfl
  | succ n ih =>
    cases hbytes : v.rxq ++ v.dev.flatten with
    | nil => simp [hbytes] at hn
    | cons b bs =>
      have hpending : v.pending = b :: bs := by rw [LoopView.pending_listed (by simp [hbytes]), hbytes]
      have hbursts : v.rxq = [] → [] ∉ v.bursts := fun hrxq => by
        have hlisted : v.dev ≠ [] := by rintro hnone; simp [hrxq, hnone] at hbytes
        rwa [LoopView.bursts, if_neg hlisted]
      obtain ⟨q, d, hnext, hleft, hd⟩ := LoopView.nextByte_of_pending hcap hdev hbursts hpending
      rw [hbytes] at hquiet hn
      refine LoopView.live_succ (LoopView.round_quiet hs hnext hquiet) (ih hcap hs hd ?_ ?_)
      · rw [hleft]; exact hquiet.2.2
      · rw [hleft]; exact Nat.le_of_succ_le_succ hn

/-- A stream of rule R146's kind is quiet from every place on, a line feed not coming first when one came before. -/
theorem quietAfter_stream {stream : Nat → Byte} (hdollar : ∀ k, stream k ≠ chDollar)
    (hpair : ∀ k, ¬ (stream k = chLf ∧ stream (k + 1) = chLf)) (m : Nat) {k : Nat} {plf : Bool}
    (hplf : plf = true → stream k ≠ chLf) : quietAfter plf ((List.range' k m).map stream) := by
  induction m generalizing k plf with
  | zero => trivial
  | succ m ih =>
    refine ⟨hdollar k, fun ⟨hp, hlf⟩ => hplf hp hlf, ih fun hlf hnext => hpair k ⟨of_decide_eq_true hlf, hnext⟩⟩

/-- Settles O54: each round reads one byte of the stream, all of them quiet. -/
theorem receiveRunsOnAnyEndlessStream : Obligations.ReceiveRunsOnAnyEndlessStream := by
  intro stream hdollar hpair s n m hs hlook hplf hrxq hdev hstream hn
  have hbytes : s.rxq ++ s.dev.flatten = (List.range' 0 m).map stream := by
    rw [hrxq, hstream, List.nil_append, List.range_eq_range']
  refine (receiveLoop_hang_view hlook).mpr (LoopView.live_of_quiet (v := s.loopView) s.params.frameCapPos hs hdev ?_ ?_)
  · exact hbytes ▸ quietAfter_stream hdollar hpair m (by simp [State.loopView, hplf])
  · exact (congrArg List.length hbytes).ge.trans' (by simpa using hn)

/-- A loop whose every round leads from a view of `I` to one of `I` never ends. -/
theorem LoopView.live_of_invariant {I : LoopView → Prop} (hround : ∀ v, I v → ∃ w, v.round = some w ∧ I w)
    (n : Nat) {v : LoopView} (h : I v) : v.live n := by
  induction n generalizing v with
  | zero => rfl
  | succ n ih =>
    obtain ⟨w, hw, hI⟩ := hround v h
    exact LoopView.live_succ hw (ih hI)

/-- No sentence has begun, and only `b` is queued and to come. -/
structure LoopView.OnlyFiller (b : Byte) (v : LoopView) : Prop where
  cap : 0 < v.cap
  ss : v.ss = .searching
  idle : v.idle = .filler b
  dev : v.dev = []
  rxq : ∀ c ∈ v.rxq, c = b

/-- A round takes one filler byte, and skips it. -/
theorem LoopView.OnlyFiller.round {b : Byte} (hlf : b ≠ chLf) (hdollar : b ≠ chDollar) (v : LoopView)
    (h : v.OnlyFiller b) : ∃ w, v.round = some w ∧ w.OnlyFiller b := by
  obtain ⟨q, hnext, hq⟩ := LoopView.filler_byte h.idle h.dev h.rxq h.cap
  have hquiet : quietAfter v.plf [b] := ⟨hdollar, fun hp => hlf hp.2, trivial⟩
  exact ⟨_, LoopView.round_quiet h.ss hnext hquiet, h.cap, h.ss, h.idle, rfl, hq⟩

/-- No sentence has begun, and what is queued and listed before a period of the idle device, and the period, are
quiet. -/
structure LoopView.QuietPeriod (bursts : List (List Byte)) (v : LoopView) : Prop where
  cap : 0 < v.cap
  ss : v.ss = .searching
  idle : v.idle = .repeats bursts
  dev : [] ∉ v.dev
  quiet : quietAfter v.plf (v.rxq ++ v.dev.flatten ++ bursts.flatten)

/-- Bursts of which none is empty hold a byte, if there is one burst. -/
theorem eq_nil_of_flatten {bursts : List (List Byte)} (hne : [] ∉ bursts) (h : bursts.flatten = []) : bursts = [] :=
  List.eq_nil_iff_forall_not_mem.mpr fun burst hburst =>
    hne (List.flatten_eq_nil_iff.mp h burst hburst ▸ hburst)

/-- What is pending is quiet, and followed by a period of the idle device: when a period begins, the next one follows
it. -/
theorem LoopView.QuietPeriod.pending {bursts : List (List Byte)} (hfull : bursts ≠ []) (hne : [] ∉ bursts)
    (hperiods : quietAfter false (bursts.flatten ++ bursts.flatten)) {v : LoopView} (h : v.QuietPeriod bursts) :
    ∃ b bs, v.pending = b :: bs ∧ quietAfter v.plf (b :: (bs ++ bursts.flatten)) ∧ (v.rxq = [] → [] ∉ v.bursts) := by
  have hquiet := h.quiet
  cases hbytes : v.rxq ++ v.dev.flatten with
  | cons b bs =>
    rw [hbytes] at hquiet
    refine ⟨b, bs, by rw [LoopView.pending_listed (by simp [hbytes]), hbytes], hquiet, fun hrxq => ?_⟩
    have hlisted : v.dev ≠ [] := by rintro hnone; simp [hrxq, hnone] at hbytes
    rw [LoopView.bursts, if_neg hlisted]
    exact h.dev
  | nil =>
    obtain ⟨hrxq, hnone⟩ := List.append_eq_nil_iff.mp hbytes
    have hdev := eq_nil_of_flatten h.dev hnone
    have hgiven : v.bursts = bursts := by rw [LoopView.bursts, if_pos hdev, h.idle, idleBursts]
    obtain ⟨b, bs, hperiod⟩ := List.exists_cons_of_ne_nil fun hnone => hfull (eq_nil_of_flatten hne hnone)
    refine ⟨b, bs, by rw [LoopView.pending, if_pos hrxq, hgiven, hperiod], ?_, fun _ => hgiven ▸ hne⟩
    rw [hbytes, List.nil_append, hperiod] at hquiet
    rw [hperiod] at hperiods ⊢
    exact ⟨hquiet.1, hquiet.2.1, hperiods.2.2⟩

/-- A round takes the first pending byte and leaves a quiet period to come. -/
theorem LoopView.QuietPeriod.round {bursts : List (List Byte)} (hfull : bursts ≠ []) (hne : [] ∉ bursts)
    (hperiods : quietAfter false (bursts.flatten ++ bursts.flatten)) (v : LoopView) (h : v.QuietPeriod bursts) :
    ∃ w, v.round = some w ∧ w.QuietPeriod bursts := by
  obtain ⟨b, bs, hpending, hquiet, hbursts⟩ := h.pending hfull hne hperiods
  obtain ⟨q, d, hnext, hleft, hd⟩ := LoopView.nextByte_of_pending h.cap h.dev hbursts hpending
  refine ⟨_, LoopView.round_quiet h.ss hnext hquiet, h.cap, h.ss, h.idle, hd, ?_⟩
  rw [hleft]
  exact hquiet.2.2

/-- Settles O43: in both clauses each round keeps an invariant of the view under which a round goes on. -/
theorem receiveHangsOnAnEndlessStream : Obligations.ReceiveHangsOnAnEndlessStream := by
  refine ⟨?filler, ?repeats⟩
  case filler =>
    intro s b hready hs hdev hidle hlook hrxq hlf hdollar
    have hinv : s.loopView.OnlyFiller b := ⟨s.params.frameCapPos, hs, hidle, hdev, hrxq⟩
    exact (exec_receive_hang_iff hready).mpr ((hangs_iff_view hlook).mpr fun n =>
      LoopView.live_of_invariant (LoopView.OnlyFiller.round hlf hdollar) n hinv)
  case repeats =>
    intro s bursts stream hready hs hlook hidle hfull hdev hne hstream hdollar hpair hfirst
    have hquiet := quietAfter_of_not_infix hdollar hpair hfirst
    rw [hstream] at hquiet
    have hperiods : quietAfter false (bursts.flatten ++ bursts.flatten) := by
      rw [List.append_assoc] at hquiet
      exact quietAfter_right hquiet
    have hinv : s.loopView.QuietPeriod bursts :=
      ⟨s.params.frameCapPos, hs, hidle, hdev, quietAfter_left hquiet⟩
    exact (exec_receive_hang_iff hready).mpr ((hangs_iff_view hlook).mpr fun n =>
      LoopView.live_of_invariant (LoopView.QuietPeriod.round hfull hne hperiods) n hinv)

end Sys2Proof.Machine
end
